-- ==== Sys2Proof/Word.lean ====
section
/-! DEFINITION. The word types of the block: bytes of the host buffer and 32-bit host registers. -/

namespace Sys2Proof

/-- One byte of the host buffer, of a ROM code or of a data operand (spec 20_memory.md R74, 10_state.md R31). -/
abbrev Byte := BitVec 8

/-- One host register or command word: `REG_W` = 32 bits (spec 00_scope.md R15, 10_state.md R40). -/
abbrev Word := BitVec 32

end Sys2Proof
end

