-- ==== Sys2Proof/Machine/Wire.lean ====
section
/-! DEFINITION. What goes over the 1-Wire line and over the PulseChannel's interface: levels, segments, pulse trains,
captures, the channel's answers, and the events of a run (spec 00_scope.md R18, 30_encoding.md R113, 40_channel.md
R150 to R162). -/

namespace Sys2Proof.Machine

/-- The line has two levels (R113): 0 is low, pulled down by the block or a device, 1 is high, released and pulled up
(or driven up in strong-pull mode). -/
inductive Level where
  | low
  | high
deriving DecidableEq, Repr, Inhabited

/-- One `(level, duration)` element of a pulse train or a capture, in whole microseconds (R12, R18). -/
structure Segment where
  level : Level
  duration : Nat
deriving DecidableEq, Repr, Inhabited

/-- One element of a pulse train as R18 writes it: a segment, or the end marker `END`, after which the line is
released (R119). -/
inductive Item where
  | pulse (seg : Segment)
  | endMark
deriving DecidableEq, Repr, Inhabited

/-- A pulse train: "ordered sequence of (level, duration) pairs plus an end marker" (R18). -/
abbrev Train := List Item

/-- A capture: the pulse sequence the channel records from the line (R156). Any list of segments is an admitted
answer, malformed or not (R161). -/
abbrev Capture := List Segment

/-- The Environment's answer to `transmit` (R150 to R152). `err` names how many microseconds of the train the line had
carried when the transmit failed: "the line may have carried any prefix of the train", and the block never sees it. -/
inductive TxAnswer where
  | ok
  | err (carried : Nat)
deriving DecidableEq, Repr, Inhabited

/-- The Environment's answer to `receive` (R158, R161): a capture, `timeout`, or `err`. -/
inductive RxAnswer where
  | capture (c : Capture)
  | timeout
  | err
deriving DecidableEq, Repr, Inhabited

/-- One channel call of a run (R162): `flush`, `set_rx_idle_threshold(d)`, `transmit(train)` with its answer and the
`DRIVE` value during it, and `receive(t)` with its answer. -/
inductive Event where
  | flush
  | setIdle (d : Nat)
  | transmit (train : Train) (drive : Bool) (answer : TxAnswer)
  | receive (timeout : Nat) (answer : RxAnswer)
deriving DecidableEq, Repr, Inhabited

end Sys2Proof.Machine
end

