-- ==== Sys2Proof/Config.lean ====
section
/-! DEFINITION. The implementation parameters (spec 00_scope.md R13 to R15, 10_state.md R30) and the free values: what
the spec leaves to the implementation, to the Environment, or calls "any value". -/

namespace Sys2Proof

/-- The TimingTable (R13, R30): construction-time constants in whole microseconds, under the spec's names. -/
structure TimingTable where
  /-- `T_RSTL`: time the line is held low by a reset. -/
  tRstl : Nat
  /-- `T_W1L`: write-1 low time, also the read-slot low time. -/
  tW1l : Nat
  /-- `T_W1H`: write-1 high time. -/
  tW1h : Nat
  /-- `T_W0L`: write-0 low time. -/
  tW0l : Nat
  /-- `T_W0H`: write-0 high time. -/
  tW0h : Nat
  /-- `T_RS`: read sample offset, measured from slot start. -/
  tRs : Nat
deriving DecidableEq, Repr

/-- `T_SLOT`, the seventh figure, which R14 (a) derives from the table (90_conflicts.md C8). -/
def TimingTable.tSlot (t : TimingTable) : Nat := t.tW1l + t.tW1h

/-- Every parameter of one controller (R13, R15): the TimingTable, the tolerance on the captured reset low, the idle
thresholds and receive timeouts the block passes to its channel, and the width of a buffer address. -/
structure Params where
  timing : TimingTable
  /-- `T_RST_TOL` -/
  tRstTol : Nat
  /-- `T_IDLE_SLOT`: receive idle threshold for bit reads. -/
  tIdleSlot : Nat
  /-- `T_IDLE_RST`: receive idle threshold for a reset. -/
  tIdleRst : Nat
  /-- `T_TO_RESET`: receive timeout for a reset. -/
  tToReset : Nat
  /-- `T_TO_READ`: receive timeout for bit reads. -/
  tToRead : Nat
  /-- `ADDR_W`: width of a host buffer address. -/
  addrW : Nat
deriving DecidableEq, Repr

/-- The relations the parameters satisfy: R14 (a) to (e), the bounds R13 puts on `T_IDLE_SLOT` and `T_IDLE_RST`, every
segment duration positive (30_encoding.md R119), and `ADDR_W` inside the 32 bits of `BUF_ADDR` (10_state.md R44). -/
structure Params.Valid (p : Params) : Prop where
  /-- (a) and (b): a slot of either value lasts `T_SLOT`. -/
  slot : p.timing.tW0l + p.timing.tW0h = p.timing.tSlot
  /-- (c), as 90_conflicts.md C1 corrects it. -/
  sample : p.timing.tW1l < p.timing.tRs ∧ p.timing.tRs ≤ p.timing.tW0l
  /-- (d) -/
  tolerance : p.tRstTol < p.timing.tRstl
  /-- (e): a bit group's capture is not split between slots. -/
  idleHigh : p.timing.tW1h < p.tIdleSlot ∧ p.timing.tW0h < p.tIdleSlot
  idleSlot : p.timing.tSlot ≤ p.tIdleSlot
  idleRst : p.timing.tRstl < p.tIdleRst
  positive : 0 < p.timing.tW1l ∧ 0 < p.timing.tW1h ∧ 0 < p.timing.tW0l ∧ 0 < p.timing.tW0h ∧ 0 < p.timing.tRstl
  addrW : p.addrW ≤ 32

/-- `MAX_BITS`: the largest bit group (R15). -/
def maxBits : Nat := 8

/-- `ROM_BYTES` (R15). -/
def romBytes : Nat := 8

/-- `ROM_BITS` (R15). -/
def romBits : Nat := 64

/-- `TRAIN_CAP`: the pulse-train buffer's capacity in items, 8 slots and the end marker (R15, 10_state.md R55). -/
def trainCap : Nat := 9

/-- How far `T_IDLE_SLOT` lies above `T_SLOT` + 1: the spec leaves the parameter OPEN (R13, 92_eei_decisions.md D8). -/
opaque Config.idleSlotMargin : Nat

/-- How far `T_IDLE_RST` lies above `T_RSTL` + 1: OPEN (R13, D8). -/
opaque Config.idleRstMargin : Nat

/-- `T_TO_READ`: OPEN and finite (R13, 92_eei_decisions.md D9). -/
opaque Config.toRead : Nat

/-- A byte the spec calls "any value": a failed read's value (41_bit_byte_ops.md R208), `ROM_NO` after a failed search
(43_search.md R302). The argument is the number of free values drawn before. -/
opaque Config.freeByte : Nat → Byte

/-- A register word the spec calls "any value": a data register read while `BUSY` = 1 (10_state.md R42). -/
opaque Config.freeWord : Nat → Word

/-- The channel's idle threshold at block reset, "any value" (10_state.md R52, 93_implementation_defined.md U3). -/
opaque Config.freeIdle : Nat → Nat

/-- The Environment's answer to a `transmit` that no answer in the state's list covers (40_channel.md R161). -/
opaque Config.freeTx : Nat → Machine.TxAnswer

/-- The Environment's answer to a `receive` that no answer in the state's list covers (40_channel.md R161). -/
opaque Config.freeRx : Nat → Machine.RxAnswer

/-- The source's nominal figures (R13): the default TimingTable. -/
def TimingTable.nominal : TimingTable where
  tRstl := 480
  tW1l := 2
  tW1h := 73
  tW0l := 65
  tW0h := 10
  tRs := 13

/-- The default parameters (R13, R15): the nominal figures, `ADDR_W` = 32, and the OPEN parameters left free inside
their bounds. -/
def Params.default : Params where
  timing := TimingTable.nominal
  tRstTol := 2
  tIdleSlot := 76 + Config.idleSlotMargin
  tIdleRst := 481 + Config.idleRstMargin
  tToReset := 100000
  tToRead := Config.toRead
  addrW := 32

end Sys2Proof
end

