-- ==== Sys2Proof/Syntax.lean ====
section
/-! DEFINITION. The operations of the block, one constructor per row of spec/opcode_table.json
(spec 30_encoding.md R102). -/

namespace Sys2Proof

/-- An operation with its operands (R102, R103). Buffer operands are not part of it: they come from `BUF_ADDR` and
`BUF_LEN` (R101, R109). A bit count is a natural, which `Instr.WellFormed` bounds by the width of the field `N`. -/
inductive Instr where
  | reset
  | writeBit (v : Bool)
  | writeBits (d : Byte) (n : Nat) (pwr : Bool)
  | writeByte (d : Byte)
  | writeBytes (pwr : Bool)
  | readBit
  | readBits (n : Nat)
  | readByte
  | readBytes
  | select
  | skip
  | resetSearch
  | targetSearch (f : Byte)
  | search
deriving DecidableEq, Repr

end Sys2Proof
end

