-- ==== Sys2Proof/WellFormed.lean ====
section
/-! DEFINITION. Which operations a command word can hold (spec 30_encoding.md R100, R103, R110). -/

namespace Sys2Proof

/-- Whether a command word can hold an operation. The one operand whose type is wider than its field is the bit count
of `WRITE_BITS` and `READ_BITS`: "`n` can encode 0 to 15" (R103), and an assembler refuses `n > 15` (R110). Counts 0 and
9 to 15 are well formed: the operation itself rejects them (R107). -/
def Instr.wellFormed : Instr → Bool
  | .reset => true
  | .writeBit _ => true
  | .writeBits _ n _ => decide (n < 16)
  | .writeByte _ => true
  | .writeBytes _ => true
  | .readBit => true
  | .readBits n => decide (n < 16)
  | .readByte => true
  | .readBytes => true
  | .select => true
  | .skip => true
  | .resetSearch => true
  | .targetSearch _ => true
  | .search => true

/-- An operation a command word can hold. -/
abbrev Instr.WellFormed (i : Instr) : Prop := i.wellFormed = true

end Sys2Proof
end

