-- ==== Sys2Proof/Decode.lean ====
section
/-! DEFINITION. Decoding a command word, and encoding an operation back into one (spec 30_encoding.md R100 to R110). -/

namespace Sys2Proof

/-- Why a word is no operation (R105). -/
inductive IllegalWord where
  /-- `OPC` is 0x0 or 0xF. -/
  | reservedOpcode
  /-- A must-be-zero bit of the opcode is 1. -/
  | mustBeZero
deriving DecidableEq, Repr

/-- What a word decodes to: `Op | Illegal` (R106). -/
inductive Decoded where
  | op (i : Instr)
  | illegal (why : IllegalWord)
deriving DecidableEq, Repr

/-- One row of the opcode table: a word `w` is this operation when `(w & mask) == value` (R104). -/
structure Row where
  mask : Word
  value : Word
  op : Word → Instr

/-- The field `OPC` = `w[3:0]` (R100). -/
def opcField (w : Word) : BitVec 4 := w.extractLsb' 0 4

/-- The bit count `n` = `zext(w[7:4])` (R103). -/
def countField (w : Word) : Nat := (w.extractLsb' 4 4).toNat

/-- The power flag `pwr` = `w[8]` (R103). -/
def powerField (w : Word) : Bool := w.getLsbD 8

/-- The data byte or family code, `w[23:16]` (R103). -/
def imm8Field (w : Word) : Byte := w.extractLsb' 16 8

/-- The bit `v` = `w[16]` of `WRITE_BIT` (R103). -/
def bitField (w : Word) : Bool := w.getLsbD 16

/-- The rows of spec/opcode_table.json in the table's order, with their masks and match values (R102, R104). -/
def opcodeTable : List Row :=
  [ ⟨0xFFFFFFFF#32, 0x00000001#32, fun _ => .reset⟩,
    ⟨0xFFFEFFFF#32, 0x00000002#32, fun w => .writeBit (bitField w)⟩,
    ⟨0xFF00FE0F#32, 0x00000003#32, fun w => .writeBits (imm8Field w) (countField w) (powerField w)⟩,
    ⟨0xFF00FFFF#32, 0x00000004#32, fun w => .writeByte (imm8Field w)⟩,
    ⟨0xFFFFFEFF#32, 0x00000005#32, fun w => .writeBytes (powerField w)⟩,
    ⟨0xFFFFFFFF#32, 0x00000006#32, fun _ => .readBit⟩,
    ⟨0xFFFFFF0F#32, 0x00000007#32, fun w => .readBits (countField w)⟩,
    ⟨0xFFFFFFFF#32, 0x00000008#32, fun _ => .readByte⟩,
    ⟨0xFFFFFFFF#32, 0x00000009#32, fun _ => .readBytes⟩,
    ⟨0xFFFFFFFF#32, 0x0000000A#32, fun _ => .select⟩,
    ⟨0xFFFFFFFF#32, 0x0000000B#32, fun _ => .skip⟩,
    ⟨0xFFFFFFFF#32, 0x0000000C#32, fun _ => .resetSearch⟩,
    ⟨0xFF00FFFF#32, 0x0000000D#32, fun w => .targetSearch (imm8Field w)⟩,
    ⟨0xFFFFFFFF#32, 0x0000000E#32, fun _ => .search⟩ ]

/-- Whether a word is a row's operation: `(w & mask) == match` (R104). -/
def rowMatches (w : Word) (r : Row) : Bool := (w &&& r.mask) == r.value

/-- Which of R105's two reasons makes a word illegal. -/
def illegalReason (w : Word) : IllegalWord :=
  if opcField w = 0x0#4 ∨ opcField w = 0xF#4 then .reservedOpcode else .mustBeZero

/-- The decoder, total on 32-bit words (R106): the one row that matches gives the operation, no row means illegal. -/
def decode (w : Word) : Decoded :=
  match opcodeTable.find? (rowMatches w) with
  | some r => .op (r.op w)
  | none => .illegal (illegalReason w)

/-- The command word of an operation (R100, R110). -/
def encode : Instr → Word
  | .reset => 0x00000001#32
  | .writeBit v => ((BitVec.ofBool v).setWidth 32 <<< 16) ||| 0x2#32
  | .writeBits d n pwr =>
    (d.setWidth 32 <<< 16) ||| ((BitVec.ofBool pwr).setWidth 32 <<< 8)
      ||| ((BitVec.ofNat 4 n).setWidth 32 <<< 4) ||| 0x3#32
  | .writeByte d => (d.setWidth 32 <<< 16) ||| 0x4#32
  | .writeBytes pwr => ((BitVec.ofBool pwr).setWidth 32 <<< 8) ||| 0x5#32
  | .readBit => 0x00000006#32
  | .readBits n => ((BitVec.ofNat 4 n).setWidth 32 <<< 4) ||| 0x7#32
  | .readByte => 0x00000008#32
  | .readBytes => 0x00000009#32
  | .select => 0x0000000A#32
  | .skip => 0x0000000B#32
  | .resetSearch => 0x0000000C#32
  | .targetSearch f => (f.setWidth 32 <<< 16) ||| 0xD#32
  | .search => 0x0000000E#32

/-- The opcode of an operation (R102). -/
def opcode : Instr → BitVec 4
  | .reset => 0x1#4
  | .writeBit _ => 0x2#4
  | .writeBits _ _ _ => 0x3#4
  | .writeByte _ => 0x4#4
  | .writeBytes _ => 0x5#4
  | .readBit => 0x6#4
  | .readBits _ => 0x7#4
  | .readByte => 0x8#4
  | .readBytes => 0x9#4
  | .select => 0xA#4
  | .skip => 0xB#4
  | .resetSearch => 0xC#4
  | .targetSearch _ => 0xD#4
  | .search => 0xE#4

/-- The operation the decoder reads from an instruction whose bits are `w`, `nbits` of them given. A command is one
32-bit word, so bits above `nbits` are 0. -/
def decodeTableWord (nbits w : Nat) : Option Instr :=
  match decode (BitVec.ofNat 32 (w % 2 ^ nbits)) with
  | .op i => some i
  | .illegal _ => none

end Sys2Proof
end

