-- ==== Sys2Proof/Machine/State.lean ====
section
/-! DEFINITION. The state of one controller as plain data, what stops a step, and the state after block reset
(spec 10_state.md). -/

namespace Sys2Proof.Machine

/-- The four error kinds (60_exceptions.md R330). -/
inductive ErrKind where
  /-- "hardware transmit/receive failure", and a bit-read capture with too few low segments. -/
  | channelError
  /-- "no response within bound". -/
  | timeout
  /-- A bit group of 0 bits or of more than 8. -/
  | protocolViolation
  /-- A command word that does not decode. -/
  | illegalCommand
deriving DecidableEq, Repr

/-- Why the machine stops. -/
inductive Fault where
  /-- Raised by `WRITE_BYTES`, `READ_BYTES`, `SELECT` and `SEARCH` when their next buffer access is at `2^ADDR_W` or
  above: "the operation has no step: it is stuck" (20_memory.md R76, R77). SAFE: no claim about a completed operation
  holds for a run that cannot complete. -/
  | bufferNotAdmitted (addr : Nat)
  /-- Raised by a Host access to its own buffer memory outside `[0, 2^ADDR_W)`, where there is no byte (R74). SAFE. -/
  | hostBufferOutside (addr : Nat)
deriving DecidableEq, Repr

/-- What the model gives no meaning. -/
inductive Refusal where
  /-- Raised by an arm of `exec` whose instruction has no meaning yet. SAFE. -/
  | notModelled (mnemonic : String)
  /-- Raised by a Host register access that is not a whole 32-bit word, is misaligned, or lies at 0x40 or above: "A model
  must refuse such an access, not guess a value" (20_memory.md R72). SAFE. -/
  | registerAccess (offset size : Nat)
deriving DecidableEq, Repr

/-- The SearchState (10_state.md R31 to R35). -/
structure SearchState where
  /-- `ROM_NO[0..7]`, the 64-bit ROM code under construction (R31). -/
  romNo : Vector Byte 8
  /-- `LastDiscrepancy` (R33), held in 7 bits. -/
  ld : BitVec 7
  /-- `LastFamilyDiscrepancy` (R34), held in 4 bits. -/
  lfd : BitVec 4
  /-- `LastDeviceFlag` (R35). -/
  ldf : Bool
deriving DecidableEq, Repr

/-- The SearchState "created zeroed at bus construction" (R32, R58). -/
def SearchState.zero : SearchState where
  romNo := Vector.replicate 8 0x00#8
  ld := 0#7
  lfd := 0#4
  ldf := false

/-- The locals of a running search (R53, R54). -/
structure SearchLocals where
  idBitNumber : Nat
  lastZero : Nat
  idBit : Bool
  cmpIdBit : Bool
  direction : Bool
  romByteNumber : Nat
  romByteMask : Byte
deriving DecidableEq, Repr

/-- The locals before position 1 (43_search.md R292); a bit not read yet is held as 0. -/
def SearchLocals.start : SearchLocals where
  idBitNumber := 1
  lastZero := 0
  idBit := false
  cmpIdBit := false
  direction := false
  romByteNumber := 0
  romByteMask := 0x01#8

/-- The operand snapshot (R57): the command word, `BUF_ADDR.ADDR` and `BUF_LEN.LEN` when a command was accepted. -/
structure Snapshot where
  cmd : Word
  addr : Word
  len : BitVec 16
deriving DecidableEq, Repr

/-- The operation sequencer (R39): the current operation, the operand snapshot, and the locals of the running procedure
(the loop index of a multi-byte operation, the pulse-train buffer of R55, the search locals). -/
structure Sequencer where
  op : Option Instr
  snap : Snapshot
  index : Nat
  train : Train
  search : SearchLocals
deriving DecidableEq, Repr

/-- No current operation (R58). The parts besides `op` "hold no value between operations" (R39): the values here are
placeholders that no rule reads. DESIGN CHOICE (assumption 3). -/
def Sequencer.idle : Sequencer where
  op := none
  snap := ⟨0#32, 0#32, 0#16⟩
  index := 0
  train := []
  search := SearchLocals.start

/-- One access of the Host, the block's owner (00_scope.md R10, 20_memory.md R70): to the register space, to its own
buffer memory, or to the block's reset. -/
inductive HostAccess where
  /-- A write of `size` bytes at a register offset. -/
  | regWrite (offset size : Nat) (value : Word)
  /-- A read of `size` bytes at a register offset. -/
  | regRead (offset size : Nat)
  /-- A write of one byte of the host buffer memory. -/
  | bufWrite (addr : Nat) (value : Byte)
  /-- A read of one byte of the host buffer memory. -/
  | bufRead (addr : Nat)
  /-- Block reset (70_reset_and_hazards.md R370). -/
  | blockReset
deriving DecidableEq, Repr

/-- What a Host read returned. -/
inductive HostRead where
  | reg (offset : Nat) (value : Word)
  | buf (addr : Nat) (value : Byte)
deriving DecidableEq, Repr

/-- The host buffer memory as the cells that differ from what an unlisted address reads as, addresses rising. -/
abbrev Memory := List Host.Cell

/-- One controller, its channel's threshold setting, the host buffer, and the inputs still to come. -/
structure State where
  /-- The construction-time parameters (00_scope.md R13, R30): configuration that no step changes. -/
  params : Params
  /-- The SearchState (R31 to R35). -/
  search : SearchState
  /-- `STATUS.BUSY` (R42). -/
  busy : Bool
  /-- `STATUS.RESULT` (R42). -/
  result : Bool
  /-- `STATUS.ERR` (R42). -/
  err : BitVec 3
  /-- `RDATA.DATA` (R43). -/
  rdata : Byte
  /-- `BUF_ADDR` (R44). -/
  bufAddr : Word
  /-- `BUF_LEN.LEN` (R45). -/
  bufLen : BitVec 16
  /-- The driver mode `DRIVE` (R50): `true` is strong pull. -/
  drive : Bool
  /-- The operation sequencer (R39). -/
  seq : Sequencer
  /-- The host buffer memory (20_memory.md R74). -/
  mem : Memory
  /-- The channel's receive idle threshold (R52). -/
  idleThreshold : Nat
  /-- The Environment's answers to the transmits to come, the next one first (40_channel.md R161). -/
  txAnswers : List TxAnswer
  /-- The Environment's answers to the receives to come, the next one first (R161). -/
  rxAnswers : List RxAnswer
  /-- The Host's accesses to come, the next one first. -/
  host : List HostAccess
  /-- The event history (R162), oldest first. -/
  events : List Event
  /-- What the Host's reads returned, oldest first. -/
  hostReads : List HostRead
  /-- The model's own field: how many free values have been drawn. -/
  draws : Nat
deriving DecidableEq, Repr

/-- A controller constructed with parameters `p` (R58): every register at its reset value, nothing listed in memory, no
answer and no access placed. The idle threshold is "unspecified" (R52): the first free value. -/
def State.construct (p : Params) : State where
  params := p
  search := SearchState.zero
  busy := false
  result := false
  err := 0#3
  rdata := 0x00#8
  bufAddr := 0#32
  bufLen := 0#16
  drive := false
  seq := Sequencer.idle
  mem := []
  idleThreshold := Config.freeIdle 0
  txAnswers := []
  rxAnswers := []
  host := []
  events := []
  hostReads := []
  draws := 1

/-- The block right after block reset, with the default parameters (R58, R370). -/
def State.reset : State := State.construct Params.default

end Sys2Proof.Machine
end

