-- ==== Sys2Proof/Machine/Flags.lean ====
section
/-! DEFINITION. The STATUS codes and the register words the Host reads (spec 10_state.md R40 to R49, 60_exceptions.md
R331). -/

namespace Sys2Proof.Machine

/-- `STATUS.ERR` = `NONE` (R331). -/
def errNone : BitVec 3 := 0#3

/-- The code of an error kind (R331). -/
def errCode : ErrKind → BitVec 3
  | .channelError => 1#3
  | .timeout => 2#3
  | .protocolViolation => 3#3
  | .illegalCommand => 4#3

/-- A boolean as a register bit: 1 for true (00_scope.md R16). -/
def boolBit (b : Bool) : Word := (BitVec.ofBool b).setWidth 32

/-- `STATUS` (R42): `BUSY` in bit 0, `RESULT` in bit 1, `ERR` in bits 4 to 2, the rest 0. -/
def statusWord (s : State) : Word :=
  boolBit s.busy ||| (boolBit s.result <<< 1) ||| (s.err.setWidth 32 <<< 2)

/-- `RDATA` (R43): `DATA` in bits 7 to 0, the rest 0. -/
def rdataWord (s : State) : Word := s.rdata.setWidth 32

/-- The width mask of `BUF_ADDR`: bits at `ADDR_W` and above read 0 and ignore writes (R44). -/
def maskAddr (p : Params) (v : Word) : Word := BitVec.ofNat 32 (v.toNat % 2 ^ p.addrW)

/-- `BUF_ADDR` (R44). -/
def bufAddrWord (s : State) : Word := maskAddr s.params s.bufAddr

/-- `BUF_LEN` (R45): `LEN` in bits 15 to 0, the rest 0. -/
def bufLenWord (s : State) : Word := s.bufLen.setWidth 32

/-- `SSTATE` (R46): `LD` in bits 6 to 0, `LFD` in bits 11 to 8, `LDF` in bit 16, the rest 0. -/
def sstateWord (s : State) : Word :=
  s.search.ld.setWidth 32 ||| (s.search.lfd.setWidth 32 <<< 8) ||| (boolBit s.search.ldf <<< 16)

/-- `ROM_LO` (R47): `ROM_NO[0..3]` in little-endian byte lanes (20_memory.md R82). -/
def romLoWord (s : State) : Word :=
  s.search.romNo[3] ++ s.search.romNo[2] ++ s.search.romNo[1] ++ s.search.romNo[0]

/-- `ROM_HI` (R48): `ROM_NO[4..7]` in little-endian byte lanes (R82). -/
def romHiWord (s : State) : Word :=
  s.search.romNo[7] ++ s.search.romNo[6] ++ s.search.romNo[5] ++ s.search.romNo[4]

/-- `LINE` (R49): `DRIVE` in bit 0, the rest 0. -/
def lineWord (s : State) : Word := boolBit s.drive

end Sys2Proof.Machine
end

