-- ==== Sys2Proof/Machine/Memory.lean ====
section
/-! DEFINITION. The host buffer memory: one-byte reads and writes over the canonical list of cells
(spec 20_memory.md R74 to R78). -/

namespace Sys2Proof.Machine

/-- What an address with no cell reads as. The spec gives the memory no reset contents: DESIGN CHOICE (assumption 4),
UNSAFE for a claim that leans on the value. -/
def unlistedByte : Byte := 0x00#8

/-- The byte at an address. -/
def Memory.read : Memory → Nat → Byte
  | [], _ => unlistedByte
  | (k, v) :: m, a => if k = a then v else Memory.read m a

/-- The memory with the byte at an address replaced, in canonical form. -/
def Memory.write : Memory → Nat → Byte → Memory
  | [], a, b => if b = unlistedByte then [] else [(a, b)]
  | (k, v) :: m, a, b =>
    if a < k then (if b = unlistedByte then (k, v) :: m else (a, b) :: (k, v) :: m)
    else if a = k then (if b = unlistedByte then m else (a, b) :: m)
    else (k, v) :: Memory.write m a b

/-- Every address is above `lo`, addresses rise strictly, and no cell holds what an unlisted address reads as. -/
def Memory.wfAbove : Nat → Memory → Bool
  | _, [] => true
  | lo, (k, v) :: m => decide (lo ≤ k) && decide (v ≠ unlistedByte) && Memory.wfAbove (k + 1) m

/-- The canonical form of a memory. -/
def Memory.wf (m : Memory) : Bool := Memory.wfAbove 0 m

/-- Every listed address exists in a memory of `2^w` bytes (R74). -/
def Memory.below (w : Nat) (m : Memory) : Bool := m.all fun c => decide (c.1 < 2 ^ w)

end Sys2Proof.Machine
end

