-- ==== Sys2Proof/Machine/Operands.lean ====
section
/-! DEFINITION. The operand forms: bit groups, buffer operands and ROM code positions (spec 00_scope.md R19,
30_encoding.md R103, R109, 41_bit_byte_ops.md R205, 43_search.md R295, R298). -/

namespace Sys2Proof.Machine

/-- A bit group has between 1 and 8 bits (R205). -/
def groupOk (n : Nat) : Bool := decide (1 ≤ n) && decide (n ≤ maxBits)

/-- `zext_8(v)` of a bit (R103, R215, R297). -/
def zext8 (v : Bool) : Byte := (BitVec.ofBool v).setWidth 8

/-- Bits `d[n-1:0]` of a group, bit 0 first (20_memory.md R79). -/
def groupBits (d : Byte) (n : Nat) : List Bool := (List.range n).map fun i => d.getLsbD i

/-- The value of a group read, the first bit in bit 0 (R79). -/
def packBits : List Bool → Byte
  | [] => 0#8
  | b :: bs => (packBits bs <<< 1) ||| zext8 b

/-- The buffer address operand `A = snap.addr` (R109). -/
def operandA (s : State) : Nat := s.seq.snap.addr.toNat

/-- The buffer length operand `L = snap.len` (R109). -/
def operandL (s : State) : Nat := s.seq.snap.len.toNat

/-- A one-byte buffer access at `a` is admitted: there is no address at or above `2^ADDR_W`, and address arithmetic does
not wrap (20_memory.md R74 to R77). -/
def admitted (s : State) (a : Nat) : Bool := decide (a < 2 ^ s.params.addrW)

/-- The `n` one-byte accesses at `a`, `a + 1`, ... are all admitted. -/
def rangeAdmitted (s : State) (a n : Nat) : Bool := decide (a + n ≤ 2 ^ s.params.addrW)

/-- The first address of an ascending range from `a` that is not admitted, when the range holds one (R77, R78). -/
def firstRefused (s : State) (a : Nat) : Nat := max a (2 ^ s.params.addrW)

/-- `ROM_NO[k]` of a ROM code. No rule indexes it outside 0 to 7 (43_search.md R299). -/
def romByte (rom : Vector Byte 8) (k : Nat) : Byte := rom.toList.getD k 0x00#8

/-- Bit position `p` (1 to 64) of a ROM code: bit `(p-1) mod 8` of byte `(p-1) div 8` (R19). -/
def romBit (rom : Vector Byte 8) (p : Nat) : Bool := (romByte rom ((p - 1) / 8)).getLsbD ((p - 1) % 8)

/-- A ROM code's bits in the order they go on the wire: positions 1 to 64 (20_memory.md R80). -/
def romBitList (rom : Vector Byte 8) : List Bool := (List.range romBits).map fun i => romBit rom (i + 1)

/-- The ROM bit the mask selects in a byte (43_search.md R295). -/
def maskedBit (rom : Vector Byte 8) (k : Nat) (mask : Byte) : Bool := (romByte rom k &&& mask) != 0x00#8

/-- The ROM code with the masked bit of byte `k` set to `b` (43_search.md R298). -/
def setMaskedBit (rom : Vector Byte 8) (k : Nat) (mask : Byte) (b : Bool) : Vector Byte 8 :=
  rom.setIfInBounds k (if b then romByte rom k ||| mask else romByte rom k &&& ~~~mask)

/-- The ROM code at `a` to `a + 7` of the buffer, family code first (20_memory.md R81). -/
def romAt (m : Memory) (a : Nat) : List Byte := (List.range romBytes).map fun k => m.read (a + k)

end Sys2Proof.Machine
end

