-- ==== Sys2Proof/Machine/Ops.lean ====
section
/-! DEFINITION. The named updates of the state: accepting a command, ending an operation (`complete` and `raise`), the
registers an operation writes, free values, and the buffer accesses (spec 30_encoding.md R108, 60_exceptions.md R334 to
R336). The block has no trap: `raise` is what an error does, and nothing returns from it (R334, R339). -/

namespace Sys2Proof.Machine

/-- Accepting command word `w` (R108): the operands are latched, `BUSY` is set, `RESULT` and `ERR` are cleared. `op` is
what the word decodes to, none for an illegal word. -/
def accept (op : Option Instr) (w : Word) (s : State) : State :=
  { s with
    busy := true
    result := false
    err := errNone
    seq := { Sequencer.idle with op := op, snap := ⟨w, bufAddrWord s, s.bufLen⟩ } }

/-- `complete(RESULT = r, ERR = NONE)` (R336). -/
def complete (r : Bool) (s : State) : State :=
  { s with drive := false, result := r, err := errNone, seq := Sequencer.idle, busy := false }

/-- `raise k` (R335): the one way an error ends an operation. -/
def raise (k : ErrKind) (s : State) : State :=
  { s with drive := false, result := false, err := errCode k, seq := Sequencer.idle, busy := false }

/-- `RDATA <- zext_32(v)` (41_bit_byte_ops.md R235, R240, R245). -/
def setRdata (v : Byte) (s : State) : State := { s with rdata := v }

/-- The next free byte. -/
def freeByte (s : State) : Byte := Config.freeByte s.draws

/-- One free value has been drawn. -/
def drawn (s : State) : State := { s with draws := s.draws + 1 }

/-- `RDATA.DATA <- any` (R208). -/
def drawRdata (s : State) : State := drawn (setRdata (freeByte s) s)

/-- `MemWrite(a, 1, v)` (20_memory.md R74). -/
def memWrite (a : Nat) (v : Byte) (s : State) : State := { s with mem := s.mem.write a v }

/-- `MemWrite(a, 1, any)` (R208, 41_bit_byte_ops.md R250). -/
def drawMem (a : Nat) (s : State) : State := drawn (memWrite a (freeByte s) s)

/-- `ROM_NO[k]` to buffer address `a + k`, ascending (20_memory.md R78, 43_search.md R303). -/
def memWriteList : Nat → List Byte → State → State
  | _, [], s => s
  | a, b :: bs, s => memWriteList (a + 1) bs (memWrite a b s)

/-- The SearchState replaced. -/
def setSearch (x : SearchState) (s : State) : State := { s with search := x }

/-- The search locals replaced (R53, R54). -/
def setLocals (l : SearchLocals) (s : State) : State := { s with seq := { s.seq with search := l } }

/-- The loop index of a multi-byte operation, advanced (R39). -/
def nextIndex (s : State) : State := { s with seq := { s.seq with index := s.seq.index + 1 } }

/-- The driver mode set (10_state.md R50). -/
def setDrive (b : Bool) (s : State) : State := { s with drive := b }

/-- A train put into the pulse-train buffer (R55). -/
def loadTrain (t : Train) (s : State) : State := { s with seq := { s.seq with train := t } }

end Sys2Proof.Machine
end

