-- ==== Sys2Proof/Machine/Channel.lean ====
section
/-! DEFINITION. The wire encoding (spec 30_encoding.md R113 to R120), the receiver with its idle threshold (40_channel.md R154
to R156), the PulseChannel calls with the Environment's free answers (R150 to R162), and the two capture decoders (R170,
R171). -/

namespace Sys2Proof.Machine

/-- What a procedure returns (41_bit_byte_ops.md R202). -/
inductive Res (α : Type) where
  | ok (x : α)
  | fail (k : ErrKind)
deriving DecidableEq, Repr

/-- A segment of a train. -/
def pulse (l : Level) (d : Nat) : Item := .pulse ⟨l, d⟩

/-- `slot(v)` (R114): low for the short duration then high for the remainder if `v` = 1, low for the long duration then
high for the remainder if `v` = 0. -/
def slot (p : Params) (v : Bool) : Train :=
  if v then [pulse .low p.timing.tW1l, pulse .high p.timing.tW1h]
  else [pulse .low p.timing.tW0l, pulse .high p.timing.tW0h]

/-- `rslot` = `slot(1)` (R115). -/
def rslot (p : Params) : Train := slot p true

/-- `bitsTrain(d, n)` (R116). -/
def bitsTrain (p : Params) (d : Byte) (n : Nat) : Train := (groupBits d n).flatMap (slot p) ++ [.endMark]

/-- `readTrain(n)` (R116). -/
def readTrain (p : Params) (n : Nat) : Train := (List.replicate n (rslot p)).flatten ++ [.endMark]

/-- `resetTrain` (R118). -/
def resetTrain (p : Params) : Train := [pulse .low p.timing.tRstl, .endMark]

/-- SEARCH ROM, MATCH ROM and SKIP ROM (R120). -/
def cmdSearchRom : Byte := 0xF0#8
def cmdMatchRom : Byte := 0x55#8
def cmdSkipRom : Byte := 0xCC#8

/-- The segments of a train, without `END`. -/
def trainSegments : Train → List Segment
  | [] => []
  | .pulse g :: t => g :: trainSegments t
  | .endMark :: t => trainSegments t

/-- A train's items as R119 counts them: each slot (or the reset low) one item, and `END`. Every slot has one low
segment. -/
def itemCount : Train → Nat
  | [] => 0
  | .pulse ⟨.low, _⟩ :: t => itemCount t + 1
  | .pulse ⟨.high, _⟩ :: t => itemCount t
  | .endMark :: t => itemCount t + 1

/-- How long a list of segments lasts, in microseconds (70_reset_and_hazards.md R384). -/
def lasts (segs : List Segment) : Nat := (segs.map Segment.duration).sum

/-- The first `us` microseconds of a list of segments. -/
def firstUs : List Segment → Nat → List Segment
  | [], _ => []
  | g :: segs, us =>
    if us = 0 then []
    else if g.duration ≤ us then g :: firstUs segs (us - g.duration)
    else [⟨g.level, us⟩]

/-- What an event put on the line (R151, R152): the whole train on ok, and the part the answer names on err. -/
def carried : Event → List Segment
  | .transmit t _ .ok => trainSegments t
  | .transmit t _ (.err us) => firstUs (trainSegments t) us
  | .flush => []
  | .setIdle _ => []
  | .receive _ _ => []

/-- What the block has put on the line in a run (R91, R162). -/
def lineHistory (es : List Event) : List Segment := es.flatMap carried

/-- The form of a capture (R156): levels alternate, starting and ending low, and every segment lasts at least 1 µs. -/
def captureForm : Capture → Bool
  | [] => false
  | [⟨.low, d⟩] => decide (1 ≤ d)
  | ⟨.low, d⟩ :: ⟨.high, e⟩ :: c => decide (1 ≤ d) && decide (1 ≤ e) && captureForm c
  | _ => false

/-- Adjacent segments of equal level merged, a segment of no length dropped: the line between its edges (R156, R188). -/
def mergeSegments : List Segment → List Segment
  | [] => []
  | g :: rest =>
    if g.duration = 0 then mergeSegments rest
    else
      match mergeSegments rest with
      | [] => [g]
      | h :: more => if g.level = h.level then ⟨g.level, g.duration + h.duration⟩ :: more else g :: h :: more

/-- The final level-1 segment dropped: "The level-1 interval that ended the capture is not included" (R156). -/
def dropFinalHigh (c : List Segment) : Capture :=
  match c.getLast? with
  | some ⟨.high, _⟩ => c.dropLast
  | _ => c

/-- The captures the receiver completes over the line's segments from edge to edge, `c` being the capture in progress, []
when the line has been idle (R155): a falling edge of the idle line begins one, and a level 1 that lasts the idle
threshold ends it. After the last segment the line stays released, so a capture still in progress ends there too. -/
def capturesFrom (idle : Nat) : Capture → List Segment → List Capture
  | c, [] => if c.isEmpty then [] else [dropFinalHigh c]
  | c, g :: segs =>
    match g.level with
    | .low => capturesFrom idle (c ++ [g]) segs
    | .high =>
      if c.isEmpty then capturesFrom idle [] segs
      else if idle ≤ g.duration then c :: capturesFrom idle [] segs
      else capturesFrom idle (c ++ [g]) segs

/-- What the receiver makes of what an idle line carries (R155, R156). DESIGN CHOICE: the line is taken as idle before the
first segment and released after the last (assumption 24). -/
def capturesOf (idle : Nat) (segs : List Segment) : List Capture := capturesFrom idle [] (mergeSegments segs)

/-- The receiver under the threshold the block last set (R154, R155). -/
def hears (s : State) (segs : List Segment) : List Capture := capturesOf s.idleThreshold segs

/-- The receive idle threshold after some calls, `d` before them: "The setting stays until the next call" (R154). -/
def idleAfter (d : Nat) : List Event → Nat
  | [] => d
  | .setIdle e :: es => idleAfter e es
  | .flush :: es => idleAfter d es
  | .transmit _ _ _ :: es => idleAfter d es
  | .receive _ _ :: es => idleAfter d es

/-- An event appended to the history (R162). -/
def emit (e : Event) (s : State) : State := { s with events := s.events ++ [e] }

/-- `ch.flush()` (R157). The queue it empties is the Environment's (10_state.md R56). -/
def chFlush (s : State) : State := emit .flush s

/-- `ch.set_rx_idle_threshold(d)` (R154): "The setting stays until the next call". -/
def chSetIdle (d : Nat) (s : State) : State := emit (.setIdle d) { s with idleThreshold := d }

/-- The Environment's answer to a transmit made now: the next one in the state's list, or a free one (R161). -/
def txNow (s : State) : TxAnswer :=
  match s.txAnswers with
  | a :: _ => a
  | [] => Config.freeTx s.draws

/-- The Environment's answer to a receive made now (R161). -/
def rxNow (s : State) : RxAnswer :=
  match s.rxAnswers with
  | a :: _ => a
  | [] => Config.freeRx s.draws

/-- The transmit answer has been used. -/
def usedTx (s : State) : State :=
  { s with txAnswers := s.txAnswers.tail, draws := if s.txAnswers.isEmpty then s.draws + 1 else s.draws }

/-- The receive answer has been used. -/
def usedRx (s : State) : State :=
  { s with rxAnswers := s.rxAnswers.tail, draws := if s.rxAnswers.isEmpty then s.draws + 1 else s.draws }

/-- `ch.transmit(train)` of the train in the buffer, under the present `DRIVE`; its answer is `txNow` before it. -/
def chTransmit (s : State) : State := emit (.transmit s.seq.train s.drive (txNow s)) (usedTx s)

/-- `ch.receive(t)`; its answer is `rxNow` before it. -/
def chReceive (t : Nat) (s : State) : State := emit (.receive t (rxNow s)) (usedRx s)

/-- `decodePresence(c)` (R170). -/
def decodePresence (p : Params) : Capture → Bool
  | c0 :: c1 :: c2 :: _ =>
    decide (c0.level = .low) && decide (p.timing.tRstl - p.tRstTol ≤ c0.duration)
      && decide (c1.level = .high) && decide (c2.level = .low)
  | _ => false

/-- The durations of a capture's low segments, in capture order (R171). -/
def lows (c : Capture) : List Nat := (c.filter fun g => g.level = .low).map Segment.duration

/-- `decodeBits(c, n)` (R171): a low shorter than `T_RS` reads 1, and too few lows are a `ChannelError`. -/
def decodeBits (p : Params) (c : Capture) (n : Nat) : Res Byte :=
  if (lows c).length < n then .fail .channelError
  else .ok (packBits (((lows c).take n).map fun d => decide (d < p.timing.tRs)))

/-- `loop(t)` (R172): a train without `END`, and without its last segment when that segment is high. -/
def loopCapture (t : Train) : Capture := dropFinalHigh (trainSegments t)

end Sys2Proof.Machine
end

