-- ==== Sys2Proof/Machine/Procedures.lean ====
section
/-! DEFINITION. The three internal procedures every bus operation is built from, and how an operation ends on what they
return (spec 41_bit_byte_ops.md R200 to R208). -/

namespace Sys2Proof.Machine

/-- A transmit's answer as an outcome. -/
def txResult : TxAnswer → Res Unit
  | .ok => .ok ()
  | .err _ => .fail .channelError

/-- The burst of a write group: strong pull if asked for, one transmit, back to open drain on ok and on err (R203). -/
def writeBurst (d : Byte) (n : Nat) (pwr : Bool) (s : State) : State :=
  let s1 := loadTrain (bitsTrain s.params d n) s
  let s2 := if pwr then setDrive true s1 else s1
  setDrive false (chTransmit s2)

/-- `WRITE_P(d, n, pwr)` (R203). -/
def writeP (d : Byte) (n : Nat) (pwr : Bool) (s : State) : Res Unit × State :=
  if groupOk n then (txResult (txNow s), writeBurst d n pwr s)
  else (.fail .protocolViolation, s)

/-- A receiving procedure up to its transmit: flush, threshold, transmit (R204, R206). -/
def receiveBurst (idle : Nat) (t : Train) (s : State) : State :=
  chTransmit (loadTrain t (chSetIdle idle (chFlush s)))

/-- A receiving procedure: when the transmit answers ok, the receive and what its capture decodes to (R204, R206). -/
def receiveP (idle timeout : Nat) (t : Train) (decoded : Capture → Res α) (s : State) : Res α × State :=
  match txNow s with
  | .err _ => (.fail .channelError, receiveBurst idle t s)
  | .ok =>
    match rxNow (receiveBurst idle t s) with
    | .timeout => (.fail .timeout, chReceive timeout (receiveBurst idle t s))
    | .err => (.fail .channelError, chReceive timeout (receiveBurst idle t s))
    | .capture c => (decoded c, chReceive timeout (receiveBurst idle t s))

/-- `READ_P(n)` (R204). -/
def readP (n : Nat) (s : State) : Res Byte × State :=
  if groupOk n then
    receiveP s.params.tIdleSlot s.params.tToRead (readTrain s.params n) (fun c => decodeBits s.params c n) s
  else (.fail .protocolViolation, s)

/-- `RESET_P()` (R206). -/
def resetP (s : State) : Res Bool × State :=
  receiveP s.params.tIdleRst s.params.tToReset (resetTrain s.params) (fun c => .ok (decodePresence s.params c)) s

/-- The end of `RESET` (R210): `RESULT` is the presence decoded. -/
def endPresence : Res Bool × State → State
  | (.ok present, s) => complete present s
  | (.fail k, s) => raise k s

/-- The end of an operation whose boolean is that it completed (60_exceptions.md R332). -/
def endWrite : Res Unit × State → State
  | (.ok _, s) => complete true s
  | (.fail k, s) => raise k s

/-- The end of a read of one group (R235, R240, R245): the value in `RDATA`, or any value after a failure (R208). -/
def endRead : Res Byte × State → State
  | (.ok v, s) => complete true (setRdata v s)
  | (.fail k, s) => raise k (drawRdata s)

/-- Bytes written one group each, stopping at the first failing group (R207). -/
def writeList : List Byte → State → Res Unit × State
  | [], s => (.ok (), s)
  | b :: bs, s =>
    match writeP b 8 false s with
    | (.ok _, s1) => writeList bs s1
    | (.fail k, s1) => (.fail k, s1)

end Sys2Proof.Machine
end

