-- ==== Sys2Proof/Machine/BitByte.lean ====
section
/-! DEFINITION. The meanings of the reset, bit and byte operations (spec 41_bit_byte_ops.md R210 to R250). Each starts
with the acceptance of its command word (30_encoding.md R108) and ends with `complete` or `raise`. -/

namespace Sys2Proof.Machine

/-- What a meaning answers. -/
abbrev Answer := Host.Outcome State Fault Refusal

/-- The state in which an operation runs: its command word accepted (R108). -/
def start (i : Instr) (s : State) : State := accept (some i) (encode i) s

/-- `RESET` (R210). -/
def execReset (s : State) : Answer := .next (endPresence (resetP (start .reset s)))

/-- `WRITE_BIT` (R215). -/
def execWriteBit (v : Bool) (s : State) : Answer :=
  .next (endWrite (writeP (zext8 v) 1 false (start (.writeBit v) s)))

/-- `WRITE_BITS` (R220). -/
def execWriteBits (d : Byte) (n : Nat) (pwr : Bool) (s : State) : Answer :=
  .next (endWrite (writeP d n pwr (start (.writeBits d n pwr) s)))

/-- `WRITE_BYTE` (R225). -/
def execWriteByte (d : Byte) (s : State) : Answer :=
  .next (endWrite (writeP d 8 false (start (.writeByte d) s)))

/-- The loop of `WRITE_BYTES` over the `k` bytes left (R230): each byte is read from `A + i` just before it is sent. -/
def writeBytesLoop (pwr : Bool) : Nat → State → Answer
  | 0, s => .next (complete true s)
  | k + 1, s =>
    if admitted s (operandA s + s.seq.index) then
      match writeP (s.mem.read (operandA s + s.seq.index)) 8 pwr s with
      | (.ok _, s1) => writeBytesLoop pwr k (nextIndex s1)
      | (.fail e, s1) => .next (raise e s1)
    else .fault (.bufferNotAdmitted (operandA s + s.seq.index))

/-- `WRITE_BYTES` (R230). -/
def execWriteBytes (pwr : Bool) (s : State) : Answer :=
  writeBytesLoop pwr (operandL (start (.writeBytes pwr) s)) (start (.writeBytes pwr) s)

/-- `READ_BIT` (R235). -/
def execReadBit (s : State) : Answer := .next (endRead (readP 1 (start .readBit s)))

/-- `READ_BITS` (R240). -/
def execReadBits (n : Nat) (s : State) : Answer := .next (endRead (readP n (start (.readBits n) s)))

/-- `READ_BYTE` (R245). -/
def execReadByte (s : State) : Answer := .next (endRead (readP 8 (start .readByte s)))

/-- The loop of `READ_BYTES` over the `k` bytes left (R250): the byte read, or any value for the failing byte (R208), goes
to `A + i`. -/
def readBytesLoop : Nat → State → Answer
  | 0, s => .next (complete true s)
  | k + 1, s =>
    match readP 8 s with
    | (.ok v, s1) =>
      if admitted s1 (operandA s1 + s1.seq.index) then
        readBytesLoop k (nextIndex (memWrite (operandA s1 + s1.seq.index) v s1))
      else .fault (.bufferNotAdmitted (operandA s1 + s1.seq.index))
    | (.fail e, s1) =>
      if admitted s1 (operandA s1 + s1.seq.index) then
        .next (raise e (drawMem (operandA s1 + s1.seq.index) s1))
      else .fault (.bufferNotAdmitted (operandA s1 + s1.seq.index))

/-- `READ_BYTES` (R250). -/
def execReadBytes (s : State) : Answer :=
  readBytesLoop (operandL (start .readBytes s)) (start .readBytes s)

end Sys2Proof.Machine
end

