-- ==== Sys2Proof/Machine/Rom.lean ====
section
/-! DEFINITION. The meanings of the ROM addressing operations (spec 42_rom_commands.md R260, R265). -/

namespace Sys2Proof.Machine

/-- `SELECT` (R260): the eight ROM bytes are read before the first transmit, then MATCH ROM and they are written. -/
def execSelect (s : State) : Answer :=
  let s1 := start .select s
  if rangeAdmitted s1 (operandA s1) romBytes then
    .next (endWrite (writeList (cmdMatchRom :: romAt s1.mem (operandA s1)) s1))
  else .fault (.bufferNotAdmitted (firstRefused s1 (operandA s1)))

/-- `SKIP` (R265). -/
def execSkip (s : State) : Answer := .next (endWrite (writeP cmdSkipRom 8 false (start .skip s)))

end Sys2Proof.Machine
end

