-- ==== Sys2Proof/Machine/Search.lean ====
section
/-! DEFINITION. The meanings of the ROM search operations (spec 43_search.md R280 to R305). -/

namespace Sys2Proof.Machine

/-- The SearchState `TARGET_SEARCH` seeds (R285). -/
def targetSeed (f : Byte) : SearchState where
  romNo := #v[f, 0x00#8, 0x00#8, 0x00#8, 0x00#8, 0x00#8, 0x00#8, 0x00#8]
  ld := 64#7
  lfd := 0#4
  ldf := false

/-- `RESET_SEARCH` (R280). -/
def execResetSearch (s : State) : Answer :=
  .next (complete true (setSearch SearchState.zero (start .resetSearch s)))

/-- `TARGET_SEARCH` (R285). -/
def execTargetSearch (f : Byte) (s : State) : Answer :=
  .next (complete true (setSearch (targetSeed f) (start (.targetSearch f) s)))

/-- How a walk that used the bus ends. -/
inductive SearchEnd where
  /-- A device was found (R303). -/
  | found
  /-- The failure path with no error kind (R302): no presence, a (1,1) pair, or family byte 0. -/
  | notFound
  /-- The failure path with an error kind (R302, R305). -/
  | failed (k : ErrKind)
deriving DecidableEq, Repr

/-- The direction at a discrepancy (R295): replay below `LD`, 1 at `LD`, 0 above. -/
def branchDirection (x : SearchState) (l : SearchLocals) : Bool :=
  if l.idBitNumber < x.ld.toNat then maskedBit x.romNo l.romByteNumber l.romByteMask
  else decide (l.idBitNumber = x.ld.toNat)

/-- The direction at a position whose pair has been read and is not (1,1) (R294, R295). -/
def chooseDirection (x : SearchState) (l : SearchLocals) : Bool :=
  if l.idBit != l.cmpIdBit then l.idBit else branchDirection x l

/-- A discrepancy given direction 0 is recorded (R296). -/
def recordsZero (l : SearchLocals) : Bool := l.idBit == l.cmpIdBit && !l.direction

/-- `last_zero <- p` when a zero branch is recorded (R296). -/
def recordLocals (l : SearchLocals) : SearchLocals :=
  if recordsZero l then { l with lastZero := l.idBitNumber } else l

/-- `LFD <- p` when a zero branch is recorded inside the family byte (R296). -/
def recordFamily (l : SearchLocals) (x : SearchState) : SearchState :=
  if recordsZero l && decide (l.idBitNumber < 9) then { x with lfd := BitVec.ofNat 4 l.idBitNumber } else x

/-- The bit of `ROM_NO` at the present position takes the direction (R298). -/
def updateRom (l : SearchLocals) (x : SearchState) : SearchState :=
  { x with romNo := setMaskedBit x.romNo l.romByteNumber l.romByteMask l.direction }

/-- The advance to the next position (R298). -/
def advance (l : SearchLocals) : SearchLocals :=
  if l.romByteMask <<< 1 = 0x00#8 then
    { l with idBitNumber := l.idBitNumber + 1, romByteNumber := l.romByteNumber + 1, romByteMask := 0x01#8 }
  else { l with idBitNumber := l.idBitNumber + 1, romByteMask := l.romByteMask <<< 1 }

/-- The locals after a pair `v` was read: the first slot is the id bit, the second its complement (R293), and the
direction chosen from them (R294, R295). -/
def withPair (v : Byte) (x : SearchState) (l : SearchLocals) : SearchLocals :=
  let l1 := { l with idBit := v.getLsbD 0, cmpIdBit := v.getLsbD 1 }
  { l1 with direction := chooseDirection x l1 }

/-- The state after a pair was read and is not (1,1): direction chosen and zero branch recorded (R293 to R296). -/
def afterPair (v : Byte) (s : State) : State :=
  let l := withPair v s.search s.seq.search
  setSearch (recordFamily l s.search) (setLocals (recordLocals l) s)

/-- The state after the direction was written: `ROM_NO` updated and the position advanced (R298). -/
def afterDirection (s : State) : State :=
  setLocals (advance s.seq.search) (setSearch (updateRom s.seq.search s.search) s)

/-- One position of the walk (R293 to R298): `none` when the walk goes on. -/
def searchPosition (s : State) : Option SearchEnd × State :=
  match readP 2 s with
  | (.fail k, s1) => (some (.failed k), s1)
  | (.ok v, s1) =>
    if v.getLsbD 0 && v.getLsbD 1 then (some .notFound, s1)
    else
      match writeP (zext8 (afterPair v s1).seq.search.direction) 1 false (afterPair v s1) with
      | (.fail k, s2) => (some (.failed k), s2)
      | (.ok _, s2) => (none, afterDirection s2)

/-- The walk over the `k` positions left (R299): "The walk ends after position 64". -/
def searchWalk : Nat → State → Option SearchEnd × State
  | 0, s => (none, s)
  | k + 1, s =>
    match searchPosition s with
    | (some e, s1) => (some e, s1)
    | (none, s1) => searchWalk k s1

/-- `LD <- last_zero`, and `LDF <- 1` if `LD` = 0 (R300). -/
def bookkeeping (s : State) : State :=
  setSearch
    { s.search with
      ld := BitVec.ofNat 7 s.seq.search.lastZero
      ldf := if s.seq.search.lastZero = 0 then true else s.search.ldf } s

/-- A whole walk with its end (R292 to R301). -/
def searchTree (s : State) : SearchEnd × State :=
  match searchWalk romBits (setLocals SearchLocals.start s) with
  | (some e, s1) => (e, s1)
  | (none, s1) => (if romByte s1.search.romNo 0 = 0x00#8 then .notFound else .found, bookkeeping s1)

/-- The bus preamble and the walk (R291). -/
def searchBus (s : State) : SearchEnd × State :=
  match resetP s with
  | (.fail k, s1) => (.failed k, s1)
  | (.ok false, s1) => (.notFound, s1)
  | (.ok true, s1) =>
    match writeP cmdSearchRom 8 false s1 with
    | (.fail k, s2) => (.failed k, s2)
    | (.ok _, s2) => searchTree s2

/-- Eight free bytes for `ROM_NO` (R302). -/
def freeRom (s : State) : Vector Byte 8 :=
  #v[Config.freeByte s.draws, Config.freeByte (s.draws + 1), Config.freeByte (s.draws + 2),
    Config.freeByte (s.draws + 3), Config.freeByte (s.draws + 4), Config.freeByte (s.draws + 5),
    Config.freeByte (s.draws + 6), Config.freeByte (s.draws + 7)]

/-- The SearchState of the failure path: `LD`, `LFD` and `LDF` are 0 and `ROM_NO` holds any value (R302). -/
def searchClear (s : State) : State :=
  { s with search := ⟨freeRom s, 0#7, 0#4, false⟩, draws := s.draws + 8 }

/-- The end of a search that used the bus (R302, R303). -/
def endSearch : SearchEnd × State → State
  | (.found, s) => complete true (memWriteList (operandA s) s.search.romNo.toList s)
  | (.notFound, s) => complete false (searchClear s)
  | (.failed k, s) => raise k (searchClear s)

/-- `SEARCH` (R304). With `LDF` = 1 it completes at once (R290). The eight buffer accesses of a found ROM must be admitted,
or the operation is stuck (20_memory.md R76). -/
def execSearch (s : State) : Answer :=
  let s1 := start .search s
  if s1.search.ldf then .next (complete false s1)
  else if rangeAdmitted s1 (operandA s1) romBytes then .next (endSearch (searchBus s1))
  else
    match searchBus s1 with
    | (.found, _) => .fault (.bufferNotAdmitted (firstRefused s1 (operandA s1)))
    | (.notFound, s2) => .next (endSearch (.notFound, s2))
    | (.failed k, s2) => .next (endSearch (.failed k, s2))

end Sys2Proof.Machine
end

