-- ==== Sys2Proof/Machine/Dispatch.lean ====
section
/-! DEFINITION. The meaning of each operation of spec/opcode_table.json, one arm per constructor of `Instr`. -/

namespace Sys2Proof.Machine

def exec (i : Instr) (s : State) : Host.Outcome State Fault Refusal :=
  match i with
  | .reset => Sys2Proof.Machine.execReset s
  | .writeBit v => Sys2Proof.Machine.execWriteBit v s
  | .writeBits d n pwr => Sys2Proof.Machine.execWriteBits d n pwr s
  | .writeByte d => Sys2Proof.Machine.execWriteByte d s
  | .writeBytes pwr => Sys2Proof.Machine.execWriteBytes pwr s
  | .readBit => Sys2Proof.Machine.execReadBit s
  | .readBits n => Sys2Proof.Machine.execReadBits n s
  | .readByte => Sys2Proof.Machine.execReadByte s
  | .readBytes => Sys2Proof.Machine.execReadBytes s
  | .select => Sys2Proof.Machine.execSelect s
  | .skip => Sys2Proof.Machine.execSkip s
  | .resetSearch => Sys2Proof.Machine.execResetSearch s
  | .targetSearch f => Sys2Proof.Machine.execTargetSearch f s
  | .search => Sys2Proof.Machine.execSearch s

end Sys2Proof.Machine
end

