-- ==== Sys2Proof/Machine/HostPort.lean ====
section
/-! DEFINITION. The Host's side of the block: the register space, the command register, the buffer memory as the Host
sees it, and block reset (spec 10_state.md R40 to R51, 20_memory.md R70 to R74, 30_encoding.md R108,
70_reset_and_hazards.md R370). -/

namespace Sys2Proof.Machine

/-- A Host register access the block gives a meaning: a whole 32-bit word at a multiple of 4 in [0x00, 0x3C]
(20_memory.md R72). -/
def accessOk (offset size : Nat) : Bool :=
  decide (size = 4) && decide (offset % 4 = 0) && decide (offset < 0x40)

/-- A data register holds any value while an operation runs (10_state.md R42). -/
def whenIdle (s : State) (v : Word) : Word := if s.busy then Config.freeWord s.draws else v

/-- The word a register offset reads as (R40 to R51). `CMD` and the reserved offsets read 0. -/
def regValue (offset : Nat) (s : State) : Word :=
  match offset with
  | 0x04 => statusWord s
  | 0x08 => whenIdle s (rdataWord s)
  | 0x0C => bufAddrWord s
  | 0x10 => bufLenWord s
  | 0x14 => whenIdle s (sstateWord s)
  | 0x18 => whenIdle s (romLoWord s)
  | 0x1C => whenIdle s (romHiWord s)
  | 0x20 => whenIdle s (lineWord s)
  | _ => 0#32

/-- A command word written to `CMD` (R41, 30_encoding.md R108): ignored while `BUSY` = 1; else accepted, and the operation
it decodes to runs to its end, or an illegal word ends at once with `ILLEGAL` (R105). -/
def runCommand (w : Word) (s : State) : Answer :=
  if s.busy then .next s
  else
    match decode w with
    | .op i => exec i s
    | .illegal _ => .next (raise .illegalCommand (accept none w s))

/-- `BUF_ADDR` written: bits at `ADDR_W` and above ignore the write, and so does all of it while `BUSY` = 1 (R44). -/
def setBufAddr (v : Word) (s : State) : State := if s.busy then s else { s with bufAddr := maskAddr s.params v }

/-- `BUF_LEN` written: bits 31 to 16 ignore the write, and so does all of it while `BUSY` = 1 (R45). -/
def setBufLen (v : Word) (s : State) : State := if s.busy then s else { s with bufLen := v.setWidth 16 }

/-- A register written (R40): `CMD`, `BUF_ADDR` and `BUF_LEN` take the write, every other register ignores it. -/
def regWrite (offset : Nat) (v : Word) (s : State) : Answer :=
  match offset with
  | 0x00 => runCommand v s
  | 0x0C => .next (setBufAddr v s)
  | 0x10 => .next (setBufLen v s)
  | _ => .next s

/-- What a Host read returned, appended to the record of reads. -/
def recordRead (r : HostRead) (s : State) : State := { s with hostReads := s.hostReads ++ [r] }

/-- A register read (R40, R73): no side effect on the block. While `BUSY` = 1 the value may be free (R42), and the next
read draws anew. -/
def regRead (offset : Nat) (s : State) : State :=
  let t := recordRead (.reg offset (regValue offset s)) s
  if s.busy then drawn t else t

/-- Block reset (70_reset_and_hazards.md R370): every piece of the block's state at the value of 10_state.md R58. What is
not the block's stays: its construction parameters, the Host's memory and accesses, the Environment's answers, and the
history of the run ("the effects the operation made before the reset stay made", R371). -/
def blockReset (s : State) : State :=
  { State.construct s.params with
    mem := s.mem
    idleThreshold := Config.freeIdle s.draws
    txAnswers := s.txAnswers
    rxAnswers := s.rxAnswers
    host := s.host
    events := s.events
    hostReads := s.hostReads
    draws := s.draws + 1 }

/-- One access of the Host. -/
def hostAccess (a : HostAccess) (s : State) : Answer :=
  match a with
  | .regWrite offset size v =>
    if accessOk offset size then regWrite offset v s else .refused (.registerAccess offset size)
  | .regRead offset size =>
    if accessOk offset size then .next (regRead offset s) else .refused (.registerAccess offset size)
  | .bufWrite addr v =>
    if admitted s addr then .next (memWrite addr v s) else .fault (.hostBufferOutside addr)
  | .bufRead addr =>
    if admitted s addr then .next (recordRead (.buf addr (s.mem.read addr)) s) else .fault (.hostBufferOutside addr)
  | .blockReset => .next (blockReset s)

/-- One step of the controller with its Host: the next access, or nothing when the Host makes none ("Between operations
it is idle ... and its state is held", 60_exceptions.md R347). -/
def hostStep (s : State) : Answer :=
  match s.host with
  | [] => .next s
  | a :: rest => hostAccess a { s with host := rest }

/-- The Host's next access is a write of this word to `CMD`, with no operation running. -/
def placeCommand (w : Word) (s : State) : State :=
  { s with busy := false, host := .regWrite 0x00 4 w :: s.host }

end Sys2Proof.Machine
end

