-- ==== Sys2Proof/Machine/Step.lean ====
section
/-! DEFINITION. One step of the machine: the Host's next access (spec 00_scope.md R10, R11). -/

namespace Sys2Proof.Machine

/-- One step (R11): each operation is one transition, from the acceptance of its command word to its end. -/
def step (s : State) : Host.Outcome State Fault Refusal := hostStep s

/-- The state in which the next step runs the command word `w`, of which the low `nbits` bits are given. -/
def State.withFetchWord (s : State) (nbits w : Nat) : State :=
  placeCommand (BitVec.ofNat 32 (w % 2 ^ nbits)) s

end Sys2Proof.Machine
end

