-- ==== Sys2Proof/Machine/Assembler.lean ====
section
/-! DEFINITION. The assembly syntax of host programs: one line per command or host access (spec 30_encoding.md R110,
R111). -/

namespace Sys2Proof.Machine

/-- The registers of a `get` line (10_state.md R40). -/
inductive RegName where
  | cmd
  | status
  | rdata
  | bufAddr
  | bufLen
  | sstate
  | romLo
  | romHi
  | line
deriving DecidableEq, Repr

/-- The offset of a register (R40). -/
def regOffset : RegName → Nat
  | .cmd => 0x00
  | .status => 0x04
  | .rdata => 0x08
  | .bufAddr => 0x0C
  | .bufLen => 0x10
  | .sstate => 0x14
  | .romLo => 0x18
  | .romHi => 0x1C
  | .line => 0x20

/-- One line of a program, with its operands as the numbers written (R110, R111). -/
inductive AsmLine where
  | reset
  | writeBit (v : Nat)
  | writeBits (d n : Nat) (power : Bool)
  | writeByte (d : Nat)
  | writeBytes (power : Bool)
  | readBit
  | readBits (n : Nat)
  | readByte
  | readBytes
  | select
  | skip
  | resetSearch
  | targetSearch (f : Nat)
  | search
  | set (reg : RegName) (value : Nat)
  | get (reg : RegName)
deriving DecidableEq, Repr

/-- The word of a line whose operands are in range, none for a line an assembler refuses: `v > 1`, `d > 0xFF`,
`f > 0xFF` or `n > 15` (R110). -/
def wordIf (inRange : Bool) (w : Nat) : Option HostAccess :=
  if inRange then some (.regWrite 0x00 4 (BitVec.ofNat 32 w)) else none

/-- The host access a line stands for (R110, R111): an operation line is a write of its command word to `CMD`, `set` a
32-bit write to `BUF_ADDR` or `BUF_LEN`, `get` a 32-bit read. -/
def assemble : AsmLine → Option HostAccess
  | .reset => wordIf true 0x1
  | .writeBit v => wordIf (decide (v ≤ 1)) ((v <<< 16) ||| 0x2)
  | .writeBits d n power =>
    wordIf (decide (d ≤ 0xFF) && decide (n ≤ 15)) ((d <<< 16) ||| (power.toNat <<< 8) ||| (n <<< 4) ||| 0x3)
  | .writeByte d => wordIf (decide (d ≤ 0xFF)) ((d <<< 16) ||| 0x4)
  | .writeBytes power => wordIf true ((power.toNat <<< 8) ||| 0x5)
  | .readBit => wordIf true 0x6
  | .readBits n => wordIf (decide (n ≤ 15)) ((n <<< 4) ||| 0x7)
  | .readByte => wordIf true 0x8
  | .readBytes => wordIf true 0x9
  | .select => wordIf true 0xA
  | .skip => wordIf true 0xB
  | .resetSearch => wordIf true 0xC
  | .targetSearch f => wordIf (decide (f ≤ 0xFF)) ((f <<< 16) ||| 0xD)
  | .search => wordIf true 0xE
  | .set .bufAddr v => if v < 2 ^ 32 then some (.regWrite 0x0C 4 (BitVec.ofNat 32 v)) else none
  | .set .bufLen v => if v < 2 ^ 32 then some (.regWrite 0x10 4 (BitVec.ofNat 32 v)) else none
  | .set _ _ => none
  | .get r => some (.regRead (regOffset r) 4)

/-- The value of a digit below `base`. -/
def digitValue (base : Nat) (c : Char) : Option Nat :=
  let n := c.toNat
  let v := if 48 ≤ n ∧ n ≤ 57 then some (n - 48)
    else if 97 ≤ n ∧ n ≤ 102 then some (n - 87)
    else if 65 ≤ n ∧ n ≤ 70 then some (n - 55)
    else none
  match v with
  | some d => if d < base then some d else none
  | none => none

/-- A non-empty run of digits in a base, most significant first. -/
def digitsValue (base : Nat) : List Char → Option Nat → Option Nat
  | [], acc => acc
  | c :: cs, acc =>
    match digitValue base c with
    | some d => digitsValue base cs (some (acc.getD 0 * base + d))
    | none => none

/-- "Numbers are decimal or `0x` hexadecimal" (R110). -/
def numberOf : List Char → Option Nat
  | '0' :: 'x' :: cs => digitsValue 16 cs none
  | cs => digitsValue 10 cs none

/-- A blank between words. -/
def isBlank (c : Char) : Bool := c == ' ' || c == '\t'

/-- The text before the comment: "`;` starts a comment" (R110). -/
def beforeComment (cs : List Char) : List Char := cs.takeWhile fun c => c != ';'

/-- A text without the blanks at its ends. -/
def trimBlanks (cs : List Char) : List Char :=
  (((cs.dropWhile isBlank).reverse).dropWhile isBlank).reverse

/-- A text cut at its commas, each piece trimmed. -/
def commaPieces : List Char → List Char → List (List Char)
  | [], cur => [trimBlanks cur.reverse]
  | c :: cs, cur => if c == ',' then trimBlanks cur.reverse :: commaPieces cs [] else commaPieces cs (c :: cur)

/-- The register names of `set` and `get` lines. -/
def regNames : List (List Char × RegName) :=
  [ ("CMD".toList, .cmd), ("STATUS".toList, .status), ("RDATA".toList, .rdata),
    ("BUF_ADDR".toList, .bufAddr), ("BUF_LEN".toList, .bufLen),
    ("SSTATE".toList, .sstate), ("ROM_LO".toList, .romLo),
    ("ROM_HI".toList, .romHi), ("LINE".toList, .line) ]

/-- The register a name stands for. -/
def regNamed (cs : List Char) : Option RegName := (regNames.find? fun r => r.1 == cs).map Prod.snd

/-- The shape of each mnemonic's operand list (R110). -/
inductive Form where
  | plain (line : AsmLine)
  | number (build : Nat → AsmLine)
  | bits
  | maybePower
  | setReg
  | getReg

/-- The mnemonics, "the source's operation names in lower case" (R110), with `set` and `get` (R111). -/
def mnemonicForms : List (List Char × Form) :=
  [ ("reset".toList, .plain .reset),
    ("write_bit".toList, .number .writeBit),
    ("write_bits".toList, .bits),
    ("write_byte".toList, .number .writeByte),
    ("write_bytes".toList, .maybePower),
    ("read_bit".toList, .plain .readBit),
    ("read_bits".toList, .number .readBits),
    ("read_byte".toList, .plain .readByte),
    ("read_bytes".toList, .plain .readBytes),
    ("select".toList, .plain .select),
    ("skip".toList, .plain .skip),
    ("reset_search".toList, .plain .resetSearch),
    ("target_search".toList, .number .targetSearch),
    ("search".toList, .plain .search),
    ("set".toList, .setReg),
    ("get".toList, .getReg) ]

/-- The word `power` that ends a powered line (R110). -/
def powerWord : List Char := "power".toList

/-- A line built from the pieces after its mnemonic. -/
def lineOf (f : Form) (args : List (List Char)) : Option AsmLine :=
  match f, args with
  | .plain l, [[]] => some l
  | .number build, [a] => (numberOf a).map build
  | .bits, [d, n] =>
    match numberOf d, numberOf n with
    | some d, some n => some (.writeBits d n false)
    | _, _ => none
  | .bits, [d, n, w] =>
    match numberOf d, numberOf n, w == powerWord with
    | some d, some n, true => some (.writeBits d n true)
    | _, _, _ => none
  | .maybePower, [a] =>
    if a == [] then some (.writeBytes false) else if a == powerWord then some (.writeBytes true) else none
  | .setReg, [r, v] =>
    match regNamed r, numberOf v with
    | some r, some v => some (.set r v)
    | _, _ => none
  | .getReg, [r] => (regNamed r).map .get
  | _, _ => none

/-- One line of program text read as a line (R110, R111). -/
def parseLine (text : List Char) : Option AsmLine :=
  let body := trimBlanks (beforeComment text)
  let mnemonic := body.takeWhile fun c => !isBlank c
  let rest := body.dropWhile fun c => !isBlank c
  match mnemonicForms.find? fun f => f.1 == mnemonic with
  | some f => lineOf f.2 (commaPieces rest [])
  | none => none

end Sys2Proof.Machine
end

