-- ==== Sys2Proof/Machine/RefBus.lean ====
section
/-! DEFINITION. The reference bus of spec 40_channel.md section 3 (R180 to R189): one Environment, used to state
properties of searches and reads. It is NOT part of the block and no step uses it (R161): a claim about a well-behaved bus
takes `busRun` on the events of a run as its premise. -/

namespace Sys2Proof.Machine

/-- The devices' timing parameters (R180). -/
structure BusTiming where
  /-- `T_PDH`: from release to the start of presence. -/
  tPdh : Nat
  /-- `T_PDL`: presence low. -/
  tPdl : Nat
  /-- `T_D0`: how long a device holds the line low, from slot start, to send 0. -/
  tD0 : Nat
deriving DecidableEq, Repr

/-- The values the spec's test vectors use (R180). -/
def BusTiming.vectors : BusTiming := ⟨30, 120, 30⟩

/-- The relations of R180, with the presence segments positive as a capture's are (R156). -/
structure BusTiming.Valid (p : Params) (t : BusTiming) : Prop where
  zero : p.timing.tRs ≤ t.tD0 ∧ t.tD0 ≤ p.timing.tSlot
  presence : t.tPdh < p.tIdleRst
  positive : 0 < t.tPdh ∧ 0 < t.tPdl

/-- The three slots of a search position (R185). -/
inductive SearchSlot where
  | idBit
  | complement
  | direction
deriving DecidableEq, Repr

/-- What a device is doing (R182 to R187). -/
inductive DeviceMode where
  /-- Collecting the ROM command byte; the bits so far, first first. -/
  | romCommand (got : List Bool)
  | searching (pos : Nat) (slot : SearchSlot)
  | matching (pos : Nat) (same : Bool)
  | selected
  | inactive
deriving DecidableEq, Repr

/-- A device: its ROM code, what it is doing, its stream of output bytes (R180), and how many bits of it were sent. -/
structure Device where
  rom : Vector Byte 8
  mode : DeviceMode
  stream : List Byte
  sent : Nat
deriving DecidableEq, Repr

/-- The bits of a stream of output bytes: "LSB first, byte by byte" (R187). -/
def streamBits (bytes : List Byte) : List Bool := bytes.flatMap fun b => groupBits b 8

/-- The next bit of a device's output stream, none when the stream is exhausted (R187). -/
def nextOut (d : Device) : Option Bool := (streamBits d.stream)[d.sent]?

/-- The reference bus: its devices, the channel's queue of completed captures (R157), the receive idle threshold (R154),
and whether the next transmit is a receiving procedure's (its threshold has just been set). -/
structure RefBus where
  devices : List Device
  queue : List Capture
  idle : Nat
  reading : Bool
deriving DecidableEq, Repr

/-- The bus with these devices on the channel of a controller: the threshold is the one the block last set (R154), nothing
is queued. -/
def RefBus.attach (ds : List Device) (s : State) : RefBus := ⟨ds, [], s.idleThreshold, false⟩

/-- The mode a command byte puts a device in (R184). -/
def commandMode (b : Byte) : DeviceMode :=
  if b = cmdSearchRom then .searching 1 .idBit
  else if b = cmdMatchRom then .matching 1 true
  else if b = cmdSkipRom then .selected
  else .inactive

/-- Whether a device pulls the line low in a slot (R185, R187). -/
def pullsLow (reading : Bool) (d : Device) : Bool :=
  match d.mode with
  | .searching p .idBit => !romBit d.rom p
  | .searching p .complement => romBit d.rom p
  | .selected => reading && nextOut d == some false
  | .searching _ .direction => false
  | .romCommand _ => false
  | .matching _ _ => false
  | .inactive => false

/-- A device after a slot in which it read the block's bit `v` (R184 to R187). -/
def deviceSlot (reading : Bool) (v : Bool) (d : Device) : Device :=
  match d.mode with
  | .romCommand got =>
    if got.length + 1 = 8 then { d with mode := commandMode (packBits (got ++ [v])) }
    else { d with mode := .romCommand (got ++ [v]) }
  | .searching p .idBit => { d with mode := .searching p .complement }
  | .searching p .complement => { d with mode := .searching p .direction }
  | .searching p .direction =>
    if v = romBit d.rom p then
      { d with mode := if p = romBits then .selected else .searching (p + 1) .idBit }
    else { d with mode := .inactive }
  | .matching p same =>
    if p = romBits then { d with mode := if same && v == romBit d.rom p then .selected else .inactive }
    else { d with mode := .matching (p + 1) (same && v == romBit d.rom p) }
  | .selected => if reading then { d with sent := d.sent + 1 } else d
  | .inactive => d

/-- The segments of one slot with block low `l` and high `h` (R188). -/
def slotSegments (t : BusTiming) (low : Bool) (l h : Nat) : List Segment :=
  if low then [⟨.low, max l t.tD0⟩, ⟨.high, l + h - max l t.tD0⟩] else [⟨.low, l⟩, ⟨.high, h⟩]

/-- The slots of a train, as (low, high) durations. -/
def trainSlots : Train → List (Nat × Nat)
  | .pulse ⟨.low, l⟩ :: .pulse ⟨.high, h⟩ :: t => (l, h) :: trainSlots t
  | _ => []

/-- The devices after a train of slots, and the line's segments, slot by slot (R183, R188). -/
def runSlots (p : Params) (t : BusTiming) (reading : Bool) :
    List (Nat × Nat) → List Device → List Device × List Segment
  | [], ds => (ds, [])
  | (l, h) :: slots, ds =>
    let r := runSlots p t reading slots (ds.map (deviceSlot reading (decide (l < p.timing.tRs))))
    (r.1, slotSegments t (ds.any (pullsLow reading)) l h ++ r.2)

/-- What the line carries in a reset, before it stays released (R182). -/
def resetLine (p : Params) (t : BusTiming) (ds : List Device) : List Segment :=
  if ds.isEmpty then [⟨.low, p.timing.tRstl⟩]
  else [⟨.low, p.timing.tRstl⟩, ⟨.high, t.tPdh⟩, ⟨.low, t.tPdl⟩]

/-- The bus after a train that the line carried whole: the devices, and the captures the receiver completed at the back
of the queue (R155, R157, R182, R188). -/
def busTransmit (p : Params) (t : BusTiming) (train : Train) (b : RefBus) : RefBus :=
  if train = resetTrain p then
    { b with
      devices := b.devices.map fun d => { d with mode := .romCommand [] }
      queue := b.queue ++ capturesOf b.idle (resetLine p t b.devices)
      reading := false }
  else
    let r := runSlots p t b.reading (trainSlots train) b.devices
    { b with devices := r.1, queue := b.queue ++ capturesOf b.idle r.2, reading := false }

/-- The bus after an event, none when the event's answer is not the reference bus's: every transmit answers ok, every
receive the oldest queued capture, or `timeout` on an empty queue (R182). -/
def busEvent (p : Params) (t : BusTiming) (b : RefBus) : Event → Option RefBus
  | .flush => some { b with queue := [] }
  | .setIdle d => some { b with idle := d, reading := true }
  | .transmit train _ .ok => some (busTransmit p t train b)
  | .transmit _ _ (.err _) => none
  | .receive _ a =>
    match b.queue with
    | [] => if a = .timeout then some b else none
    | c :: q => if a = .capture c then some { b with queue := q } else none

/-- The bus after a run's events, none when the run is not one of the reference bus. -/
def busRun (p : Params) (t : BusTiming) : RefBus → List Event → Option RefBus
  | b, [] => some b
  | b, e :: es =>
    match busEvent p t b e with
    | some b1 => busRun p t b1 es
    | none => none

/-- The events a state's run added after another's. -/
def newEvents (s t : State) : List Event := t.events.drop s.events.length

end Sys2Proof.Machine
end

