-- ==== Sys2Proof/Safety.lean ====
section
/-! DEFINITION. What counts as a safe run, and the terms claims are stated in: how an operation ended, what it left
alone, and the invariant of every reachable state. -/

namespace Sys2Proof.Machine

/-- The answer is a next state with a property: neither a fault nor a refusal. -/
def Completes (o : Answer) (P : State → Prop) : Prop := ∃ t, o = .next t ∧ P t

/-- A step from `s` is safe: it does not stop. -/
def SafeStep (s : State) : Prop := Completes (step s) fun _ => True

/-- How an operation ended (60_exceptions.md R335, R336): `BUSY` = 0, `RESULT` and `ERR` as given, `DRIVE` = 0 and no
current operation. -/
structure Ended (r : Bool) (e : BitVec 3) (t : State) : Prop where
  busy : t.busy = false
  result : t.result = r
  err : t.err = e
  drive : t.drive = false
  seq : t.seq = Sequencer.idle

/-- What no operation changes: the parameters, the Host's registers, its accesses to come, and what its reads returned. -/
structure SameHost (s t : State) : Prop where
  params : t.params = s.params
  bufAddr : t.bufAddr = s.bufAddr
  bufLen : t.bufLen = s.bufLen
  host : t.host = s.host
  hostReads : t.hostReads = s.hostReads

/-- No channel call was made, and no answer of the Environment used. -/
structure NoChannelCall (s t : State) : Prop where
  events : t.events = s.events
  txAnswers : t.txAnswers = s.txAnswers
  rxAnswers : t.rxAnswers = s.rxAnswers
  idleThreshold : t.idleThreshold = s.idleThreshold

/-- Two answers with the same bus effect (30_encoding.md R112): both are next states, with the same history, `STATUS`,
SearchState and memory, and the same `RDATA` unless the operation failed, when it is any value (41_bit_byte_ops.md R208). -/
def SameEffect (o o' : Answer) : Prop :=
  ∃ t t', o = .next t ∧ o' = .next t' ∧ t'.events = t.events ∧ t'.busy = t.busy ∧ t'.result = t.result ∧ t'.err = t.err
    ∧ t'.search = t.search ∧ t'.mem = t.mem ∧ (t.err = 0#3 → t'.rdata = t.rdata)

/-- Every byte of the host buffer reads as before. -/
def SameBytes (s t : State) : Prop := ∀ a, t.mem.read a = s.mem.read a

/-- Every byte outside the `n` bytes at `lo` reads as before. -/
def SameBytesOutside (lo n : Nat) (s t : State) : Prop :=
  ∀ a, a < lo ∨ lo + n ≤ a → t.mem.read a = s.mem.read a

/-- The buffer address operand an operation started in `s` takes: `BUF_ADDR.ADDR` (10_state.md R44, R57). -/
def bufferA (s : State) : Nat := (bufAddrWord s).toNat

/-- The buffer length operand: `BUF_LEN.LEN` (R45, R57). -/
def bufferL (s : State) : Nat := s.bufLen.toNat

/-- The event of a transmit of `train`. -/
def isTransmit : Event → Bool
  | .transmit _ _ _ => true
  | .flush => false
  | .setIdle _ => false
  | .receive _ _ => false

/-- A receive event. -/
def isReceive : Event → Bool
  | .receive _ _ => true
  | .transmit _ _ _ => false
  | .flush => false
  | .setIdle _ => false

/-- A flush event. -/
def isFlush : Event → Bool
  | .flush => true
  | .transmit _ _ _ => false
  | .setIdle _ => false
  | .receive _ _ => false

/-- A threshold setting. -/
def isSetIdle : Event → Bool
  | .setIdle _ => true
  | .transmit _ _ _ => false
  | .flush => false
  | .receive _ _ => false

/-- The calls of a receiving procedure that took the capture `c` (41_bit_byte_ops.md R204, R206). -/
def receiveEvents (idle timeout : Nat) (t : Train) (c : Capture) : List Event :=
  [.flush, .setIdle idle, .transmit t false .ok, .receive timeout (.capture c)]

/-- How `READ_BYTES` ends with code `e` when its group after the groups `caps` fails (41_bit_byte_ops.md R250, R207): the
answers left are `txs` and `rxs`, the bytes before the failing one hold the values read, and no byte outside them and it is
accessed. -/
structure ReadStopped (caps : List Capture) (e : BitVec 3) (txs : List TxAnswer) (rxs : List RxAnswer) (s t : State) :
    Prop where
  ended : Ended false e t
  txAnswers : t.txAnswers = txs
  rxAnswers : t.rxAnswers = rxs
  values : ∀ j, (h : j < caps.length) → decodeBits s.params caps[j] 8 = .ok (t.mem.read (bufferA s + j))
  outside : SameBytesOutside (bufferA s) (caps.length + 1) s t

/-- The channel calls of one position of a search: the pair read, then the direction written (43_search.md R293, R297). -/
def positionEvents (p : Params) (c : Capture) (direction : Bool) : List Event :=
  receiveEvents p.tIdleSlot p.tToRead (readTrain p 2) c ++ [.transmit (bitsTrain p (zext8 direction) 1) false .ok]

/-- The channel calls of a whole walk that leaves `rom` (43_search.md R313): reset, SEARCH ROM, 64 positions. -/
def walkEvents (p : Params) (presence : Capture) (caps : Nat → Capture) (rom : Vector Byte 8) : List Event :=
  receiveEvents p.tIdleRst p.tToReset (resetTrain p) presence
    ++ [.transmit (bitsTrain p cmdSearchRom 8) false .ok]
    ++ (List.range romBits).flatMap fun i => positionEvents p (caps i) (romBit rom (i + 1))

/-- The error code with which channel call number `k` of a `SEARCH` (from 0) ends it, none when the search goes on (43_search.md
R291, R293, R302, R305): a failed transmit or receive and a pair capture with fewer than two low segments are `CHANNEL`, a
timeout is `TIMEOUT`, and a reset capture (call 3) without presence or a (1,1) pair end it with no error. -/
def searchStop (p : Params) (k : Nat) : Event → Option (BitVec 3)
  | .flush => none
  | .setIdle _ => none
  | .transmit _ _ .ok => none
  | .transmit _ _ (.err _) => some 1#3
  | .receive _ .timeout => some 2#3
  | .receive _ .err => some 1#3
  | .receive _ (.capture c) =>
    if k = 3 then (if decodePresence p c then none else some 0#3)
    else if (lows c).length < 2 then some 1#3
    else if decodeBits p c 2 = .ok 0x03#8 then some 0#3
    else none

/-- Every call of `es`, the first of them call number `n`, lets a search go on. -/
def CallsGoOn (p : Params) (n : Nat) (es : List Event) : Prop := ∀ k e, es[k]? = some e → searchStop p (n + k) e = none

/-- Every call of `es` but the last lets a search go on, and the last ends it with code `c`. -/
def CallsStop (p : Params) (n : Nat) (es : List Event) (c : BitVec 3) : Prop :=
  ∃ init last, es = init ++ [last] ∧ CallsGoOn p n init ∧ searchStop p (n + init.length) last = some c

/-- Whether two ROM codes agree on every position before `p`, so that a search that has followed one still has the other
answering at `p` (43_search.md R297, 40_channel.md R185). -/
def agreesBefore (r d : Vector Byte 8) (p : Nat) : Bool :=
  (List.range (p - 1)).all fun i => romBit d (i + 1) == romBit r (i + 1)

/-- The id bit at position `p` of a search that has followed `r`: the wired AND of the bits of the codes still answering
(40_channel.md R181, R185). -/
def idAnswer (ds : List (Vector Byte 8)) (r : Vector Byte 8) (p : Nat) : Bool :=
  ds.all fun d => !agreesBefore r d p || romBit d p

/-- The complement bit at position `p`. -/
def complementAnswer (ds : List (Vector Byte 8)) (r : Vector Byte 8) (p : Nat) : Bool :=
  ds.all fun d => !agreesBefore r d p || !romBit d p

/-- Codes with both bit values still answer at position `p`: the pair read there is (0,0) (43_search.md R295). -/
def forksAt (ds : List (Vector Byte 8)) (r : Vector Byte 8) (p : Nat) : Bool :=
  !idAnswer ds r p && !complementAnswer ds r p

/-- The last position up to `n` at which a search that follows `r` takes the 0 branch of a fork, 0 when there is none
(43_search.md R296, R300). -/
def lastZeroFork (ds : List (Vector Byte 8)) (r : Vector Byte 8) : Nat → Nat
  | 0 => 0
  | n + 1 => if forksAt ds r (n + 1) && !romBit r (n + 1) then n + 1 else lastZeroFork ds r n

/-- A ROM code as a number with position 1 its most significant bit: the order of the search tree, 0 first (43_search.md
R310). -/
def romKey (rom : Vector Byte 8) : Nat := (romBitList rom).foldl (fun n b => 2 * n + b.toNat) 0

/-- The invariant of every reachable state in the atomic model. -/
structure State.Inv (s : State) : Prop where
  /-- No operation runs between steps, and the sequencer holds its placeholders. That no state between two channel calls is
  a state between steps is the MODEL's choice (00_scope.md R11; assumptions 3 and 6): it is not a rule of the block. -/
  idle : s.busy = false ∧ s.seq = Sequencer.idle
  /-- `DRIVE` is 0 whenever `BUSY` = 0 (10_state.md R50). -/
  drive : s.drive = false
  /-- `LD` in [0,64] (R33, R36). -/
  ld : s.search.ld.toNat ≤ 64
  /-- `LFD` in [0,8] (R34, R36). -/
  lfd : s.search.lfd.toNat ≤ 8
  /-- `ERR` in [0,4] (60_exceptions.md R331). -/
  err : s.err.toNat ≤ 4
  /-- An operation that raised left `RESULT` = 0 (R332). -/
  result : s.result = true → s.err = errNone
  /-- Bits of `BUF_ADDR` at `ADDR_W` and above are 0 (10_state.md R44). -/
  bufAddr : s.bufAddr.toNat < 2 ^ s.params.addrW
  /-- The memory holds no cell outside the address space (20_memory.md R74), and is in the model's canonical form
  (assumption 4). -/
  mem : s.mem.wf = true ∧ s.mem.below s.params.addrW = true

end Sys2Proof.Machine
end

