-- ==== Sys2Proof/Certificates/Slice0/Obligations.lean ====
section
/-! DEFINITION. The statements about the machine: encoding, the wire, each operation's result, its frame and where it
stops, and the invariants every step keeps. -/

open Sys2Proof Sys2Proof.Machine

/-! ### Encoding (spec 30_encoding.md) -/

/-- Words of 95_test_vectors.md section 2.1, one or more per family, decode to the operations they stand for. -/
def Obligations.SampleWordsDecode : Prop :=
  decode 0x00000001#32 = .op .reset
    ∧ decode 0x00050033#32 = .op (.writeBits 0x05#8 3 false)
    ∧ decode 0x00440183#32 = .op (.writeBits 0x44#8 8 true)
    ∧ decode 0x00A50004#32 = .op (.writeByte 0xA5#8)
    ∧ decode 0x00000105#32 = .op (.writeBytes true)
    ∧ decode 0x00000027#32 = .op (.readBits 2)
    ∧ decode 0x0000000A#32 = .op .select
    ∧ decode 0x0028000D#32 = .op (.targetSearch 0x28#8)
    ∧ decode 0x00440104#32 = .illegal .mustBeZero
    ∧ decode 0x0000000F#32 = .illegal .reservedOpcode

/-- The command word of every operation decodes to that operation, with every operand at every value its field admits
(R100 to R104). -/
def Obligations.DecodeOfEncode : Prop := ∀ i : Instr, i.WellFormed → decode (encode i) = .op i

/-- Every word that decodes is the command word of the operation it decodes to: no bit of a legal word is dropped
(R100 to R104). -/
def Obligations.EncodeOfDecode : Prop := ∀ (w : Word) (i : Instr), decode w = .op i → i.WellFormed ∧ encode i = w

/-- R106: decoding is total, a row that matches gives the operation, no row gives Illegal, and no two rows of the table
match the same word. -/
def Obligations.DecodeByTheTable : Prop :=
  (∀ (w : Word) (r : Row), r ∈ opcodeTable → (w &&& r.mask) = r.value → decode w = .op (r.op w))
    ∧ (∀ w : Word, (∀ r ∈ opcodeTable, (w &&& r.mask) ≠ r.value) → ∃ why, decode w = .illegal why)
    ∧ opcodeTable.Pairwise fun r r' => ∀ w : Word, ¬((w &&& r.mask) = r.value ∧ (w &&& r'.mask) = r'.value)

/-- R104: every `OPC` in 0x1 to 0xE has a row, and a word with that `OPC` decodes to the row's operation exactly when its
must-be-zero bits (the mask's bits above `OPC`) are 0, which is the row's test. -/
def Obligations.MustBeZeroBits : Prop :=
  ∀ w : Word,
    (1 ≤ (opcField w).toNat → (opcField w).toNat ≤ 14 → ∃ r ∈ opcodeTable, opcField w = opcField r.value)
      ∧ ∀ r ∈ opcodeTable, opcField w = opcField r.value →
        (decode w = .op (r.op w) ↔ (w &&& r.mask &&& 0xFFFFFFF0#32) = 0#32)
          ∧ ((w &&& r.mask &&& 0xFFFFFFF0#32) = 0#32 ↔ (w &&& r.mask) = r.value)

/-- The assembler (R110, R111): every operation's line whose operands are in range assembles to a write of its operation's
command word to `CMD`, and a line with an operand out of range is refused; `set` is a write of `BUF_ADDR` or `BUF_LEN`,
`get` a read of any register. That a `set` line with a value of 2^32 or more, or with another register, is refused is the
MODEL's choice (log entry 20): it is not among the refusals R110 lists. -/
def Obligations.AssemblerRule : Prop :=
  ([(AsmLine.reset, Instr.reset), (.readBit, .readBit), (.readByte, .readByte), (.readBytes, .readBytes),
      (.select, .select), (.skip, .skip), (.resetSearch, .resetSearch), (.search, .search)].all fun x =>
        assemble x.1 == some (.regWrite 0x00 4 (encode x.2))) = true
    ∧ (∀ v : Bool, assemble (.writeBit v.toNat) = some (.regWrite 0x00 4 (encode (.writeBit v))))
    ∧ (∀ (d : Byte) (n : Nat) (pwr : Bool), n ≤ 15 →
        assemble (.writeBits d.toNat n pwr) = some (.regWrite 0x00 4 (encode (.writeBits d n pwr))))
    ∧ (∀ d : Byte, assemble (.writeByte d.toNat) = some (.regWrite 0x00 4 (encode (.writeByte d))))
    ∧ (∀ pwr : Bool, assemble (.writeBytes pwr) = some (.regWrite 0x00 4 (encode (.writeBytes pwr))))
    ∧ (∀ n : Nat, n ≤ 15 → assemble (.readBits n) = some (.regWrite 0x00 4 (encode (.readBits n))))
    ∧ (∀ f : Byte, assemble (.targetSearch f.toNat) = some (.regWrite 0x00 4 (encode (.targetSearch f))))
    ∧ (∀ v : Nat, 1 < v → assemble (.writeBit v) = none)
    ∧ (∀ (d n : Nat) (pwr : Bool), 0xFF < d ∨ 15 < n → assemble (.writeBits d n pwr) = none)
    ∧ (∀ d : Nat, 0xFF < d → assemble (.writeByte d) = none ∧ assemble (.targetSearch d) = none)
    ∧ (∀ n : Nat, 15 < n → assemble (.readBits n) = none)
    ∧ (∀ v : Word, assemble (.set .bufAddr v.toNat) = some (.regWrite 0x0C 4 v)
        ∧ assemble (.set .bufLen v.toNat) = some (.regWrite 0x10 4 v))
    ∧ (∀ (r : RegName) (v : Nat), 2 ^ 32 ≤ v ∨ (r ≠ .bufAddr ∧ r ≠ .bufLen) → assemble (.set r v) = none)
    ∧ ([(RegName.cmd, 0x00), (.status, 0x04), (.rdata, 0x08), (.bufAddr, 0x0C), (.bufLen, 0x10), (.sstate, 0x14),
        (.romLo, 0x18), (.romHi, 0x1C), (.line, 0x20)].all fun x => assemble (.get x.1) == some (.regRead x.2 4)) = true

/-! ### The step and the Host's side (spec 10_state.md, 20_memory.md, 30_encoding.md R108) -/

/-- A word written to `CMD` while no operation runs: the step is `exec` of the operation it decodes to, at the state in
which the Host's access has been taken; and a command placed for the next step is run by it. That one operation is one
step, and how a command is placed, are the model's choices (log entries 5 and 6). -/
def Obligations.StepRunsDecodedCommand : Prop :=
  (∀ (s : State) (w : Word) (rest : List HostAccess) (i : Instr),
    s.busy = false → s.host = .regWrite 0x00 4 w :: rest → decode w = .op i →
      step s = exec i { s with host := rest })
    ∧ ∀ (s : State) (nbits w : Nat) (i : Instr), decodeTableWord nbits w = some i →
      step (s.withFetchWord nbits w) = exec i { s with busy := false }

/-- R105: `OPC` 0x0 or 0xF, or a nonzero must-be-zero bit, is illegal; accepted, the word ends at once with `ILLEGAL`, with
no channel call, no buffer access and no SearchState change. -/
def Obligations.IllegalWordEndsAtOnce : Prop :=
  ∀ w : Word,
    (opcField w = 0x0#4 ∨ opcField w = 0xF#4
      ∨ ∃ r ∈ opcodeTable, opcField w = opcField r.value ∧ (w &&& r.mask &&& 0xFFFFFFF0#32) ≠ 0#32) →
    (∃ why, decode w = .illegal why)
      ∧ ∀ (s : State) (rest : List HostAccess), s.busy = false → s.host = .regWrite 0x00 4 w :: rest →
          Completes (step s) fun t =>
            Ended false 4#3 t ∧ SameHost { s with host := rest } t ∧ NoChannelCall s t ∧ t.mem = s.mem
              ∧ t.search = s.search ∧ t.rdata = s.rdata

/-- Writes that are ignored: to `CMD`, `BUF_ADDR` and `BUF_LEN` while `BUSY` = 1 (R41, R44, R45), and to a read-only or a
reserved register at any time (R40, R51). -/
def Obligations.IgnoredWrites : Prop :=
  ∀ (s : State) (rest : List HostAccess) (offset : Nat) (v : Word), s.host = .regWrite offset 4 v :: rest →
    (s.busy = true → offset = 0x00 ∨ offset = 0x0C ∨ offset = 0x10 → step s = .next { s with host := rest })
      ∧ (offset % 4 = 0 → offset < 0x40 → offset ≠ 0x00 → offset ≠ 0x0C → offset ≠ 0x10 →
          step s = .next { s with host := rest })

/-- R44 and R45, while no operation runs: offset 0x0C reads back the bits below `ADDR_W` and offset 0x10 the low 16 of what
was written there, every other bit reads 0, nothing else changes, and the value read is the operand the operations take
(R57). -/
def Obligations.BufferRegistersStore : Prop :=
  ∀ (s : State) (rest : List HostAccess) (v : Word), s.busy = false →
    (s.host = .regWrite 0x0C 4 v :: rest → Completes (step s) fun t =>
        t = { s with host := rest, bufAddr := t.bufAddr }
          ∧ (∀ j < 32, (regValue 0x0C t).getLsbD j = (decide (j < s.params.addrW) && v.getLsbD j))
          ∧ bufferA t = (regValue 0x0C t).toNat)
      ∧ (s.host = .regWrite 0x10 4 v :: rest → Completes (step s) fun t =>
        t = { s with host := rest, bufLen := t.bufLen }
          ∧ (∀ j < 32, (regValue 0x10 t).getLsbD j = (decide (j < 16) && v.getLsbD j))
          ∧ bufferL t = (regValue 0x10 t).toNat)

/-- R73: reading any register while no operation runs changes nothing but the record of what the Host read, and a second
read gives the same value. -/
def Obligations.RegisterReadsHaveNoEffect : Prop :=
  ∀ (s : State) (rest : List HostAccess) (offset : Nat),
    s.busy = false → offset % 4 = 0 → offset < 0x40 → s.host = .regRead offset 4 :: rest →
      Completes (step s) fun t =>
        t = { s with host := rest, hostReads := s.hostReads ++ [.reg offset (regValue offset s)] }
          ∧ regValue offset t = regValue offset s

/-- What a register read returns, bit by bit. In every state: what the Host's read records is `regValue`; `STATUS` has the
layout of R42, `BUSY` in bit 0 whether an operation runs or not; `BUF_ADDR` reads `ADDR` below `ADDR_W` and 0 above (R44),
`BUF_LEN` reads `LEN` in its low 16 bits and 0 above (R45); `CMD` (R41) and the reserved offsets 0x24 to 0x3C (R51) read 0. While no operation runs: the layouts of `RDATA` (R43), `SSTATE` (R46) and `LINE` (R49). -/
def Obligations.RegisterLayouts : Prop :=
  ∀ s : State,
    (∀ (rest : List HostAccess) (offset : Nat), offset % 4 = 0 → offset < 0x40 → s.host = .regRead offset 4 :: rest →
        Completes (step s) fun t => t.hostReads = s.hostReads ++ [.reg offset (regValue offset s)])
      ∧ (∀ j < 32, (regValue 0x04 s).getLsbD j
          = (if j = 0 then s.busy else if j = 1 then s.result else decide (j < 5) && s.err.getLsbD (j - 2)))
      ∧ (∀ j < 32, (regValue 0x0C s).getLsbD j = (decide (j < s.params.addrW) && s.bufAddr.getLsbD j)
          ∧ (regValue 0x10 s).getLsbD j = (decide (j < 16) && s.bufLen.getLsbD j))
      ∧ (∀ offset, offset = 0x00 ∨ (0x24 ≤ offset ∧ offset < 0x40) → regValue offset s = 0#32)
      ∧ (s.busy = false → ∀ j < 32,
          (regValue 0x08 s).getLsbD j = (decide (j < 8) && s.rdata.getLsbD j)
            ∧ (regValue 0x14 s).getLsbD j
              = (if j < 7 then s.search.ld.getLsbD j
                else if 8 ≤ j ∧ j < 12 then s.search.lfd.getLsbD (j - 8) else decide (j = 16) && s.search.ldf)
            ∧ (regValue 0x20 s).getLsbD j = (decide (j = 0) && s.drive))

/-- `ROM_LO` and `ROM_HI` show `ROM_NO` in little-endian byte lanes (R47, R48, R82). -/
def Obligations.RomRegisterLanes : Prop :=
  ∀ (s : State) (j : Nat), s.busy = false → j < 4 →
    (regValue 0x18 s).extractLsb' (8 * j) 8 = romByte s.search.romNo j
      ∧ (regValue 0x1C s).extractLsb' (8 * j) 8 = romByte s.search.romNo (4 + j)

/-- R72: a register access that is not a whole word, is misaligned, or lies at 0x40 or above is refused. -/
def Obligations.OtherRegisterAccessRefused : Prop :=
  ∀ (s : State) (rest : List HostAccess) (offset size : Nat) (v : Word),
    size ≠ 4 ∨ offset % 4 ≠ 0 ∨ 0x40 ≤ offset →
      (s.host = .regWrite offset size v :: rest → step s = .refused (.registerAccess offset size))
        ∧ (s.host = .regRead offset size :: rest → step s = .refused (.registerAccess offset size))

/-- R58: what construction leaves, for every table of parameters: every register 0, open drain, no operation, and every
register offset reads 0. -/
def Obligations.ConstructionState : Prop :=
  ∀ p : Params,
    (∀ k < 8, romByte (State.construct p).search.romNo k = 0x00#8)
      ∧ (State.construct p).search.ld = 0#7 ∧ (State.construct p).search.lfd = 0#4
      ∧ (State.construct p).search.ldf = false
      ∧ (State.construct p).busy = false ∧ (State.construct p).result = false ∧ (State.construct p).err = 0#3
      ∧ (State.construct p).rdata = 0x00#8 ∧ (State.construct p).bufAddr = 0#32 ∧ (State.construct p).bufLen = 0#16
      ∧ (State.construct p).drive = false ∧ (State.construct p).seq.op = none
      ∧ ∀ offset, regValue offset (State.construct p) = 0#32

/-- R370 and R371: block reset puts the block's state at the values of R58, and keeps the parameters, the buffer and the
history of what was put on the line. What it keeps is the model's reading (log entry 13). -/
def Obligations.BlockResetState : Prop :=
  ∀ (s : State) (rest : List HostAccess), s.host = .blockReset :: rest →
    Completes (step s) fun t =>
      t.search = SearchState.zero ∧ Ended false 0#3 t ∧ t.rdata = 0x00#8 ∧ t.bufAddr = 0#32 ∧ t.bufLen = 0#16
        ∧ t.params = s.params ∧ t.mem = s.mem ∧ t.events = s.events ∧ t.host = rest
        ∧ t.txAnswers = s.txAnswers ∧ t.rxAnswers = s.rxAnswers

/-! ### The wire (spec 30_encoding.md part B, 40_channel.md) -/

/-- Both trains of a group of `n` bits have `n` slots, last `n * T_SLOT` and fit the train buffer; the first slot of a write
is bit 0 (R116, R119, 10_state.md R55, 20_memory.md R79). Items are counted as log entry 18 says. A receiver whose idle
threshold is longer than both slots' highs makes one capture of the whole group, the block's own pulses (40_channel.md R155,
R156), the line being idle before it (log entry 24). -/
def Obligations.GroupTrains : Prop :=
  ∀ (p : Params) (d : Byte) (n : Nat), p.Valid → 1 ≤ n → n ≤ 8 →
    (trainSegments (bitsTrain p d n)).length = 2 * n ∧ lasts (trainSegments (bitsTrain p d n)) = n * p.timing.tSlot
      ∧ itemCount (bitsTrain p d n) = n + 1
      ∧ (trainSegments (readTrain p n)).length = 2 * n ∧ lasts (trainSegments (readTrain p n)) = n * p.timing.tSlot
      ∧ itemCount (readTrain p n) = n + 1 ∧ n + 1 ≤ trainCap
      ∧ (∀ g ∈ trainSegments (bitsTrain p d n) ++ trainSegments (readTrain p n), 0 < g.duration)
      ∧ (bitsTrain p d n).take 2 = slot p (d.getLsbD 0)
      ∧ ∀ s : State, p.timing.tW1h < s.idleThreshold → p.timing.tW0h < s.idleThreshold →
          hears s (trainSegments (bitsTrain p d n)) = [loopCapture (bitsTrain p d n)]
            ∧ hears s (trainSegments (readTrain p n)) = [loopCapture (readTrain p n)]

/-- R172, the loopback property: "encoding n bits and decoding the captured pattern via a loopback simulation recovers the
original n-bit value". -/
def Obligations.LoopbackRecoversValue : Prop :=
  ∀ (p : Params) (n : Nat) (v : Byte), p.Valid → 1 ≤ n → n ≤ 8 → v.toNat < 2 ^ n →
    decodeBits p (loopCapture (bitsTrain p v n)) n = .ok v

/-- R170: what `decodePresence` answers on every capture. And the upper bound of the presence window (R155): the receiver's
first capture of a reset low, a release of `h` µs and a response shows the presence exactly when the response begins within
the idle threshold, one of exactly the threshold being late (log entry 24). -/
def Obligations.PresenceDecoder : Prop :=
  ∀ p : Params,
    (∀ c : Capture, decodePresence p c = true ↔
      ∃ c0 c1 c2 rest, c = c0 :: c1 :: c2 :: rest ∧ c0.level = .low ∧ p.timing.tRstl - p.tRstTol ≤ c0.duration
        ∧ c1.level = .high ∧ c2.level = .low)
      ∧ ∀ (s : State) (h l : Nat), p.Valid → 0 < h → 0 < l →
          ((hears s [⟨.low, p.timing.tRstl⟩, ⟨.high, h⟩, ⟨.low, l⟩]).head?.map (decodePresence p))
            = some (decide (h < s.idleThreshold))

/-- R171: a capture with fewer than `n` lows fails, and otherwise bit `i` is 1 exactly when the `i`-th low is shorter than
`T_RS`, with every bit from `n` up 0. -/
def Obligations.BitDecoder : Prop :=
  ∀ (p : Params) (c : Capture) (n : Nat), 1 ≤ n → n ≤ 8 →
    ((lows c).length < n → decodeBits p c n = .fail .channelError)
      ∧ (n ≤ (lows c).length → ∃ v, decodeBits p c n = .ok v
          ∧ ∀ j < 8, v.getLsbD j = (decide (j < n) && decide ((lows c).getD j 0 < p.timing.tRs)))

/-! ### Reset, bit and byte operations (spec 41_bit_byte_ops.md) -/

/-- `RESET` on a channel that answers with a capture (R206, R210): the presence it decodes to is `RESULT`. -/
def Obligations.ResetReportsPresence : Prop :=
  ∀ (s : State) (c : Capture), s.drive = false → txNow s = .ok → rxNow (usedTx s) = .capture c →
    Completes (exec .reset s) fun t =>
      Ended (decodePresence s.params c) 0#3 t ∧ t.rdata = s.rdata ∧ t.search = s.search
        ∧ t.events = s.events
            ++ receiveEvents s.params.tIdleRst s.params.tToReset (resetTrain s.params) c

/-- `RESET` on a channel failure or timeout: `RESULT` = 0 with the failure's code, and no other register changes
(R210, 60_exceptions.md R341). -/
def Obligations.ResetFailureReadsFalse : Prop :=
  ∀ s : State,
    (∀ us, txNow s = .err us → Completes (exec .reset s) fun t =>
        Ended false 1#3 t ∧ t.rdata = s.rdata ∧ t.search = s.search ∧ t.rxAnswers = s.rxAnswers)
      ∧ (txNow s = .ok → rxNow (usedTx s) = .timeout → Completes (exec .reset s) fun t =>
        Ended false 2#3 t ∧ t.rdata = s.rdata ∧ t.search = s.search)
      ∧ (txNow s = .ok → rxNow (usedTx s) = .err → Completes (exec .reset s) fun t =>
        Ended false 1#3 t ∧ t.rdata = s.rdata ∧ t.search = s.search)

/-- `WRITE_BIT`, `WRITE_BITS` and `WRITE_BYTE` on a transmit that answers ok (R203, R215, R220, R225): one transmit of the
group's train, strong pull only for a powered `WRITE_BITS`, `RESULT` = 1. -/
def Obligations.WriteGroupSends : Prop :=
  ∀ s : State, s.drive = false → txNow s = .ok →
    (∀ v : Bool, Completes (exec (.writeBit v) s) fun t =>
        Ended true 0#3 t ∧ t.events = s.events ++ [.transmit (slot s.params v ++ [.endMark]) false .ok])
      ∧ (∀ (d : Byte) (n : Nat) (pwr : Bool), 1 ≤ n → n ≤ 8 → Completes (exec (.writeBits d n pwr) s) fun t =>
        Ended true 0#3 t ∧ t.events = s.events ++ [.transmit (bitsTrain s.params d n) pwr .ok])
      ∧ (∀ d : Byte, Completes (exec (.writeByte d) s) fun t =>
        Ended true 0#3 t ∧ t.events = s.events ++ [.transmit (bitsTrain s.params d 8) false .ok])

/-- A failed transmit ends `WRITE_BIT`, `WRITE_BITS`, `WRITE_BYTE` and `SKIP` with `CHANNEL`, `DRIVE` back at 0, and the
transmit in the history with the part of its train the line carried (R203, 40_channel.md R152; log entry 10). -/
def Obligations.WriteGroupFails : Prop :=
  ∀ (s : State) (us : Nat), s.drive = false → txNow s = .err us →
    (∀ v : Bool, Completes (exec (.writeBit v) s) fun t =>
        Ended false 1#3 t ∧ t.events = s.events ++ [.transmit (bitsTrain s.params (zext8 v) 1) false (.err us)])
      ∧ (∀ (d : Byte) (n : Nat) (pwr : Bool), 1 ≤ n → n ≤ 8 → Completes (exec (.writeBits d n pwr) s) fun t =>
        Ended false 1#3 t ∧ t.events = s.events ++ [.transmit (bitsTrain s.params d n) pwr (.err us)])
      ∧ (∀ d : Byte, Completes (exec (.writeByte d) s) fun t =>
        Ended false 1#3 t ∧ t.events = s.events ++ [.transmit (bitsTrain s.params d 8) false (.err us)])
      ∧ Completes (exec .skip s) fun t =>
        Ended false 1#3 t ∧ t.events = s.events ++ [.transmit (bitsTrain s.params 0xCC#8 8) false (.err us)]

/-- R205: a bit group of 0 bits or of more than 8 is a `ProtocolViolation` with no channel call, in both procedures and in
the operations that can ask for one. -/
def Obligations.GroupCountRejected : Prop :=
  ∀ (s : State) (n : Nat), n = 0 ∨ 8 < n →
    (∀ (d : Byte) (pwr : Bool), writeP d n pwr s = (.fail .protocolViolation, s))
      ∧ readP n s = (.fail .protocolViolation, s)
      ∧ (∀ (d : Byte) (pwr : Bool), Completes (exec (.writeBits d n pwr) s) fun t =>
        Ended false 3#3 t ∧ NoChannelCall s t)
      ∧ Completes (exec (.readBits n) s) fun t => Ended false 3#3 t ∧ NoChannelCall s t

/-- `READ_BIT`, `READ_BITS` and `READ_BYTE` on a capture with enough low segments (R204, R235, R240, R245): bit `j` of
`RDATA` is 1 exactly when the `j`-th low is shorter than `T_RS`, and every bit from the group's size up is 0. -/
def Obligations.ReadGroupReads : Prop :=
  ∀ (s : State) (c : Capture) (n : Nat), s.drive = false → txNow s = .ok → rxNow (usedTx s) = .capture c →
    n ≤ (lows c).length →
    (n = 1 → Completes (exec .readBit s) fun t =>
        Ended true 0#3 t ∧ (∀ j < 8, t.rdata.getLsbD j = (decide (j < n) && decide ((lows c).getD j 0 < s.params.timing.tRs)))
          ∧ t.events = s.events ++ receiveEvents s.params.tIdleSlot s.params.tToRead (readTrain s.params n) c)
      ∧ (1 ≤ n → n ≤ 8 → Completes (exec (.readBits n) s) fun t =>
        Ended true 0#3 t ∧ (∀ j < 8, t.rdata.getLsbD j = (decide (j < n) && decide ((lows c).getD j 0 < s.params.timing.tRs)))
          ∧ t.events = s.events ++ receiveEvents s.params.tIdleSlot s.params.tToRead (readTrain s.params n) c)
      ∧ (n = 8 → Completes (exec .readByte s) fun t =>
        Ended true 0#3 t ∧ (∀ j < 8, t.rdata.getLsbD j = (decide (j < n) && decide ((lows c).getD j 0 < s.params.timing.tRs)))
          ∧ t.events = s.events ++ receiveEvents s.params.tIdleSlot s.params.tToRead (readTrain s.params n) c)

/-- A read of `n` bits that fails ends with the failure's code: `CHANNEL` on a failed transmit (and then no receive is
made) or receive, `CHANNEL` on a capture with too few lows, `TIMEOUT` on a timeout (R204, R171). -/
def Obligations.ReadGroupFails : Prop :=
  ∀ (s : State) (n : Nat) (i : Instr), i = .readBit ∧ n = 1 ∨ i = .readBits n ∧ 1 ≤ n ∧ n ≤ 8 ∨ i = .readByte ∧ n = 8 →
    (∀ us, txNow s = .err us → Completes (exec i s) fun t => Ended false 1#3 t ∧ t.rxAnswers = s.rxAnswers)
      ∧ (txNow s = .ok → rxNow (usedTx s) = .timeout → Completes (exec i s) fun t => Ended false 2#3 t)
      ∧ (txNow s = .ok → rxNow (usedTx s) = .err → Completes (exec i s) fun t => Ended false 1#3 t)
      ∧ (∀ c, txNow s = .ok → rxNow (usedTx s) = .capture c → (lows c).length < n →
          Completes (exec i s) fun t => Ended false 1#3 t)

/-- `WRITE_BYTES` whose buffer exists (R230, R207): the bytes go out in ascending order, each in a transmit of its own,
until the first that fails; `RESULT` is 1 exactly when all were sent, and no byte after a failing one is sent. -/
def Obligations.WriteBytesSendsUntilFailure : Prop :=
  ∀ (s : State) (pwr : Bool), s.drive = false → bufferA s + bufferL s ≤ 2 ^ s.params.addrW →
    Completes (exec (.writeBytes pwr) s) fun t =>
      ∃ k ≤ bufferL s, ∃ last : List Event,
        t.events = s.events
            ++ (List.range k).map (fun j => .transmit (bitsTrain s.params (s.mem.read (bufferA s + j)) 8) pwr .ok)
            ++ last
          ∧ ((k = bufferL s ∧ last = [] ∧ Ended true 0#3 t)
            ∨ (k < bufferL s ∧ Ended false 1#3 t
              ∧ ∃ us, last = [.transmit (bitsTrain s.params (s.mem.read (bufferA s + k)) 8) pwr (.err us)]))

/-- `WRITE_BYTES` on a channel whose next `L` transmits answer ok (R230): all `L` bytes are sent, `RESULT` = 1. -/
def Obligations.WriteBytesCompletes : Prop :=
  ∀ (s : State) (pwr : Bool) (rest : List TxAnswer), s.drive = false →
    bufferA s + bufferL s ≤ 2 ^ s.params.addrW → s.txAnswers = List.replicate (bufferL s) .ok ++ rest →
    Completes (exec (.writeBytes pwr) s) fun t =>
      Ended true 0#3 t ∧ t.txAnswers = rest ∧ t.events = s.events
        ++ (List.range (bufferL s)).map fun j => .transmit (bitsTrain s.params (s.mem.read (bufferA s + j)) 8) pwr .ok

/-- `READ_BYTES` on a channel whose next `L` groups are read (R250): each byte read is stored in its place, `RESULT` = 1,
`RDATA` is unchanged. -/
def Obligations.ReadBytesCompletes : Prop :=
  ∀ (s : State) (caps : List Capture) (txs : List TxAnswer) (rxs : List RxAnswer),
    s.mem.wf = true → s.drive = false → bufferA s + bufferL s ≤ 2 ^ s.params.addrW →
    caps.length = bufferL s → (∀ c ∈ caps, 8 ≤ (lows c).length) →
    s.txAnswers = List.replicate (bufferL s) .ok ++ txs → s.rxAnswers = caps.map .capture ++ rxs →
    Completes (exec .readBytes s) fun t =>
      Ended true 0#3 t ∧ t.rdata = s.rdata
        ∧ (∀ j, (h : j < caps.length) → decodeBits s.params caps[j] 8 = .ok (t.mem.read (bufferA s + j)))
        ∧ SameBytesOutside (bufferA s) (bufferL s) s t
        ∧ t.events = s.events
            ++ caps.flatMap (receiveEvents s.params.tIdleSlot s.params.tToRead (readTrain s.params 8))

/-- `READ_BYTES` whose group `k` fails after `k` groups were read (R250, R204, R207): on a receive that times out it ends
with `TIMEOUT`; on a failed receive, a capture with fewer than 8 low segments, or a failed transmit (and then no receive is
made) with `CHANNEL`. The bytes before it hold the values read, and the bytes after it are not accessed. -/
def Obligations.ReadBytesStopsAtFailingByte : Prop :=
  ∀ (s : State) (caps : List Capture) (txs : List TxAnswer) (rxs : List RxAnswer),
    s.mem.wf = true → bufferA s + bufferL s ≤ 2 ^ s.params.addrW →
    caps.length < bufferL s → (∀ c ∈ caps, 8 ≤ (lows c).length) →
    (s.txAnswers = List.replicate (caps.length + 1) .ok ++ txs →
      (s.rxAnswers = caps.map .capture ++ .timeout :: rxs →
          Completes (exec .readBytes s) (ReadStopped caps 2#3 txs rxs s))
        ∧ (s.rxAnswers = caps.map .capture ++ .err :: rxs →
          Completes (exec .readBytes s) (ReadStopped caps 1#3 txs rxs s))
        ∧ (∀ c, (lows c).length < 8 → s.rxAnswers = caps.map .capture ++ .capture c :: rxs →
          Completes (exec .readBytes s) (ReadStopped caps 1#3 txs rxs s)))
      ∧ (∀ us, s.txAnswers = List.replicate caps.length .ok ++ .err us :: txs →
          s.rxAnswers = caps.map .capture ++ rxs →
          Completes (exec .readBytes s) (ReadStopped caps 1#3 txs rxs s))

/-- `WRITE_BYTES` and `READ_BYTES` of length 0 complete with no channel call and no buffer access (R230, R250). -/
def Obligations.ZeroLengthCompletes : Prop :=
  ∀ (s : State) (pwr : Bool), bufferL s = 0 →
    (Completes (exec (.writeBytes pwr) s) fun t => Ended true 0#3 t ∧ NoChannelCall s t ∧ t.mem = s.mem)
      ∧ Completes (exec .readBytes s) fun t => Ended true 0#3 t ∧ NoChannelCall s t ∧ t.mem = s.mem

/-- R112: operations with the same bus effect, whose encodings stay distinct. -/
def Obligations.SameBusEffect : Prop :=
  ∀ s : State,
    (∀ v : Bool, SameEffect (exec (.writeBit v) s) (exec (.writeBits (zext8 v) 1 false) s)
        ∧ encode (.writeBit v) ≠ encode (.writeBits (zext8 v) 1 false))
      ∧ (∀ d : Byte, SameEffect (exec (.writeByte d) s) (exec (.writeBits d 8 false) s)
        ∧ encode (.writeByte d) ≠ encode (.writeBits d 8 false))
      ∧ (SameEffect (exec .readBit s) (exec (.readBits 1) s) ∧ encode .readBit ≠ encode (.readBits 1))
      ∧ (SameEffect (exec .readByte s) (exec (.readBits 8) s) ∧ encode .readByte ≠ encode (.readBits 8))
      ∧ SameEffect (exec .skip s) (exec (.writeByte 0xCC#8) s) ∧ encode .skip ≠ encode (.writeByte 0xCC#8)

/-! ### ROM addressing (spec 42_rom_commands.md) -/

/-- `SELECT` on a channel whose next nine transmits answer ok (R260): MATCH ROM, then the eight buffer bytes in ascending
order, one transmit each, `DRIVE` 0 throughout, `RESULT` = 1. -/
def Obligations.SelectSendsRom : Prop :=
  ∀ (s : State) (rest : List TxAnswer), s.drive = false → bufferA s + 8 ≤ 2 ^ s.params.addrW →
    s.txAnswers = List.replicate 9 .ok ++ rest →
    Completes (exec .select s) fun t =>
      Ended true 0#3 t ∧ t.txAnswers = rest ∧ t.events = s.events ++ .transmit (bitsTrain s.params 0x55#8 8) false .ok
        :: (List.range 8).map fun k => .transmit (bitsTrain s.params (s.mem.read (bufferA s + k)) 8) false .ok

/-- `SELECT` whose transmit `k` fails after `k` ok ones (R260, R207): `CHANNEL`, and nothing after it is sent. -/
def Obligations.SelectStopsAtFailure : Prop :=
  ∀ (s : State) (k us : Nat) (rest : List TxAnswer), bufferA s + 8 ≤ 2 ^ s.params.addrW → k < 9 →
    s.txAnswers = List.replicate k .ok ++ .err us :: rest →
    Completes (exec .select s) fun t =>
      Ended false 1#3 t ∧ t.txAnswers = rest ∧ t.events.length = s.events.length + k + 1

/-- `SKIP` (R265): exactly one transmit, of SKIP ROM LSB first, in the nominal figures of R13. -/
def Obligations.SkipSendsOneByte : Prop :=
  ∀ s : State, s.drive = false → txNow s = .ok →
    Completes (exec .skip s) fun t =>
      Ended true 0#3 t ∧ t.rdata = s.rdata ∧ t.search = s.search
        ∧ t.events = s.events ++ [.transmit
            (slot s.params false ++ slot s.params false ++ slot s.params true ++ slot s.params true
              ++ slot s.params false ++ slot s.params false ++ slot s.params true ++ slot s.params true
              ++ [.endMark]) false .ok]

/-- R76, R77: a buffer access at `2^ADDR_W` leaves the operation stuck, with no wrap. `SELECT` is stuck whenever one of its
eight addresses is not admitted; `WRITE_BYTES` and `READ_BYTES` when the groups before that byte succeed, and `READ_BYTES`
whatever the channel answers to the group whose byte has no place; `SEARCH` when its walk finds a device, whose ROM has no
place, and one that finds none completes with `RESULT` = 0 and stores nothing. "Stuck" is the fault `bufferNotAdmitted`, the
model's choice (log entry 8). -/
def Obligations.RefusedBufferAccessSticks : Prop :=
  ∀ s : State,
    (2 ^ s.params.addrW < bufferA s + 8 → exec .select s = .fault (.bufferNotAdmitted (2 ^ s.params.addrW)))
      ∧ (∀ (pwr : Bool) (k : Nat) (rest : List TxAnswer), bufferA s + k = 2 ^ s.params.addrW → k < bufferL s →
          s.txAnswers = List.replicate k .ok ++ rest →
          exec (.writeBytes pwr) s = .fault (.bufferNotAdmitted (2 ^ s.params.addrW)))
      ∧ (∀ (caps : List Capture) (txs : List TxAnswer) (rxs : List RxAnswer),
          bufferA s + caps.length = 2 ^ s.params.addrW → caps.length < bufferL s → (∀ c ∈ caps, 8 ≤ (lows c).length) →
          s.txAnswers = List.replicate caps.length .ok ++ txs → s.rxAnswers = caps.map .capture ++ rxs →
          exec .readBytes s = .fault (.bufferNotAdmitted (2 ^ s.params.addrW)))
      ∧ (2 ^ s.params.addrW < bufferA s + 8 → s.search.ldf = false → (searchBus (start .search s)).1 = .found →
          exec .search s = .fault (.bufferNotAdmitted (2 ^ s.params.addrW)))
      ∧ (2 ^ s.params.addrW < bufferA s + 8 → s.search.ldf = true ∨ (searchBus (start .search s)).1 ≠ .found →
          Completes (exec .search s) fun t => t.result = false ∧ t.mem = s.mem)

/-! ### ROM search (spec 43_search.md) -/

/-- R280: `RESET_SEARCH`, command word 0x0000000C, zeroes the SearchState, as at construction. -/
def Obligations.ResetSearchZeroes : Prop :=
  encode .resetSearch = 0x0000000C#32 ∧ ∀ s : State, Completes (exec .resetSearch s) fun t =>
    t.search = (State.construct s.params).search ∧ (∀ k < 8, romByte t.search.romNo k = 0x00#8) ∧ t.search.ld = 0#7 ∧ t.search.lfd = 0#4 ∧ t.search.ldf = false
      ∧ Ended true 0#3 t ∧ t.rdata = s.rdata ∧ NoChannelCall s t ∧ t.mem = s.mem

/-- R285: `TARGET_SEARCH` seeds the SearchState with a family; from that seed every discrepancy at positions 1 to 63 replays
the seeded bit, and the 1-branch is taken at position 64. -/
def Obligations.TargetSearchSeeds : Prop :=
  ∀ (s : State) (f : Byte), encode (.targetSearch f) = (0x0000000D#32 ||| (f.setWidth 32 <<< 16)) ∧ Completes (exec (.targetSearch f) s) fun t =>
    romByte t.search.romNo 0 = f ∧ (∀ k, 1 ≤ k → k < 8 → romByte t.search.romNo k = 0x00#8)
      ∧ t.search.ld = 64#7 ∧ t.search.lfd = 0#4 ∧ t.search.ldf = false
      ∧ Ended true 0#3 t ∧ t.rdata = s.rdata ∧ NoChannelCall s t ∧ t.mem = s.mem
      ∧ ∀ l : SearchLocals, l.idBit = l.cmpIdBit →
        (l.idBitNumber < 64 → chooseDirection t.search l = maskedBit t.search.romNo l.romByteNumber l.romByteMask)
          ∧ (l.idBitNumber = 64 → chooseDirection t.search l = true)

/-- R290: a `SEARCH` with `LDF` = 1 completes at once with `RESULT` = 0 and no error, with no channel call, no buffer
access and the SearchState unchanged. -/
def Obligations.SearchAfterLastDevice : Prop :=
  ∀ s : State, s.search.ldf = true → Completes (exec .search s) fun t =>
    Ended false 0#3 t ∧ NoChannelCall s t ∧ t.mem = s.mem ∧ t.search = s.search ∧ t.rdata = s.rdata

/-- A `SEARCH` whose eight buffer addresses exist always ends (R304): found, with `LDF` = 1 exactly when `LD` = 0, a ROM
whose family byte is not 0, and the ROM in the buffer (R300, R301, R303); or not found, or failed with `CHANNEL` or
`TIMEOUT` (R305), and then `LD`, `LFD` and `LDF` are 0 and the buffer is unchanged (R302: "The host buffer is not written";
93_implementation_defined.md U5 warns that hardware may differ there). Its channel calls say which (R305, `searchStop`): the
first whose answer does not let the search go on is the last it makes, and gives `ERR`: a failed transmit or receive and a
pair capture with fewer than two lows `CHANNEL`, a timeout `TIMEOUT`, a reset without presence and a (1,1) pair `NONE`. When
all 325 let it go on, they are those of a whole walk that leaves a ROM `rom`, and the search finds `rom` exactly when its
family byte is not 0. -/
def Obligations.SearchOutcomes : Prop :=
  ∀ s : State, s.mem.wf = true → s.search.ldf = false → bufferA s + 8 ≤ 2 ^ s.params.addrW →
    Completes (exec .search s) fun t =>
      ((Ended true 0#3 t ∧ (t.search.ldf = true ↔ t.search.ld = 0#7) ∧ romByte t.search.romNo 0 ≠ 0x00#8
          ∧ (∀ k < 8, t.mem.read (bufferA s + k) = romByte t.search.romNo k))
        ∨ ((Ended false 0#3 t ∨ Ended false 1#3 t ∨ Ended false 2#3 t)
          ∧ t.search.ld = 0#7 ∧ t.search.lfd = 0#4 ∧ t.search.ldf = false ∧ t.mem = s.mem))
      ∧ ∃ es, t.events = s.events ++ es
        ∧ ((∃ c, CallsStop s.params 0 es c ∧ Ended false c t)
          ∨ (CallsGoOn s.params 0 es ∧ es.length = 325
            ∧ ∃ rom, Ended (decide (romByte rom 0 ≠ 0x00#8)) 0#3 t ∧ (t.result = true → t.search.romNo = rom)
              ∧ ∃ presence caps, s.drive = false → es = walkEvents s.params presence caps rom))

/-- R291 and R302: a search whose reset decodes no presence ends with `RESULT` = 0 and no error, after the reset's four
calls and no other. -/
def Obligations.SearchWithoutPresence : Prop :=
  ∀ (s : State) (c : Capture), s.drive = false → s.search.ldf = false → bufferA s + 8 ≤ 2 ^ s.params.addrW →
    txNow s = .ok → rxNow (usedTx s) = .capture c → decodePresence s.params c = false →
    Completes (exec .search s) fun t =>
      Ended false 0#3 t ∧ t.search.ld = 0#7 ∧ t.search.lfd = 0#4 ∧ t.search.ldf = false ∧ t.mem = s.mem
        ∧ t.events = s.events ++ receiveEvents s.params.tIdleRst s.params.tToReset (resetTrain s.params) c

/-- A search that finds a device makes the channel calls of R313 in their order, all with `DRIVE` = 0, and the direction
written at each position is the bit of the ROM found: 130 transmits, 65 receives, 65 flushes, 65 threshold settings, and
`T_RSTL` + 200 slots of line time. -/
def Obligations.SearchTraffic : Prop :=
  ∀ s t : State, s.drive = false → exec .search s = .next t → t.result = true →
    ∃ presence caps,
      t.events = s.events ++ walkEvents s.params presence caps t.search.romNo
        ∧ decodePresence s.params presence = true
        ∧ (walkEvents s.params presence caps t.search.romNo).countP isTransmit = 130
        ∧ (walkEvents s.params presence caps t.search.romNo).countP isReceive = 65
        ∧ (walkEvents s.params presence caps t.search.romNo).countP isFlush = 65
        ∧ (walkEvents s.params presence caps t.search.romNo).countP isSetIdle = 65
        ∧ (s.params.Valid → lasts (lineHistory (walkEvents s.params presence caps t.search.romNo))
            = s.params.timing.tRstl + 200 * s.params.timing.tSlot)

/-- R292 to R303 together: a search descends the tree of the ROM codes that answer it. `ds` are the ROM codes on the bus
(family codes not 0), each position's pair is the wired AND of those that agree with `rom` so far, and `rom` is the code
the direction rule of R295 leads to: where both branches are taken, its bit is the replayed one below `LD`, 1 at `LD`, 0
above. The search finds `rom`, with `LD` the last position at which it took a 0 branch that has a 1 branch beside it, and
`LDF` = 1 exactly when there is none. -/
def Obligations.SearchFollowsTheTree : Prop :=
  ∀ (s : State) (ds : List (Vector Byte 8)) (rom : Vector Byte 8) (presence : Capture) (pair : Bool → Bool → Capture)
    (txs : List TxAnswer) (rxs : List RxAnswer),
    s.mem.wf = true → s.search.ldf = false → bufferA s + 8 ≤ 2 ^ s.params.addrW →
    rom ∈ ds → (∀ d ∈ ds, romByte d 0 ≠ 0x00#8) →
    decodePresence s.params presence = true →
    (∀ a b, decodeBits s.params (pair a b) 2 = .ok (packBits [a, b])) →
    (∀ p, 1 ≤ p → p ≤ 64 → forksAt ds rom p = true →
      romBit rom p = if p < s.search.ld.toNat then romBit s.search.romNo p else decide (p = s.search.ld.toNat)) →
    s.txAnswers = List.replicate 130 .ok ++ txs →
    s.rxAnswers = .capture presence
      :: (List.range 64).map (fun i => .capture (pair (idAnswer ds rom (i + 1)) (complementAnswer ds rom (i + 1)))) ++ rxs →
    Completes (exec .search s) fun t =>
      Ended true 0#3 t ∧ t.search.romNo = rom ∧ t.search.ld.toNat = lastZeroFork ds rom 64
        ∧ (t.search.ldf = true ↔ lastZeroFork ds rom 64 = 0)
        ∧ t.search.lfd.toNat = (if lastZeroFork ds rom 8 = 0 then s.search.lfd.toNat else lastZeroFork ds rom 8)
        ∧ (∀ k < 8, t.mem.read (bufferA s + k) = romByte rom k) ∧ t.txAnswers = txs ∧ t.rxAnswers = rxs

/-- R310, on the reference bus of 40_channel.md section 3: from a zeroed SearchState, `N` searches with nothing between
them that changes the SearchState. `roms` lists the devices' ROM codes (family codes not 0, all different) in tree order.
Search `k` finds `roms[k]` and stores it, with `LDF` = 1 on the last device exactly; every later search answers false,
with no channel call once a device was found. On an empty bus every search answers false and `LDF` stays 0. The bus
premise is `busRun` on each search's events, the model's form of that bus (log entries 16 and 24); `T_D0` < `T_SLOT`, which keeps
two slots' lows apart, is a premise of the model's own (log entry 17). -/
def Obligations.RepeatedSearchEnumerates : Prop :=
  ∀ (p : Params) (tm : BusTiming) (roms : List (Vector Byte 8)) (N : Nat) (s t : Nat → State) (b b' : Nat → RefBus),
    p.Valid → tm.Valid p → tm.tD0 < p.timing.tSlot →
    roms.Pairwise (fun x y => romKey x < romKey y) → (∀ x ∈ roms, romByte x 0 ≠ 0x00#8) →
    (s 0).search = SearchState.zero → (∀ k, k + 1 < N → (s (k + 1)).search = (t k).search) →
    (∀ k < N, (s k).params = p ∧ (s k).mem.wf = true ∧ ((b k).devices.map Device.rom).Perm roms
      ∧ exec .search (s k) = .next (t k) ∧ busRun p tm (b k) (newEvents (s k) (t k)) = some (b' k)) →
    ∀ k < N,
      (∀ h : k < roms.length,
        (t k).result = true ∧ (t k).search.romNo = roms[k] ∧ ((t k).search.ldf = true ↔ k + 1 = roms.length)
          ∧ ∀ i < 8, (t k).mem.read (bufferA (s k) + i) = romByte roms[k] i)
        ∧ (roms.length ≤ k →
          (t k).result = false ∧ (t k).err = 0#3 ∧ ((t k).search.ldf = true ↔ roms ≠ [])
            ∧ (roms ≠ [] → NoChannelCall (s k) (t k)))

/-- R311, the first search after `TARGET_SEARCH f` on the reference bus: it finds a device whenever there is one; one of
family `f` when there is one, and then the first of that family in tree order, but for codes that differ from it at
position 64 only. The bus and `T_D0` < `T_SLOT` are as in `RepeatedSearchEnumerates` (log entries 16, 17 and
24). -/
def Obligations.TargetedSearchFindsFamily : Prop :=
  ∀ (p : Params) (tm : BusTiming) (f : Byte) (s₀ s₁ s t : State) (b b' : RefBus),
    p.Valid → tm.Valid p → tm.tD0 < p.timing.tSlot →
    exec (.targetSearch f) s₀ = .next s₁ → s.search = s₁.search → s.params = p →
    b.devices ≠ [] → (∀ d ∈ b.devices, romByte d.rom 0 ≠ 0x00#8) →
    exec .search s = .next t → busRun p tm b (newEvents s t) = some b' →
      t.result = true ∧ t.search.romNo ∈ b.devices.map Device.rom
        ∧ ((∃ d ∈ b.devices, romByte d.rom 0 = f) →
          romByte t.search.romNo 0 = f
            ∧ ∀ d ∈ b.devices, romByte d.rom 0 = f →
                romKey t.search.romNo ≤ romKey d.rom ∨ agreesBefore t.search.romNo d.rom 64 = true)

/-- R294 and R295: the direction the walk takes at a position. -/
def Obligations.DirectionRule : Prop :=
  ∀ (x : SearchState) (l : SearchLocals),
    (l.idBit ≠ l.cmpIdBit → chooseDirection x l = l.idBit)
      ∧ (l.idBit = l.cmpIdBit → l.idBitNumber < x.ld.toNat →
          chooseDirection x l = ((romByte x.romNo l.romByteNumber &&& l.romByteMask) != 0x00#8))
      ∧ (l.idBit = l.cmpIdBit → l.idBitNumber = x.ld.toNat → chooseDirection x l = true)
      ∧ (l.idBit = l.cmpIdBit → x.ld.toNat < l.idBitNumber → chooseDirection x l = false)

/-- R296: a discrepancy given direction 0 sets `last_zero`, and `LFD` inside the family byte; nothing is recorded
otherwise. -/
def Obligations.ZeroBranchRecorded : Prop :=
  ∀ (x : SearchState) (l : SearchLocals),
    (l.idBit = l.cmpIdBit → l.direction = false →
        (recordLocals l).lastZero = l.idBitNumber
          ∧ (l.idBitNumber < 9 → (recordFamily l x).lfd.toNat = l.idBitNumber)
          ∧ (9 ≤ l.idBitNumber → recordFamily l x = x))
      ∧ (l.idBit ≠ l.cmpIdBit ∨ l.direction = true → recordLocals l = l ∧ recordFamily l x = x)

/-- R54 and R298: the pair (`rom_byte_number`, `rom_byte_mask`) names the present position and keeps doing so through the
advance of positions 1 to 64, and it selects that position's bit of `ROM_NO`: the update sets it to the direction and
leaves every other position alone. -/
def Obligations.PairNamesPosition : Prop :=
  ∀ (l : SearchLocals) (x : SearchState), 1 ≤ l.idBitNumber → l.idBitNumber ≤ 64 →
    l.romByteNumber = (l.idBitNumber - 1) / 8 → l.romByteMask = 1#8 <<< ((l.idBitNumber - 1) % 8) →
    (advance l).idBitNumber = l.idBitNumber + 1 ∧ (advance l).romByteNumber = l.idBitNumber / 8
      ∧ (advance l).romByteMask = 1#8 <<< (l.idBitNumber % 8)
      ∧ maskedBit x.romNo l.romByteNumber l.romByteMask = romBit x.romNo l.idBitNumber
      ∧ ∀ q, 1 ≤ q → q ≤ 64 →
          romBit (updateRom l x).romNo q = if q = l.idBitNumber then l.direction else romBit x.romNo q

/-! ### Frames -/

/-- What the reset, the writes and the ROM addressing operations leave alone: the Host's registers, the SearchState,
`RDATA`, and every byte of memory (R200, R210 to R230, R260, R265). -/
def Obligations.WritesFrame : Prop :=
  ∀ (s t : State) (i : Instr),
    (i = .reset ∨ (∃ v, i = .writeBit v) ∨ (∃ d n pwr, i = .writeBits d n pwr) ∨ (∃ d, i = .writeByte d)
      ∨ (∃ pwr, i = .writeBytes pwr) ∨ i = .select ∨ i = .skip) →
    exec i s = .next t → SameHost s t ∧ t.search = s.search ∧ t.rdata = s.rdata ∧ SameBytes s t

/-- The operations that make no receive call leave the idle threshold and the receive answers alone (R203, R280, R285). -/
def Obligations.WritesNeverReceive : Prop :=
  ∀ (s t : State) (i : Instr),
    ((∃ v, i = .writeBit v) ∨ (∃ d n pwr, i = .writeBits d n pwr) ∨ (∃ d, i = .writeByte d)
      ∨ (∃ pwr, i = .writeBytes pwr) ∨ i = .select ∨ i = .skip ∨ i = .resetSearch ∨ ∃ f, i = .targetSearch f) →
    exec i s = .next t →
      t.idleThreshold = s.idleThreshold ∧ t.rxAnswers = s.rxAnswers
        ∧ ∃ es, t.events = s.events ++ es ∧ ∀ e ∈ es, isTransmit e = true

/-- What the reads into `RDATA` leave alone (R200, R235 to R245). -/
def Obligations.ReadsFrame : Prop :=
  ∀ (s t : State) (i : Instr), (i = .readBit ∨ (∃ n, i = .readBits n) ∨ i = .readByte) →
    exec i s = .next t → SameHost s t ∧ t.search = s.search ∧ SameBytes s t

/-- What `READ_BYTES` leaves alone: everything but the bytes of its buffer (R200, R250). -/
def Obligations.ReadBytesFrame : Prop :=
  ∀ s t : State, exec .readBytes s = .next t →
    SameHost s t ∧ t.search = s.search ∧ t.rdata = s.rdata ∧ SameBytesOutside (bufferA s) (bufferL s) s t

/-- What the search operations leave alone (R280, R285, R302 to R304): only a `SEARCH` that finds a device stores, into the
eight bytes of its buffer. -/
def Obligations.SearchFrame : Prop :=
  ∀ (s t : State) (i : Instr), (i = .search ∨ i = .resetSearch ∨ ∃ f, i = .targetSearch f) →
    exec i s = .next t →
      SameHost s t ∧ t.rdata = s.rdata
        ∧ SameBytesOutside (bufferA s) 8 s t ∧ (¬(i = .search ∧ t.result = true) → SameBytes s t)

/-- R32: the SearchState is changed only by `SEARCH`, `TARGET_SEARCH` and `RESET_SEARCH`. -/
def Obligations.SearchStateWriters : Prop :=
  ∀ (s t : State) (i : Instr), exec i s = .next t → t.search ≠ s.search →
    i = .search ∨ i = .resetSearch ∨ ∃ f, i = .targetSearch f

/-! ### Invariants and whole-machine rules -/

/-- The state after construction, for every table, meets the invariant `State.Inv`, whose idle sequencer and canonical memory
are the model's own (log entries 3, 4 and 6). -/
def Obligations.ConstructionMeetsInvariant : Prop := ∀ p : Params, (State.construct p).Inv

/-- Every step keeps the invariant: open drain (R50), `LD`, `LFD` (R36) and `ERR` (R331) in their ranges, `RESULT` = 0 beside
an error (R332) and the bits of `BUF_ADDR` above `ADDR_W` 0 (R44), which are the spec's. Two parts are the MODEL's choice and
no rule of the block: that no operation runs between steps and the sequencer holds its placeholders there, because the model
gives each operation one step, as R11 allows (log entries 3 and 6, the latter unsafe for this very claim: a finer model has
states with `BUSY` = 1); and that the memory's list is in its canonical form, inside the address space (log entry 4). -/
def Obligations.StepKeepsInvariant : Prop := ∀ s t : State, s.Inv → step s = .next t → t.Inv

/-- No step changes the construction-time parameters (R13, R30), and none retracts what was put on the line (R91,
R162). -/
def Obligations.HistoryOnlyGrows : Prop :=
  ∀ s t : State, step s = .next t →
    t.params = s.params
      ∧ ∃ es, t.events = s.events ++ es ∧ lineHistory t.events = lineHistory s.events ++ lineHistory es

/-- R50 and R55: from open drain, every transmit of an operation has a train that fits the buffer, and strong pull only in
a `WRITE_BITS` or a `WRITE_BYTES` with the power flag. The channel's idle threshold afterwards is the last one the operation
set, or the one before it (40_channel.md R154). -/
def Obligations.BurstsFitAndPowerIsAskedFor : Prop :=
  ∀ (s t : State) (i : Instr), s.drive = false → exec i s = .next t →
    ∃ es, t.events = s.events ++ es ∧ t.idleThreshold = idleAfter s.idleThreshold es
      ∧ ∀ train drive a, Event.transmit train drive a ∈ es →
        itemCount train ≤ trainCap
          ∧ (drive = true → (∃ d n, i = .writeBits d n true) ∨ i = .writeBytes true)

/-- R332 and R333: the error kinds each operation can end with, and `RESULT` = 0 without an error only for `RESET` and
`SEARCH`. Every operation that ends leaves `BUSY` = 0, `DRIVE` = 0 and no current operation (R335, R336, R339). -/
def Obligations.ErrorKindsPerOperation : Prop :=
  ∀ (s t : State) (i : Instr), exec i s = .next t →
    Ended t.result t.err t
      ∧ (t.err = 0#3 ∨ t.err = 1#3 ∨ t.err = 2#3 ∨ t.err = 3#3)
      ∧ (t.err ≠ 0#3 → t.result = false)
      ∧ (t.err = 0#3 → t.result = false → i = .reset ∨ i = .search)
      ∧ (t.err = 2#3 → i = .reset ∨ i = .readBit ∨ (∃ n, i = .readBits n) ∨ i = .readByte ∨ i = .readBytes ∨ i = .search)
      ∧ (t.err = 3#3 → (∃ d n pwr, i = .writeBits d n pwr ∧ (n = 0 ∨ 8 < n)) ∨ ∃ n, i = .readBits n ∧ (n = 0 ∨ 8 < n))
      ∧ (t.err = 1#3 → i ≠ .resetSearch ∧ ∀ f, i ≠ .targetSearch f)
end

