-- ==== Sys2Proof/Laws/State.lean ====
section
/-! SUPPORT. One lemma per field per named update of the state, each true by definition, so that no proof unfolds a record
update. -/

namespace Sys2Proof.Machine

@[simp] theorem accept_params (op : Option Instr) (w : Word) (s : State) : (accept op w s).params = s.params := rfl
@[simp] theorem accept_search (op : Option Instr) (w : Word) (s : State) : (accept op w s).search = s.search := rfl
@[simp] theorem accept_busy (op : Option Instr) (w : Word) (s : State) : (accept op w s).busy = true := rfl
@[simp] theorem accept_result (op : Option Instr) (w : Word) (s : State) : (accept op w s).result = false := rfl
@[simp] theorem accept_err (op : Option Instr) (w : Word) (s : State) : (accept op w s).err = errNone := rfl
@[simp] theorem accept_rdata (op : Option Instr) (w : Word) (s : State) : (accept op w s).rdata = s.rdata := rfl
@[simp] theorem accept_bufAddr (op : Option Instr) (w : Word) (s : State) : (accept op w s).bufAddr = s.bufAddr := rfl
@[simp] theorem accept_bufLen (op : Option Instr) (w : Word) (s : State) : (accept op w s).bufLen = s.bufLen := rfl
@[simp] theorem accept_drive (op : Option Instr) (w : Word) (s : State) : (accept op w s).drive = s.drive := rfl
@[simp] theorem accept_seq (op : Option Instr) (w : Word) (s : State) : (accept op w s).seq = { Sequencer.idle with op := op, snap := ⟨w, bufAddrWord s, s.bufLen⟩ } := rfl
@[simp] theorem accept_mem (op : Option Instr) (w : Word) (s : State) : (accept op w s).mem = s.mem := rfl
@[simp] theorem accept_idleThreshold (op : Option Instr) (w : Word) (s : State) : (accept op w s).idleThreshold = s.idleThreshold := rfl
@[simp] theorem accept_txAnswers (op : Option Instr) (w : Word) (s : State) : (accept op w s).txAnswers = s.txAnswers := rfl
@[simp] theorem accept_rxAnswers (op : Option Instr) (w : Word) (s : State) : (accept op w s).rxAnswers = s.rxAnswers := rfl
@[simp] theorem accept_host (op : Option Instr) (w : Word) (s : State) : (accept op w s).host = s.host := rfl
@[simp] theorem accept_events (op : Option Instr) (w : Word) (s : State) : (accept op w s).events = s.events := rfl
@[simp] theorem accept_hostReads (op : Option Instr) (w : Word) (s : State) : (accept op w s).hostReads = s.hostReads := rfl
@[simp] theorem accept_draws (op : Option Instr) (w : Word) (s : State) : (accept op w s).draws = s.draws := rfl

@[simp] theorem start_params (i : Instr) (s : State) : (start i s).params = s.params := rfl
@[simp] theorem start_search (i : Instr) (s : State) : (start i s).search = s.search := rfl
@[simp] theorem start_busy (i : Instr) (s : State) : (start i s).busy = true := rfl
@[simp] theorem start_result (i : Instr) (s : State) : (start i s).result = false := rfl
@[simp] theorem start_err (i : Instr) (s : State) : (start i s).err = errNone := rfl
@[simp] theorem start_rdata (i : Instr) (s : State) : (start i s).rdata = s.rdata := rfl
@[simp] theorem start_bufAddr (i : Instr) (s : State) : (start i s).bufAddr = s.bufAddr := rfl
@[simp] theorem start_bufLen (i : Instr) (s : State) : (start i s).bufLen = s.bufLen := rfl
@[simp] theorem start_drive (i : Instr) (s : State) : (start i s).drive = s.drive := rfl
@[simp] theorem start_seq (i : Instr) (s : State) : (start i s).seq = { Sequencer.idle with op := some i, snap := ⟨encode i, bufAddrWord s, s.bufLen⟩ } := rfl
@[simp] theorem start_mem (i : Instr) (s : State) : (start i s).mem = s.mem := rfl
@[simp] theorem start_idleThreshold (i : Instr) (s : State) : (start i s).idleThreshold = s.idleThreshold := rfl
@[simp] theorem start_txAnswers (i : Instr) (s : State) : (start i s).txAnswers = s.txAnswers := rfl
@[simp] theorem start_rxAnswers (i : Instr) (s : State) : (start i s).rxAnswers = s.rxAnswers := rfl
@[simp] theorem start_host (i : Instr) (s : State) : (start i s).host = s.host := rfl
@[simp] theorem start_events (i : Instr) (s : State) : (start i s).events = s.events := rfl
@[simp] theorem start_hostReads (i : Instr) (s : State) : (start i s).hostReads = s.hostReads := rfl
@[simp] theorem start_draws (i : Instr) (s : State) : (start i s).draws = s.draws := rfl

@[simp] theorem complete_params (r : Bool) (s : State) : (complete r s).params = s.params := rfl
@[simp] theorem complete_search (r : Bool) (s : State) : (complete r s).search = s.search := rfl
@[simp] theorem complete_busy (r : Bool) (s : State) : (complete r s).busy = false := rfl
@[simp] theorem complete_result (r : Bool) (s : State) : (complete r s).result = r := rfl
@[simp] theorem complete_err (r : Bool) (s : State) : (complete r s).err = errNone := rfl
@[simp] theorem complete_rdata (r : Bool) (s : State) : (complete r s).rdata = s.rdata := rfl
@[simp] theorem complete_bufAddr (r : Bool) (s : State) : (complete r s).bufAddr = s.bufAddr := rfl
@[simp] theorem complete_bufLen (r : Bool) (s : State) : (complete r s).bufLen = s.bufLen := rfl
@[simp] theorem complete_drive (r : Bool) (s : State) : (complete r s).drive = false := rfl
@[simp] theorem complete_seq (r : Bool) (s : State) : (complete r s).seq = Sequencer.idle := rfl
@[simp] theorem complete_mem (r : Bool) (s : State) : (complete r s).mem = s.mem := rfl
@[simp] theorem complete_idleThreshold (r : Bool) (s : State) : (complete r s).idleThreshold = s.idleThreshold := rfl
@[simp] theorem complete_txAnswers (r : Bool) (s : State) : (complete r s).txAnswers = s.txAnswers := rfl
@[simp] theorem complete_rxAnswers (r : Bool) (s : State) : (complete r s).rxAnswers = s.rxAnswers := rfl
@[simp] theorem complete_host (r : Bool) (s : State) : (complete r s).host = s.host := rfl
@[simp] theorem complete_events (r : Bool) (s : State) : (complete r s).events = s.events := rfl
@[simp] theorem complete_hostReads (r : Bool) (s : State) : (complete r s).hostReads = s.hostReads := rfl
@[simp] theorem complete_draws (r : Bool) (s : State) : (complete r s).draws = s.draws := rfl

@[simp] theorem raise_params (k : ErrKind) (s : State) : (raise k s).params = s.params := rfl
@[simp] theorem raise_search (k : ErrKind) (s : State) : (raise k s).search = s.search := rfl
@[simp] theorem raise_busy (k : ErrKind) (s : State) : (raise k s).busy = false := rfl
@[simp] theorem raise_result (k : ErrKind) (s : State) : (raise k s).result = false := rfl
@[simp] theorem raise_err (k : ErrKind) (s : State) : (raise k s).err = errCode k := rfl
@[simp] theorem raise_rdata (k : ErrKind) (s : State) : (raise k s).rdata = s.rdata := rfl
@[simp] theorem raise_bufAddr (k : ErrKind) (s : State) : (raise k s).bufAddr = s.bufAddr := rfl
@[simp] theorem raise_bufLen (k : ErrKind) (s : State) : (raise k s).bufLen = s.bufLen := rfl
@[simp] theorem raise_drive (k : ErrKind) (s : State) : (raise k s).drive = false := rfl
@[simp] theorem raise_seq (k : ErrKind) (s : State) : (raise k s).seq = Sequencer.idle := rfl
@[simp] theorem raise_mem (k : ErrKind) (s : State) : (raise k s).mem = s.mem := rfl
@[simp] theorem raise_idleThreshold (k : ErrKind) (s : State) : (raise k s).idleThreshold = s.idleThreshold := rfl
@[simp] theorem raise_txAnswers (k : ErrKind) (s : State) : (raise k s).txAnswers = s.txAnswers := rfl
@[simp] theorem raise_rxAnswers (k : ErrKind) (s : State) : (raise k s).rxAnswers = s.rxAnswers := rfl
@[simp] theorem raise_host (k : ErrKind) (s : State) : (raise k s).host = s.host := rfl
@[simp] theorem raise_events (k : ErrKind) (s : State) : (raise k s).events = s.events := rfl
@[simp] theorem raise_hostReads (k : ErrKind) (s : State) : (raise k s).hostReads = s.hostReads := rfl
@[simp] theorem raise_draws (k : ErrKind) (s : State) : (raise k s).draws = s.draws := rfl

@[simp] theorem setRdata_params (v : Byte) (s : State) : (setRdata v s).params = s.params := rfl
@[simp] theorem setRdata_search (v : Byte) (s : State) : (setRdata v s).search = s.search := rfl
@[simp] theorem setRdata_busy (v : Byte) (s : State) : (setRdata v s).busy = s.busy := rfl
@[simp] theorem setRdata_result (v : Byte) (s : State) : (setRdata v s).result = s.result := rfl
@[simp] theorem setRdata_err (v : Byte) (s : State) : (setRdata v s).err = s.err := rfl
@[simp] theorem setRdata_rdata (v : Byte) (s : State) : (setRdata v s).rdata = v := rfl
@[simp] theorem setRdata_bufAddr (v : Byte) (s : State) : (setRdata v s).bufAddr = s.bufAddr := rfl
@[simp] theorem setRdata_bufLen (v : Byte) (s : State) : (setRdata v s).bufLen = s.bufLen := rfl
@[simp] theorem setRdata_drive (v : Byte) (s : State) : (setRdata v s).drive = s.drive := rfl
@[simp] theorem setRdata_seq (v : Byte) (s : State) : (setRdata v s).seq = s.seq := rfl
@[simp] theorem setRdata_mem (v : Byte) (s : State) : (setRdata v s).mem = s.mem := rfl
@[simp] theorem setRdata_idleThreshold (v : Byte) (s : State) : (setRdata v s).idleThreshold = s.idleThreshold := rfl
@[simp] theorem setRdata_txAnswers (v : Byte) (s : State) : (setRdata v s).txAnswers = s.txAnswers := rfl
@[simp] theorem setRdata_rxAnswers (v : Byte) (s : State) : (setRdata v s).rxAnswers = s.rxAnswers := rfl
@[simp] theorem setRdata_host (v : Byte) (s : State) : (setRdata v s).host = s.host := rfl
@[simp] theorem setRdata_events (v : Byte) (s : State) : (setRdata v s).events = s.events := rfl
@[simp] theorem setRdata_hostReads (v : Byte) (s : State) : (setRdata v s).hostReads = s.hostReads := rfl
@[simp] theorem setRdata_draws (v : Byte) (s : State) : (setRdata v s).draws = s.draws := rfl

@[simp] theorem drawn_params (s : State) : (drawn s).params = s.params := rfl
@[simp] theorem drawn_search (s : State) : (drawn s).search = s.search := rfl
@[simp] theorem drawn_busy (s : State) : (drawn s).busy = s.busy := rfl
@[simp] theorem drawn_result (s : State) : (drawn s).result = s.result := rfl
@[simp] theorem drawn_err (s : State) : (drawn s).err = s.err := rfl
@[simp] theorem drawn_rdata (s : State) : (drawn s).rdata = s.rdata := rfl
@[simp] theorem drawn_bufAddr (s : State) : (drawn s).bufAddr = s.bufAddr := rfl
@[simp] theorem drawn_bufLen (s : State) : (drawn s).bufLen = s.bufLen := rfl
@[simp] theorem drawn_drive (s : State) : (drawn s).drive = s.drive := rfl
@[simp] theorem drawn_seq (s : State) : (drawn s).seq = s.seq := rfl
@[simp] theorem drawn_mem (s : State) : (drawn s).mem = s.mem := rfl
@[simp] theorem drawn_idleThreshold (s : State) : (drawn s).idleThreshold = s.idleThreshold := rfl
@[simp] theorem drawn_txAnswers (s : State) : (drawn s).txAnswers = s.txAnswers := rfl
@[simp] theorem drawn_rxAnswers (s : State) : (drawn s).rxAnswers = s.rxAnswers := rfl
@[simp] theorem drawn_host (s : State) : (drawn s).host = s.host := rfl
@[simp] theorem drawn_events (s : State) : (drawn s).events = s.events := rfl
@[simp] theorem drawn_hostReads (s : State) : (drawn s).hostReads = s.hostReads := rfl
@[simp] theorem drawn_draws (s : State) : (drawn s).draws = s.draws + 1 := rfl

@[simp] theorem drawRdata_params (s : State) : (drawRdata s).params = s.params := rfl
@[simp] theorem drawRdata_search (s : State) : (drawRdata s).search = s.search := rfl
@[simp] theorem drawRdata_busy (s : State) : (drawRdata s).busy = s.busy := rfl
@[simp] theorem drawRdata_result (s : State) : (drawRdata s).result = s.result := rfl
@[simp] theorem drawRdata_err (s : State) : (drawRdata s).err = s.err := rfl
@[simp] theorem drawRdata_rdata (s : State) : (drawRdata s).rdata = freeByte s := rfl
@[simp] theorem drawRdata_bufAddr (s : State) : (drawRdata s).bufAddr = s.bufAddr := rfl
@[simp] theorem drawRdata_bufLen (s : State) : (drawRdata s).bufLen = s.bufLen := rfl
@[simp] theorem drawRdata_drive (s : State) : (drawRdata s).drive = s.drive := rfl
@[simp] theorem drawRdata_seq (s : State) : (drawRdata s).seq = s.seq := rfl
@[simp] theorem drawRdata_mem (s : State) : (drawRdata s).mem = s.mem := rfl
@[simp] theorem drawRdata_idleThreshold (s : State) : (drawRdata s).idleThreshold = s.idleThreshold := rfl
@[simp] theorem drawRdata_txAnswers (s : State) : (drawRdata s).txAnswers = s.txAnswers := rfl
@[simp] theorem drawRdata_rxAnswers (s : State) : (drawRdata s).rxAnswers = s.rxAnswers := rfl
@[simp] theorem drawRdata_host (s : State) : (drawRdata s).host = s.host := rfl
@[simp] theorem drawRdata_events (s : State) : (drawRdata s).events = s.events := rfl
@[simp] theorem drawRdata_hostReads (s : State) : (drawRdata s).hostReads = s.hostReads := rfl
@[simp] theorem drawRdata_draws (s : State) : (drawRdata s).draws = s.draws + 1 := rfl

@[simp] theorem memWrite_params (a : Nat) (v : Byte) (s : State) : (memWrite a v s).params = s.params := rfl
@[simp] theorem memWrite_search (a : Nat) (v : Byte) (s : State) : (memWrite a v s).search = s.search := rfl
@[simp] theorem memWrite_busy (a : Nat) (v : Byte) (s : State) : (memWrite a v s).busy = s.busy := rfl
@[simp] theorem memWrite_result (a : Nat) (v : Byte) (s : State) : (memWrite a v s).result = s.result := rfl
@[simp] theorem memWrite_err (a : Nat) (v : Byte) (s : State) : (memWrite a v s).err = s.err := rfl
@[simp] theorem memWrite_rdata (a : Nat) (v : Byte) (s : State) : (memWrite a v s).rdata = s.rdata := rfl
@[simp] theorem memWrite_bufAddr (a : Nat) (v : Byte) (s : State) : (memWrite a v s).bufAddr = s.bufAddr := rfl
@[simp] theorem memWrite_bufLen (a : Nat) (v : Byte) (s : State) : (memWrite a v s).bufLen = s.bufLen := rfl
@[simp] theorem memWrite_drive (a : Nat) (v : Byte) (s : State) : (memWrite a v s).drive = s.drive := rfl
@[simp] theorem memWrite_seq (a : Nat) (v : Byte) (s : State) : (memWrite a v s).seq = s.seq := rfl
@[simp] theorem memWrite_mem (a : Nat) (v : Byte) (s : State) : (memWrite a v s).mem = s.mem.write a v := rfl
@[simp] theorem memWrite_idleThreshold (a : Nat) (v : Byte) (s : State) : (memWrite a v s).idleThreshold = s.idleThreshold := rfl
@[simp] theorem memWrite_txAnswers (a : Nat) (v : Byte) (s : State) : (memWrite a v s).txAnswers = s.txAnswers := rfl
@[simp] theorem memWrite_rxAnswers (a : Nat) (v : Byte) (s : State) : (memWrite a v s).rxAnswers = s.rxAnswers := rfl
@[simp] theorem memWrite_host (a : Nat) (v : Byte) (s : State) : (memWrite a v s).host = s.host := rfl
@[simp] theorem memWrite_events (a : Nat) (v : Byte) (s : State) : (memWrite a v s).events = s.events := rfl
@[simp] theorem memWrite_hostReads (a : Nat) (v : Byte) (s : State) : (memWrite a v s).hostReads = s.hostReads := rfl
@[simp] theorem memWrite_draws (a : Nat) (v : Byte) (s : State) : (memWrite a v s).draws = s.draws := rfl

@[simp] theorem drawMem_params (a : Nat) (s : State) : (drawMem a s).params = s.params := rfl
@[simp] theorem drawMem_search (a : Nat) (s : State) : (drawMem a s).search = s.search := rfl
@[simp] theorem drawMem_busy (a : Nat) (s : State) : (drawMem a s).busy = s.busy := rfl
@[simp] theorem drawMem_result (a : Nat) (s : State) : (drawMem a s).result = s.result := rfl
@[simp] theorem drawMem_err (a : Nat) (s : State) : (drawMem a s).err = s.err := rfl
@[simp] theorem drawMem_rdata (a : Nat) (s : State) : (drawMem a s).rdata = s.rdata := rfl
@[simp] theorem drawMem_bufAddr (a : Nat) (s : State) : (drawMem a s).bufAddr = s.bufAddr := rfl
@[simp] theorem drawMem_bufLen (a : Nat) (s : State) : (drawMem a s).bufLen = s.bufLen := rfl
@[simp] theorem drawMem_drive (a : Nat) (s : State) : (drawMem a s).drive = s.drive := rfl
@[simp] theorem drawMem_seq (a : Nat) (s : State) : (drawMem a s).seq = s.seq := rfl
@[simp] theorem drawMem_mem (a : Nat) (s : State) : (drawMem a s).mem = s.mem.write a (freeByte s) := rfl
@[simp] theorem drawMem_idleThreshold (a : Nat) (s : State) : (drawMem a s).idleThreshold = s.idleThreshold := rfl
@[simp] theorem drawMem_txAnswers (a : Nat) (s : State) : (drawMem a s).txAnswers = s.txAnswers := rfl
@[simp] theorem drawMem_rxAnswers (a : Nat) (s : State) : (drawMem a s).rxAnswers = s.rxAnswers := rfl
@[simp] theorem drawMem_host (a : Nat) (s : State) : (drawMem a s).host = s.host := rfl
@[simp] theorem drawMem_events (a : Nat) (s : State) : (drawMem a s).events = s.events := rfl
@[simp] theorem drawMem_hostReads (a : Nat) (s : State) : (drawMem a s).hostReads = s.hostReads := rfl
@[simp] theorem drawMem_draws (a : Nat) (s : State) : (drawMem a s).draws = s.draws + 1 := rfl

@[simp] theorem setSearch_params (x : SearchState) (s : State) : (setSearch x s).params = s.params := rfl
@[simp] theorem setSearch_search (x : SearchState) (s : State) : (setSearch x s).search = x := rfl
@[simp] theorem setSearch_busy (x : SearchState) (s : State) : (setSearch x s).busy = s.busy := rfl
@[simp] theorem setSearch_result (x : SearchState) (s : State) : (setSearch x s).result = s.result := rfl
@[simp] theorem setSearch_err (x : SearchState) (s : State) : (setSearch x s).err = s.err := rfl
@[simp] theorem setSearch_rdata (x : SearchState) (s : State) : (setSearch x s).rdata = s.rdata := rfl
@[simp] theorem setSearch_bufAddr (x : SearchState) (s : State) : (setSearch x s).bufAddr = s.bufAddr := rfl
@[simp] theorem setSearch_bufLen (x : SearchState) (s : State) : (setSearch x s).bufLen = s.bufLen := rfl
@[simp] theorem setSearch_drive (x : SearchState) (s : State) : (setSearch x s).drive = s.drive := rfl
@[simp] theorem setSearch_seq (x : SearchState) (s : State) : (setSearch x s).seq = s.seq := rfl
@[simp] theorem setSearch_mem (x : SearchState) (s : State) : (setSearch x s).mem = s.mem := rfl
@[simp] theorem setSearch_idleThreshold (x : SearchState) (s : State) : (setSearch x s).idleThreshold = s.idleThreshold := rfl
@[simp] theorem setSearch_txAnswers (x : SearchState) (s : State) : (setSearch x s).txAnswers = s.txAnswers := rfl
@[simp] theorem setSearch_rxAnswers (x : SearchState) (s : State) : (setSearch x s).rxAnswers = s.rxAnswers := rfl
@[simp] theorem setSearch_host (x : SearchState) (s : State) : (setSearch x s).host = s.host := rfl
@[simp] theorem setSearch_events (x : SearchState) (s : State) : (setSearch x s).events = s.events := rfl
@[simp] theorem setSearch_hostReads (x : SearchState) (s : State) : (setSearch x s).hostReads = s.hostReads := rfl
@[simp] theorem setSearch_draws (x : SearchState) (s : State) : (setSearch x s).draws = s.draws := rfl

@[simp] theorem setLocals_params (l : SearchLocals) (s : State) : (setLocals l s).params = s.params := rfl
@[simp] theorem setLocals_search (l : SearchLocals) (s : State) : (setLocals l s).search = s.search := rfl
@[simp] theorem setLocals_busy (l : SearchLocals) (s : State) : (setLocals l s).busy = s.busy := rfl
@[simp] theorem setLocals_result (l : SearchLocals) (s : State) : (setLocals l s).result = s.result := rfl
@[simp] theorem setLocals_err (l : SearchLocals) (s : State) : (setLocals l s).err = s.err := rfl
@[simp] theorem setLocals_rdata (l : SearchLocals) (s : State) : (setLocals l s).rdata = s.rdata := rfl
@[simp] theorem setLocals_bufAddr (l : SearchLocals) (s : State) : (setLocals l s).bufAddr = s.bufAddr := rfl
@[simp] theorem setLocals_bufLen (l : SearchLocals) (s : State) : (setLocals l s).bufLen = s.bufLen := rfl
@[simp] theorem setLocals_drive (l : SearchLocals) (s : State) : (setLocals l s).drive = s.drive := rfl
@[simp] theorem setLocals_seq (l : SearchLocals) (s : State) : (setLocals l s).seq = { s.seq with search := l } := rfl
@[simp] theorem setLocals_mem (l : SearchLocals) (s : State) : (setLocals l s).mem = s.mem := rfl
@[simp] theorem setLocals_idleThreshold (l : SearchLocals) (s : State) : (setLocals l s).idleThreshold = s.idleThreshold := rfl
@[simp] theorem setLocals_txAnswers (l : SearchLocals) (s : State) : (setLocals l s).txAnswers = s.txAnswers := rfl
@[simp] theorem setLocals_rxAnswers (l : SearchLocals) (s : State) : (setLocals l s).rxAnswers = s.rxAnswers := rfl
@[simp] theorem setLocals_host (l : SearchLocals) (s : State) : (setLocals l s).host = s.host := rfl
@[simp] theorem setLocals_events (l : SearchLocals) (s : State) : (setLocals l s).events = s.events := rfl
@[simp] theorem setLocals_hostReads (l : SearchLocals) (s : State) : (setLocals l s).hostReads = s.hostReads := rfl
@[simp] theorem setLocals_draws (l : SearchLocals) (s : State) : (setLocals l s).draws = s.draws := rfl

@[simp] theorem nextIndex_params (s : State) : (nextIndex s).params = s.params := rfl
@[simp] theorem nextIndex_search (s : State) : (nextIndex s).search = s.search := rfl
@[simp] theorem nextIndex_busy (s : State) : (nextIndex s).busy = s.busy := rfl
@[simp] theorem nextIndex_result (s : State) : (nextIndex s).result = s.result := rfl
@[simp] theorem nextIndex_err (s : State) : (nextIndex s).err = s.err := rfl
@[simp] theorem nextIndex_rdata (s : State) : (nextIndex s).rdata = s.rdata := rfl
@[simp] theorem nextIndex_bufAddr (s : State) : (nextIndex s).bufAddr = s.bufAddr := rfl
@[simp] theorem nextIndex_bufLen (s : State) : (nextIndex s).bufLen = s.bufLen := rfl
@[simp] theorem nextIndex_drive (s : State) : (nextIndex s).drive = s.drive := rfl
@[simp] theorem nextIndex_seq (s : State) : (nextIndex s).seq = { s.seq with index := s.seq.index + 1 } := rfl
@[simp] theorem nextIndex_mem (s : State) : (nextIndex s).mem = s.mem := rfl
@[simp] theorem nextIndex_idleThreshold (s : State) : (nextIndex s).idleThreshold = s.idleThreshold := rfl
@[simp] theorem nextIndex_txAnswers (s : State) : (nextIndex s).txAnswers = s.txAnswers := rfl
@[simp] theorem nextIndex_rxAnswers (s : State) : (nextIndex s).rxAnswers = s.rxAnswers := rfl
@[simp] theorem nextIndex_host (s : State) : (nextIndex s).host = s.host := rfl
@[simp] theorem nextIndex_events (s : State) : (nextIndex s).events = s.events := rfl
@[simp] theorem nextIndex_hostReads (s : State) : (nextIndex s).hostReads = s.hostReads := rfl
@[simp] theorem nextIndex_draws (s : State) : (nextIndex s).draws = s.draws := rfl

@[simp] theorem setDrive_params (b : Bool) (s : State) : (setDrive b s).params = s.params := rfl
@[simp] theorem setDrive_search (b : Bool) (s : State) : (setDrive b s).search = s.search := rfl
@[simp] theorem setDrive_busy (b : Bool) (s : State) : (setDrive b s).busy = s.busy := rfl
@[simp] theorem setDrive_result (b : Bool) (s : State) : (setDrive b s).result = s.result := rfl
@[simp] theorem setDrive_err (b : Bool) (s : State) : (setDrive b s).err = s.err := rfl
@[simp] theorem setDrive_rdata (b : Bool) (s : State) : (setDrive b s).rdata = s.rdata := rfl
@[simp] theorem setDrive_bufAddr (b : Bool) (s : State) : (setDrive b s).bufAddr = s.bufAddr := rfl
@[simp] theorem setDrive_bufLen (b : Bool) (s : State) : (setDrive b s).bufLen = s.bufLen := rfl
@[simp] theorem setDrive_drive (b : Bool) (s : State) : (setDrive b s).drive = b := rfl
@[simp] theorem setDrive_seq (b : Bool) (s : State) : (setDrive b s).seq = s.seq := rfl
@[simp] theorem setDrive_mem (b : Bool) (s : State) : (setDrive b s).mem = s.mem := rfl
@[simp] theorem setDrive_idleThreshold (b : Bool) (s : State) : (setDrive b s).idleThreshold = s.idleThreshold := rfl
@[simp] theorem setDrive_txAnswers (b : Bool) (s : State) : (setDrive b s).txAnswers = s.txAnswers := rfl
@[simp] theorem setDrive_rxAnswers (b : Bool) (s : State) : (setDrive b s).rxAnswers = s.rxAnswers := rfl
@[simp] theorem setDrive_host (b : Bool) (s : State) : (setDrive b s).host = s.host := rfl
@[simp] theorem setDrive_events (b : Bool) (s : State) : (setDrive b s).events = s.events := rfl
@[simp] theorem setDrive_hostReads (b : Bool) (s : State) : (setDrive b s).hostReads = s.hostReads := rfl
@[simp] theorem setDrive_draws (b : Bool) (s : State) : (setDrive b s).draws = s.draws := rfl

@[simp] theorem loadTrain_params (t : Train) (s : State) : (loadTrain t s).params = s.params := rfl
@[simp] theorem loadTrain_search (t : Train) (s : State) : (loadTrain t s).search = s.search := rfl
@[simp] theorem loadTrain_busy (t : Train) (s : State) : (loadTrain t s).busy = s.busy := rfl
@[simp] theorem loadTrain_result (t : Train) (s : State) : (loadTrain t s).result = s.result := rfl
@[simp] theorem loadTrain_err (t : Train) (s : State) : (loadTrain t s).err = s.err := rfl
@[simp] theorem loadTrain_rdata (t : Train) (s : State) : (loadTrain t s).rdata = s.rdata := rfl
@[simp] theorem loadTrain_bufAddr (t : Train) (s : State) : (loadTrain t s).bufAddr = s.bufAddr := rfl
@[simp] theorem loadTrain_bufLen (t : Train) (s : State) : (loadTrain t s).bufLen = s.bufLen := rfl
@[simp] theorem loadTrain_drive (t : Train) (s : State) : (loadTrain t s).drive = s.drive := rfl
@[simp] theorem loadTrain_seq (t : Train) (s : State) : (loadTrain t s).seq = { s.seq with train := t } := rfl
@[simp] theorem loadTrain_mem (t : Train) (s : State) : (loadTrain t s).mem = s.mem := rfl
@[simp] theorem loadTrain_idleThreshold (t : Train) (s : State) : (loadTrain t s).idleThreshold = s.idleThreshold := rfl
@[simp] theorem loadTrain_txAnswers (t : Train) (s : State) : (loadTrain t s).txAnswers = s.txAnswers := rfl
@[simp] theorem loadTrain_rxAnswers (t : Train) (s : State) : (loadTrain t s).rxAnswers = s.rxAnswers := rfl
@[simp] theorem loadTrain_host (t : Train) (s : State) : (loadTrain t s).host = s.host := rfl
@[simp] theorem loadTrain_events (t : Train) (s : State) : (loadTrain t s).events = s.events := rfl
@[simp] theorem loadTrain_hostReads (t : Train) (s : State) : (loadTrain t s).hostReads = s.hostReads := rfl
@[simp] theorem loadTrain_draws (t : Train) (s : State) : (loadTrain t s).draws = s.draws := rfl

@[simp] theorem emit_params (e : Event) (s : State) : (emit e s).params = s.params := rfl
@[simp] theorem emit_search (e : Event) (s : State) : (emit e s).search = s.search := rfl
@[simp] theorem emit_busy (e : Event) (s : State) : (emit e s).busy = s.busy := rfl
@[simp] theorem emit_result (e : Event) (s : State) : (emit e s).result = s.result := rfl
@[simp] theorem emit_err (e : Event) (s : State) : (emit e s).err = s.err := rfl
@[simp] theorem emit_rdata (e : Event) (s : State) : (emit e s).rdata = s.rdata := rfl
@[simp] theorem emit_bufAddr (e : Event) (s : State) : (emit e s).bufAddr = s.bufAddr := rfl
@[simp] theorem emit_bufLen (e : Event) (s : State) : (emit e s).bufLen = s.bufLen := rfl
@[simp] theorem emit_drive (e : Event) (s : State) : (emit e s).drive = s.drive := rfl
@[simp] theorem emit_seq (e : Event) (s : State) : (emit e s).seq = s.seq := rfl
@[simp] theorem emit_mem (e : Event) (s : State) : (emit e s).mem = s.mem := rfl
@[simp] theorem emit_idleThreshold (e : Event) (s : State) : (emit e s).idleThreshold = s.idleThreshold := rfl
@[simp] theorem emit_txAnswers (e : Event) (s : State) : (emit e s).txAnswers = s.txAnswers := rfl
@[simp] theorem emit_rxAnswers (e : Event) (s : State) : (emit e s).rxAnswers = s.rxAnswers := rfl
@[simp] theorem emit_host (e : Event) (s : State) : (emit e s).host = s.host := rfl
@[simp] theorem emit_events (e : Event) (s : State) : (emit e s).events = s.events ++ [e] := rfl
@[simp] theorem emit_hostReads (e : Event) (s : State) : (emit e s).hostReads = s.hostReads := rfl
@[simp] theorem emit_draws (e : Event) (s : State) : (emit e s).draws = s.draws := rfl

@[simp] theorem chFlush_params (s : State) : (chFlush s).params = s.params := rfl
@[simp] theorem chFlush_search (s : State) : (chFlush s).search = s.search := rfl
@[simp] theorem chFlush_busy (s : State) : (chFlush s).busy = s.busy := rfl
@[simp] theorem chFlush_result (s : State) : (chFlush s).result = s.result := rfl
@[simp] theorem chFlush_err (s : State) : (chFlush s).err = s.err := rfl
@[simp] theorem chFlush_rdata (s : State) : (chFlush s).rdata = s.rdata := rfl
@[simp] theorem chFlush_bufAddr (s : State) : (chFlush s).bufAddr = s.bufAddr := rfl
@[simp] theorem chFlush_bufLen (s : State) : (chFlush s).bufLen = s.bufLen := rfl
@[simp] theorem chFlush_drive (s : State) : (chFlush s).drive = s.drive := rfl
@[simp] theorem chFlush_seq (s : State) : (chFlush s).seq = s.seq := rfl
@[simp] theorem chFlush_mem (s : State) : (chFlush s).mem = s.mem := rfl
@[simp] theorem chFlush_idleThreshold (s : State) : (chFlush s).idleThreshold = s.idleThreshold := rfl
@[simp] theorem chFlush_txAnswers (s : State) : (chFlush s).txAnswers = s.txAnswers := rfl
@[simp] theorem chFlush_rxAnswers (s : State) : (chFlush s).rxAnswers = s.rxAnswers := rfl
@[simp] theorem chFlush_host (s : State) : (chFlush s).host = s.host := rfl
@[simp] theorem chFlush_events (s : State) : (chFlush s).events = s.events ++ [.flush] := rfl
@[simp] theorem chFlush_hostReads (s : State) : (chFlush s).hostReads = s.hostReads := rfl
@[simp] theorem chFlush_draws (s : State) : (chFlush s).draws = s.draws := rfl

@[simp] theorem chSetIdle_params (d : Nat) (s : State) : (chSetIdle d s).params = s.params := rfl
@[simp] theorem chSetIdle_search (d : Nat) (s : State) : (chSetIdle d s).search = s.search := rfl
@[simp] theorem chSetIdle_busy (d : Nat) (s : State) : (chSetIdle d s).busy = s.busy := rfl
@[simp] theorem chSetIdle_result (d : Nat) (s : State) : (chSetIdle d s).result = s.result := rfl
@[simp] theorem chSetIdle_err (d : Nat) (s : State) : (chSetIdle d s).err = s.err := rfl
@[simp] theorem chSetIdle_rdata (d : Nat) (s : State) : (chSetIdle d s).rdata = s.rdata := rfl
@[simp] theorem chSetIdle_bufAddr (d : Nat) (s : State) : (chSetIdle d s).bufAddr = s.bufAddr := rfl
@[simp] theorem chSetIdle_bufLen (d : Nat) (s : State) : (chSetIdle d s).bufLen = s.bufLen := rfl
@[simp] theorem chSetIdle_drive (d : Nat) (s : State) : (chSetIdle d s).drive = s.drive := rfl
@[simp] theorem chSetIdle_seq (d : Nat) (s : State) : (chSetIdle d s).seq = s.seq := rfl
@[simp] theorem chSetIdle_mem (d : Nat) (s : State) : (chSetIdle d s).mem = s.mem := rfl
@[simp] theorem chSetIdle_idleThreshold (d : Nat) (s : State) : (chSetIdle d s).idleThreshold = d := rfl
@[simp] theorem chSetIdle_txAnswers (d : Nat) (s : State) : (chSetIdle d s).txAnswers = s.txAnswers := rfl
@[simp] theorem chSetIdle_rxAnswers (d : Nat) (s : State) : (chSetIdle d s).rxAnswers = s.rxAnswers := rfl
@[simp] theorem chSetIdle_host (d : Nat) (s : State) : (chSetIdle d s).host = s.host := rfl
@[simp] theorem chSetIdle_events (d : Nat) (s : State) : (chSetIdle d s).events = s.events ++ [.setIdle d] := rfl
@[simp] theorem chSetIdle_hostReads (d : Nat) (s : State) : (chSetIdle d s).hostReads = s.hostReads := rfl
@[simp] theorem chSetIdle_draws (d : Nat) (s : State) : (chSetIdle d s).draws = s.draws := rfl

@[simp] theorem usedTx_params (s : State) : (usedTx s).params = s.params := rfl
@[simp] theorem usedTx_search (s : State) : (usedTx s).search = s.search := rfl
@[simp] theorem usedTx_busy (s : State) : (usedTx s).busy = s.busy := rfl
@[simp] theorem usedTx_result (s : State) : (usedTx s).result = s.result := rfl
@[simp] theorem usedTx_err (s : State) : (usedTx s).err = s.err := rfl
@[simp] theorem usedTx_rdata (s : State) : (usedTx s).rdata = s.rdata := rfl
@[simp] theorem usedTx_bufAddr (s : State) : (usedTx s).bufAddr = s.bufAddr := rfl
@[simp] theorem usedTx_bufLen (s : State) : (usedTx s).bufLen = s.bufLen := rfl
@[simp] theorem usedTx_drive (s : State) : (usedTx s).drive = s.drive := rfl
@[simp] theorem usedTx_seq (s : State) : (usedTx s).seq = s.seq := rfl
@[simp] theorem usedTx_mem (s : State) : (usedTx s).mem = s.mem := rfl
@[simp] theorem usedTx_idleThreshold (s : State) : (usedTx s).idleThreshold = s.idleThreshold := rfl
@[simp] theorem usedTx_txAnswers (s : State) : (usedTx s).txAnswers = s.txAnswers.tail := rfl
@[simp] theorem usedTx_rxAnswers (s : State) : (usedTx s).rxAnswers = s.rxAnswers := rfl
@[simp] theorem usedTx_host (s : State) : (usedTx s).host = s.host := rfl
@[simp] theorem usedTx_events (s : State) : (usedTx s).events = s.events := rfl
@[simp] theorem usedTx_hostReads (s : State) : (usedTx s).hostReads = s.hostReads := rfl
@[simp] theorem usedTx_draws (s : State) : (usedTx s).draws = if s.txAnswers.isEmpty then s.draws + 1 else s.draws := rfl

@[simp] theorem usedRx_params (s : State) : (usedRx s).params = s.params := rfl
@[simp] theorem usedRx_search (s : State) : (usedRx s).search = s.search := rfl
@[simp] theorem usedRx_busy (s : State) : (usedRx s).busy = s.busy := rfl
@[simp] theorem usedRx_result (s : State) : (usedRx s).result = s.result := rfl
@[simp] theorem usedRx_err (s : State) : (usedRx s).err = s.err := rfl
@[simp] theorem usedRx_rdata (s : State) : (usedRx s).rdata = s.rdata := rfl
@[simp] theorem usedRx_bufAddr (s : State) : (usedRx s).bufAddr = s.bufAddr := rfl
@[simp] theorem usedRx_bufLen (s : State) : (usedRx s).bufLen = s.bufLen := rfl
@[simp] theorem usedRx_drive (s : State) : (usedRx s).drive = s.drive := rfl
@[simp] theorem usedRx_seq (s : State) : (usedRx s).seq = s.seq := rfl
@[simp] theorem usedRx_mem (s : State) : (usedRx s).mem = s.mem := rfl
@[simp] theorem usedRx_idleThreshold (s : State) : (usedRx s).idleThreshold = s.idleThreshold := rfl
@[simp] theorem usedRx_txAnswers (s : State) : (usedRx s).txAnswers = s.txAnswers := rfl
@[simp] theorem usedRx_rxAnswers (s : State) : (usedRx s).rxAnswers = s.rxAnswers.tail := rfl
@[simp] theorem usedRx_host (s : State) : (usedRx s).host = s.host := rfl
@[simp] theorem usedRx_events (s : State) : (usedRx s).events = s.events := rfl
@[simp] theorem usedRx_hostReads (s : State) : (usedRx s).hostReads = s.hostReads := rfl
@[simp] theorem usedRx_draws (s : State) : (usedRx s).draws = if s.rxAnswers.isEmpty then s.draws + 1 else s.draws := rfl

@[simp] theorem chTransmit_params (s : State) : (chTransmit s).params = s.params := rfl
@[simp] theorem chTransmit_search (s : State) : (chTransmit s).search = s.search := rfl
@[simp] theorem chTransmit_busy (s : State) : (chTransmit s).busy = s.busy := rfl
@[simp] theorem chTransmit_result (s : State) : (chTransmit s).result = s.result := rfl
@[simp] theorem chTransmit_err (s : State) : (chTransmit s).err = s.err := rfl
@[simp] theorem chTransmit_rdata (s : State) : (chTransmit s).rdata = s.rdata := rfl
@[simp] theorem chTransmit_bufAddr (s : State) : (chTransmit s).bufAddr = s.bufAddr := rfl
@[simp] theorem chTransmit_bufLen (s : State) : (chTransmit s).bufLen = s.bufLen := rfl
@[simp] theorem chTransmit_drive (s : State) : (chTransmit s).drive = s.drive := rfl
@[simp] theorem chTransmit_seq (s : State) : (chTransmit s).seq = s.seq := rfl
@[simp] theorem chTransmit_mem (s : State) : (chTransmit s).mem = s.mem := rfl
@[simp] theorem chTransmit_idleThreshold (s : State) : (chTransmit s).idleThreshold = s.idleThreshold := rfl
@[simp] theorem chTransmit_txAnswers (s : State) : (chTransmit s).txAnswers = s.txAnswers.tail := rfl
@[simp] theorem chTransmit_rxAnswers (s : State) : (chTransmit s).rxAnswers = s.rxAnswers := rfl
@[simp] theorem chTransmit_host (s : State) : (chTransmit s).host = s.host := rfl
@[simp] theorem chTransmit_events (s : State) : (chTransmit s).events = s.events ++ [.transmit s.seq.train s.drive (txNow s)] := rfl
@[simp] theorem chTransmit_hostReads (s : State) : (chTransmit s).hostReads = s.hostReads := rfl
@[simp] theorem chTransmit_draws (s : State) : (chTransmit s).draws = if s.txAnswers.isEmpty then s.draws + 1 else s.draws := rfl

@[simp] theorem chReceive_params (t : Nat) (s : State) : (chReceive t s).params = s.params := rfl
@[simp] theorem chReceive_search (t : Nat) (s : State) : (chReceive t s).search = s.search := rfl
@[simp] theorem chReceive_busy (t : Nat) (s : State) : (chReceive t s).busy = s.busy := rfl
@[simp] theorem chReceive_result (t : Nat) (s : State) : (chReceive t s).result = s.result := rfl
@[simp] theorem chReceive_err (t : Nat) (s : State) : (chReceive t s).err = s.err := rfl
@[simp] theorem chReceive_rdata (t : Nat) (s : State) : (chReceive t s).rdata = s.rdata := rfl
@[simp] theorem chReceive_bufAddr (t : Nat) (s : State) : (chReceive t s).bufAddr = s.bufAddr := rfl
@[simp] theorem chReceive_bufLen (t : Nat) (s : State) : (chReceive t s).bufLen = s.bufLen := rfl
@[simp] theorem chReceive_drive (t : Nat) (s : State) : (chReceive t s).drive = s.drive := rfl
@[simp] theorem chReceive_seq (t : Nat) (s : State) : (chReceive t s).seq = s.seq := rfl
@[simp] theorem chReceive_mem (t : Nat) (s : State) : (chReceive t s).mem = s.mem := rfl
@[simp] theorem chReceive_idleThreshold (t : Nat) (s : State) : (chReceive t s).idleThreshold = s.idleThreshold := rfl
@[simp] theorem chReceive_txAnswers (t : Nat) (s : State) : (chReceive t s).txAnswers = s.txAnswers := rfl
@[simp] theorem chReceive_rxAnswers (t : Nat) (s : State) : (chReceive t s).rxAnswers = s.rxAnswers.tail := rfl
@[simp] theorem chReceive_host (t : Nat) (s : State) : (chReceive t s).host = s.host := rfl
@[simp] theorem chReceive_events (t : Nat) (s : State) : (chReceive t s).events = s.events ++ [.receive t (rxNow s)] := rfl
@[simp] theorem chReceive_hostReads (t : Nat) (s : State) : (chReceive t s).hostReads = s.hostReads := rfl
@[simp] theorem chReceive_draws (t : Nat) (s : State) : (chReceive t s).draws = if s.rxAnswers.isEmpty then s.draws + 1 else s.draws := rfl

@[simp] theorem receiveBurst_params (idle : Nat) (t : Train) (s : State) : (receiveBurst idle t s).params = s.params := by simp [receiveBurst]
@[simp] theorem receiveBurst_search (idle : Nat) (t : Train) (s : State) : (receiveBurst idle t s).search = s.search := by simp [receiveBurst]
@[simp] theorem receiveBurst_busy (idle : Nat) (t : Train) (s : State) : (receiveBurst idle t s).busy = s.busy := by simp [receiveBurst]
@[simp] theorem receiveBurst_result (idle : Nat) (t : Train) (s : State) : (receiveBurst idle t s).result = s.result := by simp [receiveBurst]
@[simp] theorem receiveBurst_err (idle : Nat) (t : Train) (s : State) : (receiveBurst idle t s).err = s.err := by simp [receiveBurst]
@[simp] theorem receiveBurst_rdata (idle : Nat) (t : Train) (s : State) : (receiveBurst idle t s).rdata = s.rdata := by simp [receiveBurst]
@[simp] theorem receiveBurst_bufAddr (idle : Nat) (t : Train) (s : State) : (receiveBurst idle t s).bufAddr = s.bufAddr := by simp [receiveBurst]
@[simp] theorem receiveBurst_bufLen (idle : Nat) (t : Train) (s : State) : (receiveBurst idle t s).bufLen = s.bufLen := by simp [receiveBurst]
@[simp] theorem receiveBurst_drive (idle : Nat) (t : Train) (s : State) : (receiveBurst idle t s).drive = s.drive := by simp [receiveBurst]
@[simp] theorem receiveBurst_seq (idle : Nat) (t : Train) (s : State) : (receiveBurst idle t s).seq = { s.seq with train := t } := by simp [receiveBurst]
@[simp] theorem receiveBurst_mem (idle : Nat) (t : Train) (s : State) : (receiveBurst idle t s).mem = s.mem := by simp [receiveBurst]
@[simp] theorem receiveBurst_idleThreshold (idle : Nat) (t : Train) (s : State) : (receiveBurst idle t s).idleThreshold = idle := by simp [receiveBurst]
@[simp] theorem receiveBurst_txAnswers (idle : Nat) (t : Train) (s : State) : (receiveBurst idle t s).txAnswers = s.txAnswers.tail := by simp [receiveBurst]
@[simp] theorem receiveBurst_rxAnswers (idle : Nat) (t : Train) (s : State) : (receiveBurst idle t s).rxAnswers = s.rxAnswers := by simp [receiveBurst]
@[simp] theorem receiveBurst_host (idle : Nat) (t : Train) (s : State) : (receiveBurst idle t s).host = s.host := by simp [receiveBurst]
@[simp] theorem receiveBurst_hostReads (idle : Nat) (t : Train) (s : State) : (receiveBurst idle t s).hostReads = s.hostReads := by simp [receiveBurst]
@[simp] theorem receiveBurst_draws (idle : Nat) (t : Train) (s : State) : (receiveBurst idle t s).draws = if s.txAnswers.isEmpty then s.draws + 1 else s.draws := by simp [receiveBurst]

@[simp] theorem writeBurst_params (d : Byte) (n : Nat) (pwr : Bool) (s : State) : (writeBurst d n pwr s).params = s.params := by cases pwr <;> simp [writeBurst]
@[simp] theorem writeBurst_search (d : Byte) (n : Nat) (pwr : Bool) (s : State) : (writeBurst d n pwr s).search = s.search := by cases pwr <;> simp [writeBurst]
@[simp] theorem writeBurst_busy (d : Byte) (n : Nat) (pwr : Bool) (s : State) : (writeBurst d n pwr s).busy = s.busy := by cases pwr <;> simp [writeBurst]
@[simp] theorem writeBurst_result (d : Byte) (n : Nat) (pwr : Bool) (s : State) : (writeBurst d n pwr s).result = s.result := by cases pwr <;> simp [writeBurst]
@[simp] theorem writeBurst_err (d : Byte) (n : Nat) (pwr : Bool) (s : State) : (writeBurst d n pwr s).err = s.err := by cases pwr <;> simp [writeBurst]
@[simp] theorem writeBurst_rdata (d : Byte) (n : Nat) (pwr : Bool) (s : State) : (writeBurst d n pwr s).rdata = s.rdata := by cases pwr <;> simp [writeBurst]
@[simp] theorem writeBurst_bufAddr (d : Byte) (n : Nat) (pwr : Bool) (s : State) : (writeBurst d n pwr s).bufAddr = s.bufAddr := by cases pwr <;> simp [writeBurst]
@[simp] theorem writeBurst_bufLen (d : Byte) (n : Nat) (pwr : Bool) (s : State) : (writeBurst d n pwr s).bufLen = s.bufLen := by cases pwr <;> simp [writeBurst]
@[simp] theorem writeBurst_drive (d : Byte) (n : Nat) (pwr : Bool) (s : State) : (writeBurst d n pwr s).drive = false := by cases pwr <;> simp [writeBurst]
@[simp] theorem writeBurst_seq (d : Byte) (n : Nat) (pwr : Bool) (s : State) : (writeBurst d n pwr s).seq = { s.seq with train := bitsTrain s.params d n } := by cases pwr <;> simp [writeBurst]
@[simp] theorem writeBurst_mem (d : Byte) (n : Nat) (pwr : Bool) (s : State) : (writeBurst d n pwr s).mem = s.mem := by cases pwr <;> simp [writeBurst]
@[simp] theorem writeBurst_idleThreshold (d : Byte) (n : Nat) (pwr : Bool) (s : State) : (writeBurst d n pwr s).idleThreshold = s.idleThreshold := by cases pwr <;> simp [writeBurst]
@[simp] theorem writeBurst_txAnswers (d : Byte) (n : Nat) (pwr : Bool) (s : State) : (writeBurst d n pwr s).txAnswers = s.txAnswers.tail := by cases pwr <;> simp [writeBurst]
@[simp] theorem writeBurst_rxAnswers (d : Byte) (n : Nat) (pwr : Bool) (s : State) : (writeBurst d n pwr s).rxAnswers = s.rxAnswers := by cases pwr <;> simp [writeBurst]
@[simp] theorem writeBurst_host (d : Byte) (n : Nat) (pwr : Bool) (s : State) : (writeBurst d n pwr s).host = s.host := by cases pwr <;> simp [writeBurst]
@[simp] theorem writeBurst_hostReads (d : Byte) (n : Nat) (pwr : Bool) (s : State) : (writeBurst d n pwr s).hostReads = s.hostReads := by cases pwr <;> simp [writeBurst]
@[simp] theorem writeBurst_draws (d : Byte) (n : Nat) (pwr : Bool) (s : State) : (writeBurst d n pwr s).draws = if s.txAnswers.isEmpty then s.draws + 1 else s.draws := by cases pwr <;> simp [writeBurst]

@[simp] theorem afterPair_params (v : Byte) (s : State) : (afterPair v s).params = s.params := rfl
@[simp] theorem afterPair_search (v : Byte) (s : State) : (afterPair v s).search = recordFamily (withPair v s.search s.seq.search) s.search := rfl
@[simp] theorem afterPair_busy (v : Byte) (s : State) : (afterPair v s).busy = s.busy := rfl
@[simp] theorem afterPair_result (v : Byte) (s : State) : (afterPair v s).result = s.result := rfl
@[simp] theorem afterPair_err (v : Byte) (s : State) : (afterPair v s).err = s.err := rfl
@[simp] theorem afterPair_rdata (v : Byte) (s : State) : (afterPair v s).rdata = s.rdata := rfl
@[simp] theorem afterPair_bufAddr (v : Byte) (s : State) : (afterPair v s).bufAddr = s.bufAddr := rfl
@[simp] theorem afterPair_bufLen (v : Byte) (s : State) : (afterPair v s).bufLen = s.bufLen := rfl
@[simp] theorem afterPair_drive (v : Byte) (s : State) : (afterPair v s).drive = s.drive := rfl
@[simp] theorem afterPair_seq (v : Byte) (s : State) : (afterPair v s).seq = { s.seq with search := recordLocals (withPair v s.search s.seq.search) } := rfl
@[simp] theorem afterPair_mem (v : Byte) (s : State) : (afterPair v s).mem = s.mem := rfl
@[simp] theorem afterPair_idleThreshold (v : Byte) (s : State) : (afterPair v s).idleThreshold = s.idleThreshold := rfl
@[simp] theorem afterPair_txAnswers (v : Byte) (s : State) : (afterPair v s).txAnswers = s.txAnswers := rfl
@[simp] theorem afterPair_rxAnswers (v : Byte) (s : State) : (afterPair v s).rxAnswers = s.rxAnswers := rfl
@[simp] theorem afterPair_host (v : Byte) (s : State) : (afterPair v s).host = s.host := rfl
@[simp] theorem afterPair_events (v : Byte) (s : State) : (afterPair v s).events = s.events := rfl
@[simp] theorem afterPair_hostReads (v : Byte) (s : State) : (afterPair v s).hostReads = s.hostReads := rfl
@[simp] theorem afterPair_draws (v : Byte) (s : State) : (afterPair v s).draws = s.draws := rfl

@[simp] theorem afterDirection_params (s : State) : (afterDirection s).params = s.params := rfl
@[simp] theorem afterDirection_search (s : State) : (afterDirection s).search = updateRom s.seq.search s.search := rfl
@[simp] theorem afterDirection_busy (s : State) : (afterDirection s).busy = s.busy := rfl
@[simp] theorem afterDirection_result (s : State) : (afterDirection s).result = s.result := rfl
@[simp] theorem afterDirection_err (s : State) : (afterDirection s).err = s.err := rfl
@[simp] theorem afterDirection_rdata (s : State) : (afterDirection s).rdata = s.rdata := rfl
@[simp] theorem afterDirection_bufAddr (s : State) : (afterDirection s).bufAddr = s.bufAddr := rfl
@[simp] theorem afterDirection_bufLen (s : State) : (afterDirection s).bufLen = s.bufLen := rfl
@[simp] theorem afterDirection_drive (s : State) : (afterDirection s).drive = s.drive := rfl
@[simp] theorem afterDirection_seq (s : State) : (afterDirection s).seq = { s.seq with search := advance s.seq.search } := rfl
@[simp] theorem afterDirection_mem (s : State) : (afterDirection s).mem = s.mem := rfl
@[simp] theorem afterDirection_idleThreshold (s : State) : (afterDirection s).idleThreshold = s.idleThreshold := rfl
@[simp] theorem afterDirection_txAnswers (s : State) : (afterDirection s).txAnswers = s.txAnswers := rfl
@[simp] theorem afterDirection_rxAnswers (s : State) : (afterDirection s).rxAnswers = s.rxAnswers := rfl
@[simp] theorem afterDirection_host (s : State) : (afterDirection s).host = s.host := rfl
@[simp] theorem afterDirection_events (s : State) : (afterDirection s).events = s.events := rfl
@[simp] theorem afterDirection_hostReads (s : State) : (afterDirection s).hostReads = s.hostReads := rfl
@[simp] theorem afterDirection_draws (s : State) : (afterDirection s).draws = s.draws := rfl

@[simp] theorem bookkeeping_params (s : State) : (bookkeeping s).params = s.params := rfl
@[simp] theorem bookkeeping_search (s : State) : (bookkeeping s).search = { s.search with ld := BitVec.ofNat 7 s.seq.search.lastZero, ldf := if s.seq.search.lastZero = 0 then true else s.search.ldf } := rfl
@[simp] theorem bookkeeping_busy (s : State) : (bookkeeping s).busy = s.busy := rfl
@[simp] theorem bookkeeping_result (s : State) : (bookkeeping s).result = s.result := rfl
@[simp] theorem bookkeeping_err (s : State) : (bookkeeping s).err = s.err := rfl
@[simp] theorem bookkeeping_rdata (s : State) : (bookkeeping s).rdata = s.rdata := rfl
@[simp] theorem bookkeeping_bufAddr (s : State) : (bookkeeping s).bufAddr = s.bufAddr := rfl
@[simp] theorem bookkeeping_bufLen (s : State) : (bookkeeping s).bufLen = s.bufLen := rfl
@[simp] theorem bookkeeping_drive (s : State) : (bookkeeping s).drive = s.drive := rfl
@[simp] theorem bookkeeping_seq (s : State) : (bookkeeping s).seq = s.seq := rfl
@[simp] theorem bookkeeping_mem (s : State) : (bookkeeping s).mem = s.mem := rfl
@[simp] theorem bookkeeping_idleThreshold (s : State) : (bookkeeping s).idleThreshold = s.idleThreshold := rfl
@[simp] theorem bookkeeping_txAnswers (s : State) : (bookkeeping s).txAnswers = s.txAnswers := rfl
@[simp] theorem bookkeeping_rxAnswers (s : State) : (bookkeeping s).rxAnswers = s.rxAnswers := rfl
@[simp] theorem bookkeeping_host (s : State) : (bookkeeping s).host = s.host := rfl
@[simp] theorem bookkeeping_events (s : State) : (bookkeeping s).events = s.events := rfl
@[simp] theorem bookkeeping_hostReads (s : State) : (bookkeeping s).hostReads = s.hostReads := rfl
@[simp] theorem bookkeeping_draws (s : State) : (bookkeeping s).draws = s.draws := rfl

@[simp] theorem searchClear_params (s : State) : (searchClear s).params = s.params := rfl
@[simp] theorem searchClear_search (s : State) : (searchClear s).search = ⟨freeRom s, 0#7, 0#4, false⟩ := rfl
@[simp] theorem searchClear_busy (s : State) : (searchClear s).busy = s.busy := rfl
@[simp] theorem searchClear_result (s : State) : (searchClear s).result = s.result := rfl
@[simp] theorem searchClear_err (s : State) : (searchClear s).err = s.err := rfl
@[simp] theorem searchClear_rdata (s : State) : (searchClear s).rdata = s.rdata := rfl
@[simp] theorem searchClear_bufAddr (s : State) : (searchClear s).bufAddr = s.bufAddr := rfl
@[simp] theorem searchClear_bufLen (s : State) : (searchClear s).bufLen = s.bufLen := rfl
@[simp] theorem searchClear_drive (s : State) : (searchClear s).drive = s.drive := rfl
@[simp] theorem searchClear_seq (s : State) : (searchClear s).seq = s.seq := rfl
@[simp] theorem searchClear_mem (s : State) : (searchClear s).mem = s.mem := rfl
@[simp] theorem searchClear_idleThreshold (s : State) : (searchClear s).idleThreshold = s.idleThreshold := rfl
@[simp] theorem searchClear_txAnswers (s : State) : (searchClear s).txAnswers = s.txAnswers := rfl
@[simp] theorem searchClear_rxAnswers (s : State) : (searchClear s).rxAnswers = s.rxAnswers := rfl
@[simp] theorem searchClear_host (s : State) : (searchClear s).host = s.host := rfl
@[simp] theorem searchClear_events (s : State) : (searchClear s).events = s.events := rfl
@[simp] theorem searchClear_hostReads (s : State) : (searchClear s).hostReads = s.hostReads := rfl
@[simp] theorem searchClear_draws (s : State) : (searchClear s).draws = s.draws + 8 := rfl

@[simp] theorem recordRead_params (r : HostRead) (s : State) : (recordRead r s).params = s.params := rfl
@[simp] theorem recordRead_search (r : HostRead) (s : State) : (recordRead r s).search = s.search := rfl
@[simp] theorem recordRead_busy (r : HostRead) (s : State) : (recordRead r s).busy = s.busy := rfl
@[simp] theorem recordRead_result (r : HostRead) (s : State) : (recordRead r s).result = s.result := rfl
@[simp] theorem recordRead_err (r : HostRead) (s : State) : (recordRead r s).err = s.err := rfl
@[simp] theorem recordRead_rdata (r : HostRead) (s : State) : (recordRead r s).rdata = s.rdata := rfl
@[simp] theorem recordRead_bufAddr (r : HostRead) (s : State) : (recordRead r s).bufAddr = s.bufAddr := rfl
@[simp] theorem recordRead_bufLen (r : HostRead) (s : State) : (recordRead r s).bufLen = s.bufLen := rfl
@[simp] theorem recordRead_drive (r : HostRead) (s : State) : (recordRead r s).drive = s.drive := rfl
@[simp] theorem recordRead_seq (r : HostRead) (s : State) : (recordRead r s).seq = s.seq := rfl
@[simp] theorem recordRead_mem (r : HostRead) (s : State) : (recordRead r s).mem = s.mem := rfl
@[simp] theorem recordRead_idleThreshold (r : HostRead) (s : State) : (recordRead r s).idleThreshold = s.idleThreshold := rfl
@[simp] theorem recordRead_txAnswers (r : HostRead) (s : State) : (recordRead r s).txAnswers = s.txAnswers := rfl
@[simp] theorem recordRead_rxAnswers (r : HostRead) (s : State) : (recordRead r s).rxAnswers = s.rxAnswers := rfl
@[simp] theorem recordRead_host (r : HostRead) (s : State) : (recordRead r s).host = s.host := rfl
@[simp] theorem recordRead_events (r : HostRead) (s : State) : (recordRead r s).events = s.events := rfl
@[simp] theorem recordRead_hostReads (r : HostRead) (s : State) : (recordRead r s).hostReads = s.hostReads ++ [r] := rfl
@[simp] theorem recordRead_draws (r : HostRead) (s : State) : (recordRead r s).draws = s.draws := rfl

@[simp] theorem blockReset_params (s : State) : (blockReset s).params = s.params := rfl
@[simp] theorem blockReset_search (s : State) : (blockReset s).search = SearchState.zero := rfl
@[simp] theorem blockReset_busy (s : State) : (blockReset s).busy = false := rfl
@[simp] theorem blockReset_result (s : State) : (blockReset s).result = false := rfl
@[simp] theorem blockReset_err (s : State) : (blockReset s).err = 0#3 := rfl
@[simp] theorem blockReset_rdata (s : State) : (blockReset s).rdata = 0x00#8 := rfl
@[simp] theorem blockReset_bufAddr (s : State) : (blockReset s).bufAddr = 0#32 := rfl
@[simp] theorem blockReset_bufLen (s : State) : (blockReset s).bufLen = 0#16 := rfl
@[simp] theorem blockReset_drive (s : State) : (blockReset s).drive = false := rfl
@[simp] theorem blockReset_seq (s : State) : (blockReset s).seq = Sequencer.idle := rfl
@[simp] theorem blockReset_mem (s : State) : (blockReset s).mem = s.mem := rfl
@[simp] theorem blockReset_idleThreshold (s : State) : (blockReset s).idleThreshold = Config.freeIdle s.draws := rfl
@[simp] theorem blockReset_txAnswers (s : State) : (blockReset s).txAnswers = s.txAnswers := rfl
@[simp] theorem blockReset_rxAnswers (s : State) : (blockReset s).rxAnswers = s.rxAnswers := rfl
@[simp] theorem blockReset_host (s : State) : (blockReset s).host = s.host := rfl
@[simp] theorem blockReset_events (s : State) : (blockReset s).events = s.events := rfl
@[simp] theorem blockReset_hostReads (s : State) : (blockReset s).hostReads = s.hostReads := rfl
@[simp] theorem blockReset_draws (s : State) : (blockReset s).draws = s.draws + 1 := rfl

@[simp] theorem placeCommand_params (w : Word) (s : State) : (placeCommand w s).params = s.params := rfl
@[simp] theorem placeCommand_search (w : Word) (s : State) : (placeCommand w s).search = s.search := rfl
@[simp] theorem placeCommand_busy (w : Word) (s : State) : (placeCommand w s).busy = false := rfl
@[simp] theorem placeCommand_result (w : Word) (s : State) : (placeCommand w s).result = s.result := rfl
@[simp] theorem placeCommand_err (w : Word) (s : State) : (placeCommand w s).err = s.err := rfl
@[simp] theorem placeCommand_rdata (w : Word) (s : State) : (placeCommand w s).rdata = s.rdata := rfl
@[simp] theorem placeCommand_bufAddr (w : Word) (s : State) : (placeCommand w s).bufAddr = s.bufAddr := rfl
@[simp] theorem placeCommand_bufLen (w : Word) (s : State) : (placeCommand w s).bufLen = s.bufLen := rfl
@[simp] theorem placeCommand_drive (w : Word) (s : State) : (placeCommand w s).drive = s.drive := rfl
@[simp] theorem placeCommand_seq (w : Word) (s : State) : (placeCommand w s).seq = s.seq := rfl
@[simp] theorem placeCommand_mem (w : Word) (s : State) : (placeCommand w s).mem = s.mem := rfl
@[simp] theorem placeCommand_idleThreshold (w : Word) (s : State) : (placeCommand w s).idleThreshold = s.idleThreshold := rfl
@[simp] theorem placeCommand_txAnswers (w : Word) (s : State) : (placeCommand w s).txAnswers = s.txAnswers := rfl
@[simp] theorem placeCommand_rxAnswers (w : Word) (s : State) : (placeCommand w s).rxAnswers = s.rxAnswers := rfl
@[simp] theorem placeCommand_host (w : Word) (s : State) : (placeCommand w s).host = .regWrite 0x00 4 w :: s.host := rfl
@[simp] theorem placeCommand_events (w : Word) (s : State) : (placeCommand w s).events = s.events := rfl
@[simp] theorem placeCommand_hostReads (w : Word) (s : State) : (placeCommand w s).hostReads = s.hostReads := rfl
@[simp] theorem placeCommand_draws (w : Word) (s : State) : (placeCommand w s).draws = s.draws := rfl

@[simp] theorem construct_params (p : Params) : (State.construct p).params = p := rfl
@[simp] theorem construct_search (p : Params) : (State.construct p).search = SearchState.zero := rfl
@[simp] theorem construct_busy (p : Params) : (State.construct p).busy = false := rfl
@[simp] theorem construct_result (p : Params) : (State.construct p).result = false := rfl
@[simp] theorem construct_err (p : Params) : (State.construct p).err = 0#3 := rfl
@[simp] theorem construct_rdata (p : Params) : (State.construct p).rdata = 0x00#8 := rfl
@[simp] theorem construct_bufAddr (p : Params) : (State.construct p).bufAddr = 0#32 := rfl
@[simp] theorem construct_bufLen (p : Params) : (State.construct p).bufLen = 0#16 := rfl
@[simp] theorem construct_drive (p : Params) : (State.construct p).drive = false := rfl
@[simp] theorem construct_seq (p : Params) : (State.construct p).seq = Sequencer.idle := rfl
@[simp] theorem construct_mem (p : Params) : (State.construct p).mem = [] := rfl
@[simp] theorem construct_idleThreshold (p : Params) : (State.construct p).idleThreshold = Config.freeIdle 0 := rfl
@[simp] theorem construct_txAnswers (p : Params) : (State.construct p).txAnswers = [] := rfl
@[simp] theorem construct_rxAnswers (p : Params) : (State.construct p).rxAnswers = [] := rfl
@[simp] theorem construct_host (p : Params) : (State.construct p).host = [] := rfl
@[simp] theorem construct_events (p : Params) : (State.construct p).events = [] := rfl
@[simp] theorem construct_hostReads (p : Params) : (State.construct p).hostReads = [] := rfl
@[simp] theorem construct_draws (p : Params) : (State.construct p).draws = 1 := rfl

/-- `BUF_ADDR` written while no operation runs. -/
theorem setBufAddr_idle (v : Word) (s : State) (h : s.busy = false) :
    setBufAddr v s = { s with bufAddr := maskAddr s.params v } := by simp [setBufAddr, h]

/-- `BUF_LEN` written while no operation runs. -/
theorem setBufLen_idle (v : Word) (s : State) (h : s.busy = false) :
    setBufLen v s = { s with bufLen := v.setWidth 16 } := by simp [setBufLen, h]

end Sys2Proof.Machine
end

