-- ==== Sys2Proof/Laws/Memory.lean ====
section
/-! SUPPORT. The host buffer memory: a read after a write, and every memory operation keeps the canonical form. -/

namespace Sys2Proof.Machine

@[simp] theorem read_nil (a : Nat) : Memory.read [] a = unlistedByte := rfl

theorem read_cons (k : Nat) (v : Byte) (m : Memory) (a : Nat) :
    Memory.read ((k, v) :: m) a = if k = a then v else Memory.read m a := rfl

theorem wfAbove_cons (lo k : Nat) (v : Byte) (m : Memory) :
    Memory.wfAbove lo ((k, v) :: m) = true ↔ lo ≤ k ∧ v ≠ unlistedByte ∧ Memory.wfAbove (k + 1) m = true := by
  simp [Memory.wfAbove, and_assoc]

theorem wfAbove_mono {lo lo' : Nat} {m : Memory} (h : lo' ≤ lo) (hm : Memory.wfAbove lo m = true) :
    Memory.wfAbove lo' m = true := by
  cases m with
  | nil => rfl
  | cons c m =>
    rw [wfAbove_cons] at hm ⊢
    exact ⟨by omega, hm.2⟩

/-- An address below every listed one reads as unlisted. -/
theorem read_below {lo : Nat} {m : Memory} (hm : Memory.wfAbove lo m = true) {a : Nat} (ha : a < lo) :
    Memory.read m a = unlistedByte := by
  induction m generalizing lo with
  | nil => rfl
  | cons c m ih =>
    rw [wfAbove_cons] at hm
    rw [read_cons, if_neg (by omega)]
    exact ih hm.2.2 (by omega)

theorem write_wfAbove {lo : Nat} {m : Memory} (hm : Memory.wfAbove lo m = true) {a : Nat} (ha : lo ≤ a) (b : Byte) :
    Memory.wfAbove lo (m.write a b) = true := by
  induction m generalizing lo with
  | nil =>
    by_cases hb : b = unlistedByte <;> simp [Memory.write, hb, Memory.wfAbove, ha]
  | cons c m ih =>
    obtain ⟨k, v⟩ := c
    have h := hm
    rw [wfAbove_cons] at h
    simp only [Memory.write]
    split
    · split
      · exact hm
      · rw [wfAbove_cons, wfAbove_cons]
        exact ⟨ha, ‹_›, by omega, h.2⟩
    · split
      · split
        · exact wfAbove_mono (by omega) h.2.2
        · rw [wfAbove_cons]
          exact ⟨ha, ‹_›, wfAbove_mono (by omega) h.2.2⟩
      · rw [wfAbove_cons]
        exact ⟨h.1, h.2.1, ih h.2.2 (by omega)⟩

/-- A write keeps the canonical form. -/
theorem write_wf {m : Memory} (hm : m.wf = true) (a : Nat) (b : Byte) : (m.write a b).wf = true :=
  write_wfAbove hm (Nat.zero_le a) b

/-- A write at an existing address lists no address that does not exist. -/
theorem write_below {w : Nat} {m : Memory} (hm : m.below w = true) {a : Nat} (ha : a < 2 ^ w) (b : Byte) :
    (m.write a b).below w = true := by
  induction m with
  | nil => by_cases hb : b = unlistedByte <;> simp [Memory.write, Memory.below, hb, ha]
  | cons c m ih =>
    obtain ⟨k, v⟩ := c
    simp only [Memory.below, List.all_cons, Bool.and_eq_true, decide_eq_true_eq] at hm ih ⊢
    simp only [Memory.write]
    split
    · split <;> simp only [List.all_cons, Bool.and_eq_true, decide_eq_true_eq]
      · exact hm
      · exact ⟨ha, hm⟩
    · split
      · split
        · exact hm.2
        · simp only [List.all_cons, Bool.and_eq_true, decide_eq_true_eq]; exact ⟨ha, hm.2⟩
      · simp only [List.all_cons, Bool.and_eq_true, decide_eq_true_eq]; exact ⟨hm.1, ih hm.2⟩

/-- A write leaves every other address alone. -/
theorem read_write_other (m : Memory) {a c : Nat} (h : c ≠ a) (b : Byte) : (m.write a b).read c = m.read c := by
  induction m with
  | nil => by_cases hb : b = unlistedByte <;> simp [Memory.write, hb, read_cons, Ne.symm h]
  | cons x m ih =>
    obtain ⟨k, v⟩ := x
    simp only [Memory.write]
    split
    · split
      · rfl
      · rw [read_cons a, if_neg (Ne.symm h)]
    · split
      · subst k
        rw [read_cons _ v, if_neg (Ne.symm h)]
        split
        · rfl
        · rw [read_cons, if_neg (Ne.symm h)]
      · rw [read_cons, read_cons, ih]

theorem read_writeAbove_same {lo : Nat} {m : Memory} (hm : Memory.wfAbove lo m = true) (a : Nat) (b : Byte) :
    (m.write a b).read a = b := by
  induction m generalizing lo with
  | nil => by_cases hb : b = unlistedByte <;> simp [Memory.write, hb, read_cons]
  | cons x m ih =>
    obtain ⟨k, v⟩ := x
    have h := hm
    rw [wfAbove_cons] at h
    simp only [Memory.write]
    split
    · split
      · rw [read_cons, if_neg (by omega), read_below h.2.2 (by omega)]
        exact Eq.symm ‹_›
      · rw [read_cons, if_pos rfl]
    · split
      · subst k
        split
        · rw [read_below h.2.2 (by omega)]
          exact Eq.symm ‹_›
        · rw [read_cons, if_pos rfl]
      · rw [read_cons, if_neg (fun e => ‹¬ a = k› e.symm)]
        exact ih h.2.2

/-- A read after a write to the same address gives the byte written. -/
theorem read_write_same {m : Memory} (hm : m.wf = true) (a : Nat) (b : Byte) : (m.write a b).read a = b :=
  read_writeAbove_same hm a b

/-- The memory after block reset is in canonical form. -/
theorem reset_mem_wf : State.reset.mem.wf = true := rfl

/-- A list of bytes written leaves addresses outside it alone. -/
theorem memWriteList_other (bs : List Byte) (a : Nat) (s : State) {c : Nat} (h : c < a ∨ a + bs.length ≤ c) :
    (memWriteList a bs s).mem.read c = s.mem.read c := by
  induction bs generalizing a s with
  | nil => rfl
  | cons b bs ih =>
    simp only [memWriteList, List.length_cons] at h ⊢
    rw [ih _ _ (by omega), memWrite_mem, read_write_other _ (by omega)]

theorem memWriteList_wf (bs : List Byte) (a : Nat) (s : State) (h : s.mem.wf = true) :
    (memWriteList a bs s).mem.wf = true := by
  induction bs generalizing a s with
  | nil => exact h
  | cons b bs ih => exact ih _ _ (write_wf h a b)

theorem memWriteList_below (bs : List Byte) (a w : Nat) (s : State) (h : s.mem.below w = true)
    (ha : a + bs.length ≤ 2 ^ w) : (memWriteList a bs s).mem.below w = true := by
  induction bs generalizing a s with
  | nil => exact h
  | cons b bs ih =>
    simp only [List.length_cons] at ha
    exact ih _ _ (write_below h (by omega) b) (by omega)

/-- A list of bytes written at `a` is read there. -/
theorem memWriteList_read (bs : List Byte) (a : Nat) (s : State) (h : s.mem.wf = true) (k : Nat)
    (hk : k < bs.length) : (memWriteList a bs s).mem.read (a + k) = bs[k] := by
  induction bs generalizing a s k with
  | nil => simp at hk
  | cons b bs ih =>
    simp only [memWriteList]
    cases k with
    | zero =>
      rw [memWriteList_other _ _ _ (by omega), memWrite_mem, Nat.add_zero, read_write_same h]
      rfl
    | succ k =>
      have := ih (a + 1) (memWrite a b s) (write_wf h a b) k (by simpa using hk)
      rw [show a + (k + 1) = a + 1 + k by omega, this]
      rfl

/-- A list of bytes written changes nothing but the memory. -/
theorem memWriteList_eq (bs : List Byte) (a : Nat) (s : State) :
    memWriteList a bs s = { s with mem := (memWriteList a bs s).mem } := by
  induction bs generalizing a s with
  | nil => rfl
  | cons b bs ih =>
    simp only [memWriteList]
    exact (ih (a + 1) (memWrite a b s)).trans rfl

end Sys2Proof.Machine
end

