-- ==== Sys2Proof/Laws/Channel.lean ====
section
/-! SUPPORT. What the channel calls and the three procedures can do: the state they touch (`BusRun`),
  the events they add,
and what they answer. -/

namespace Sys2Proof.Machine

/-! ### The Environment's answers do not depend on what the procedures write before them -/

@[simp] theorem txNow_accept (op : Option Instr) (w : Word) (s : State) : txNow (accept op w s) = txNow s := rfl
@[simp] theorem txNow_start (i : Instr) (s : State) : txNow (start i s) = txNow s := rfl
@[simp] theorem txNow_loadTrain (t : Train) (s : State) : txNow (loadTrain t s) = txNow s := rfl
@[simp] theorem txNow_setDrive (b : Bool) (s : State) : txNow (setDrive b s) = txNow s := rfl
@[simp] theorem txNow_chFlush (s : State) : txNow (chFlush s) = txNow s := rfl
@[simp] theorem txNow_chSetIdle (d : Nat) (s : State) : txNow (chSetIdle d s) = txNow s := rfl
@[simp] theorem txNow_setLocals (l : SearchLocals) (s : State) : txNow (setLocals l s) = txNow s := rfl
@[simp] theorem txNow_setSearch (x : SearchState) (s : State) : txNow (setSearch x s) = txNow s := rfl
@[simp] theorem txNow_nextIndex (s : State) : txNow (nextIndex s) = txNow s := rfl
@[simp] theorem txNow_memWrite (a : Nat) (v : Byte) (s : State) : txNow (memWrite a v s) = txNow s := rfl
@[simp] theorem txNow_afterPair (v : Byte) (s : State) : txNow (afterPair v s) = txNow s := rfl
@[simp] theorem txNow_afterDirection (s : State) : txNow (afterDirection s) = txNow s := rfl

theorem txNow_cons {s : State} {a : TxAnswer} {as : List TxAnswer} (h : s.txAnswers = a :: as) : txNow s = a := by
  simp [txNow, h]

theorem rxNow_cons {s : State} {a : RxAnswer} {as : List RxAnswer} (h : s.rxAnswers = a :: as) : rxNow s = a := by
  simp [rxNow, h]

theorem rxNow_congr {s t : State} (h : t.rxAnswers = s.rxAnswers) (h' : t.draws = s.draws) : rxNow t = rxNow s := by
  simp only [rxNow, h, h']

@[simp] theorem rxNow_receiveBurst (idle : Nat) (t : Train) (s : State) :
    rxNow (receiveBurst idle t s) = rxNow (usedTx s) := rxNow_congr (by simp) (by simp)

@[simp] theorem usedTx_start_rxNow (i : Instr) (s : State) : rxNow (usedTx (start i s)) = rxNow (usedTx s) :=
  rxNow_congr rfl rfl

/-! ### The events the bursts add -/

@[simp] theorem receiveBurst_events (idle : Nat) (t : Train) (s : State) :
    (receiveBurst idle t s).events = s.events ++ [.flush, .setIdle idle, .transmit t s.drive (txNow s)] := by
  simp [receiveBurst]

@[simp] theorem writeBurst_events (d : Byte) (n : Nat) (pwr : Bool) (s : State) :
    (writeBurst d n pwr s).events
      = s.events ++ [.transmit (bitsTrain s.params d n) (if pwr then true else s.drive) (txNow s)] := by
  cases pwr <;> simp [writeBurst]

/-! ### The trains fit the buffer (10_state.md R55) -/

theorem itemCount_append (t u : Train) : itemCount (t ++ u) = itemCount t + itemCount u := by
  induction t with
  | nil => simp [itemCount]
  | cons x t ih =>
    rcases x with ⟨⟨_ | _, d⟩⟩ | _ <;> simp [itemCount, ih] <;> omega

@[simp] theorem itemCount_slot (p : Params) (v : Bool) : itemCount (slot p v) = 1 := by cases v <;> rfl

theorem itemCount_slots (p : Params) (bs : List Bool) : itemCount (bs.flatMap (slot p)) = bs.length := by
  induction bs with
  | nil => rfl
  | cons b bs ih => simp [itemCount_append, ih]; omega

@[simp] theorem itemCount_bitsTrain (p : Params) (d : Byte) (n : Nat) : itemCount (bitsTrain p d n) = n + 1 := by
  simp [bitsTrain, itemCount_append, itemCount_slots, groupBits, itemCount]

/-- The read train is the write train of `n` one bits. -/
theorem readTrain_eq (p : Params) (n : Nat) : readTrain p n = (List.replicate n true).flatMap (slot p) ++ [.endMark] :=
    by
  rw [readTrain, List.flatMap, List.map_replicate]; rfl

@[simp] theorem itemCount_readTrain (p : Params) (n : Nat) : itemCount (readTrain p n) = n + 1 := by
  simp [readTrain_eq, itemCount_append, itemCount_slots, itemCount]

@[simp] theorem itemCount_resetTrain (p : Params) : itemCount (resetTrain p) = 2 := rfl

theorem groupOk_iff (n : Nat) : groupOk n = true ↔ 1 ≤ n ∧ n ≤ 8 := by
  rw [groupOk, Bool.and_eq_true, decide_eq_true_eq, decide_eq_true_eq]; rfl

theorem groupOk_false_iff (n : Nat) : groupOk n = false ↔ n = 0 ∨ 8 < n := by
  rw [← Bool.not_eq_true, groupOk_iff]; omega

theorem admitted_iff (s : State) (a : Nat) : admitted s a = true ↔ a < 2 ^ s.params.addrW := by
  rw [admitted, decide_eq_true_eq]

theorem rangeAdmitted_iff (s : State) (a n : Nat) : rangeAdmitted s a n = true ↔ a + n ≤ 2 ^ s.params.addrW := by
  rw [rangeAdmitted, decide_eq_true_eq]

/-! ### What a procedure leaves alone -/

/-- What a channel event of a procedure may be: a train that fits the buffer, and strong pull only where it was asked
for. -/
def EventOk (pwr : Bool) : Event → Prop
  | .transmit train drive _ => itemCount train ≤ trainCap ∧ (drive = true → pwr = true)
  | .flush => True
  | .setIdle _ => True
  | .receive _ _ => True

/-- The threshold after two runs of calls. -/
theorem idleAfter_append (d : Nat) (es fs : List Event) : idleAfter d (es ++ fs) = idleAfter (idleAfter d es) fs := by
  induction es generalizing d with
  | nil => rfl
  | cons e es ih => cases e <;> exact ih _

/-- The threshold a state holds is the last one set since another (40_channel.md R154). -/
def Threshold (s t : State) : Prop := ∀ es, t.events = s.events ++ es → t.idleThreshold = idleAfter s.idleThreshold es

/-- No call, no change of the threshold. -/
theorem Threshold.same {s t : State} (he : t.events = s.events) (hi : t.idleThreshold = s.idleThreshold) :
    Threshold s t := by
  intro es h
  obtain rfl : es = [] := by simpa [he] using h
  exact hi

theorem Threshold.trans {s t u : State} {es fs : List Event} (h : Threshold s t) (g : Threshold t u)
    (he : t.events = s.events ++ es) (hf : u.events = t.events ++ fs) : Threshold s u := by
  intro gs hg
  rw [hf, he, List.append_assoc, List.append_cancel_left_eq] at hg
  rw [← hg, idleAfter_append, ← h es he]; exact g fs hf

/-- What channel calls do to the state: they touch the line, the channel's settings and answers, the train buffer and
the history, and nothing else. -/
structure BusRun (pwr : Bool) (s t : State) : Prop where
  params : t.params = s.params
  search : t.search = s.search
  busy : t.busy = s.busy
  result : t.result = s.result
  err : t.err = s.err
  rdata : t.rdata = s.rdata
  bufAddr : t.bufAddr = s.bufAddr
  bufLen : t.bufLen = s.bufLen
  mem : t.mem = s.mem
  host : t.host = s.host
  hostReads : t.hostReads = s.hostReads
  op : t.seq.op = s.seq.op
  snap : t.seq.snap = s.seq.snap
  index : t.seq.index = s.seq.index
  locals : t.seq.search = s.seq.search
  driveOff : s.drive = false → t.drive = false
  history : ∃ es, t.events = s.events ++ es ∧ (s.drive = false → ∀ e ∈ es, EventOk pwr e)
  threshold : Threshold s t

theorem BusRun.refl (pwr : Bool) (s : State) : BusRun pwr s s := by
  constructor <;> first | rfl | exact id | exact ⟨[], by simp, by simp⟩ | exact Threshold.same rfl rfl

theorem BusRun.trans {pwr : Bool} {s t u : State} (h : BusRun pwr s t) (g : BusRun pwr t u) : BusRun pwr s u := by
  obtain ⟨es, he, ho⟩ := h.history
  obtain ⟨fs, hf, hp⟩ := g.history
  refine ⟨g.params.trans h.params, g.search.trans h.search, g.busy.trans h.busy, g.result.trans h.result,
    g.err.trans h.err, g.rdata.trans h.rdata, g.bufAddr.trans h.bufAddr, g.bufLen.trans h.bufLen, g.mem.trans h.mem,
    g.host.trans h.host, g.hostReads.trans h.hostReads, g.op.trans h.op, g.snap.trans h.snap, g.index.trans h.index,
    g.locals.trans h.locals, fun d => g.driveOff (h.driveOff d), ⟨es ++ fs, by rw [hf, he, List.append_assoc],
    fun d e hm => ?_⟩, h.threshold.trans g.threshold he hf⟩
  rcases List.mem_append.1 hm with hm | hm
  · exact ho d e hm
  · exact hp (h.driveOff d) e hm

/-- A procedure that never asks for strong pull is also one that may. -/
theorem BusRun.weaken {pwr : Bool} {s t : State} (h : BusRun false s t) : BusRun pwr s t := by
  obtain ⟨es, he, ho⟩ := h.history
  refine { h with history := ⟨es, he, fun d e hm => ?_⟩ }
  have := ho d e hm
  cases e with
  | transmit train drive a => exact ⟨this.1, fun hd => absurd (this.2 hd) (by simp)⟩
  | flush => trivial
  | setIdle _ => trivial
  | receive _ _ => trivial

theorem writeBurst_busRun (d : Byte) {n : Nat} (hn : n ≤ 8) (pwr : Bool) (s : State) :
    BusRun pwr s (writeBurst d n pwr s) := by
  refine { params := by simp, search := by simp, busy := by simp, result := by simp, err := by simp, rdata := by simp,
           bufAddr := by simp, bufLen := by simp, mem := by simp, host := by simp, hostReads := by simp, op := by simp,
           snap := by simp, index := by simp, locals := by simp, driveOff := by simp,
           history := ⟨_, writeBurst_events d n pwr s, fun hd e he => ?_⟩, threshold := fun es he => ?_ }
  · obtain rfl := List.mem_singleton.1 he
    refine ⟨by simp [trainCap]; omega, ?_⟩
    cases pwr <;> simp [hd]
  · rw [writeBurst_events, List.append_cancel_left_eq] at he
    subst he; simp [idleAfter]

theorem receiveBurst_busRun (idle : Nat) {t : Train} (ht : itemCount t ≤ trainCap) (s : State) :
    BusRun false s (receiveBurst idle t s) := by
  refine { params := by simp, search := by simp, busy := by simp, result := by simp, err := by simp, rdata := by simp,
           bufAddr := by simp, bufLen := by simp, mem := by simp, host := by simp, hostReads := by simp, op := by simp,
           snap := by simp, index := by simp, locals := by simp, driveOff := by simp,
           history := ⟨_, receiveBurst_events idle t s, fun hd e he => ?_⟩, threshold := fun es he => ?_ }
  · simp only [List.mem_cons, List.not_mem_nil, or_false] at he
    rcases he with rfl | rfl | rfl
    · trivial
    · trivial
    · exact ⟨ht, by simp [hd]⟩
  · rw [receiveBurst_events, List.append_cancel_left_eq] at he
    subst he; simp [idleAfter]

theorem chReceive_busRun (t : Nat) (s : State) : BusRun false s (chReceive t s) := by
  refine { params := by simp, search := by simp, busy := by simp, result := by simp, err := by simp, rdata := by simp,
           bufAddr := by simp, bufLen := by simp, mem := by simp, host := by simp, hostReads := by simp, op := by simp,
           snap := by simp, index := by simp, locals := by simp, driveOff := by simp,
           history := ⟨_, chReceive_events t s, fun _ e he => ?_⟩, threshold := fun es he => ?_ }
  · obtain rfl := List.mem_singleton.1 he
    trivial
  · rw [chReceive_events, List.append_cancel_left_eq] at he
    subst he; simp [idleAfter]

/-! ### What a procedure answers -/

theorem writeP_run {n : Nat} (h : groupOk n = true) (d : Byte) (pwr : Bool) (s : State) :
    writeP d n pwr s = (txResult (txNow s), writeBurst d n pwr s) := by simp [writeP, h]

theorem writeP_reject {n : Nat} (h : groupOk n = false) (d : Byte) (pwr : Bool) (s : State) :
    writeP d n pwr s = (.fail .protocolViolation, s) := by simp [writeP, h]

/-- A write procedure does only what channel calls do. -/
theorem writeP_busRun (d : Byte) (n : Nat) (pwr : Bool) (s : State) : BusRun pwr s (writeP d n pwr s).2 := by
  cases h : groupOk n with
  | true => rw [writeP_run h]; exact writeBurst_busRun d ((groupOk_iff n).1 h).2 pwr s
  | false => rw [writeP_reject h]; exact BusRun.refl pwr s

theorem receiveP_txErr {α : Type} {us : Nat} (idle timeout : Nat) (t : Train) (f : Capture → Res α) {s : State}
    (h : txNow s = .err us) : receiveP idle timeout t f s = (.fail .channelError, receiveBurst idle t s) := by
  simp [receiveP, h]

theorem receiveP_timeout {α : Type} (idle timeout : Nat) (t : Train) (f : Capture → Res α) {s : State}
    (h : txNow s = .ok) (g : rxNow (usedTx s) = .timeout) :
    receiveP idle timeout t f s = (.fail .timeout, chReceive timeout (receiveBurst idle t s)) := by
  simp [receiveP, h, g]

theorem receiveP_rxErr {α : Type} (idle timeout : Nat) (t : Train) (f : Capture → Res α) {s : State}
    (h : txNow s = .ok) (g : rxNow (usedTx s) = .err) :
    receiveP idle timeout t f s = (.fail .channelError, chReceive timeout (receiveBurst idle t s)) := by
  simp [receiveP, h, g]

theorem receiveP_capture {α : Type} {c : Capture} (idle timeout : Nat) (t : Train) (f : Capture → Res α) {s : State}
    (h : txNow s = .ok) (g : rxNow (usedTx s) = .capture c) :
    receiveP idle timeout t f s = (f c, chReceive timeout (receiveBurst idle t s)) := by
  simp [receiveP, h, g]

/-- The four things a receiving procedure can do. -/
theorem receiveP_cases {α : Type} (idle timeout : Nat) (t : Train) (f : Capture → Res α) (s : State) :
    ((∃ us, txNow s = .err us) ∧ receiveP idle timeout t f s = (.fail .channelError, receiveBurst idle t s))
      ∨ (txNow s = .ok ∧
        ((rxNow (usedTx s) = .timeout
            ∧ receiveP idle timeout t f s = (.fail .timeout, chReceive timeout (receiveBurst idle t s)))
          ∨ (rxNow (usedTx s) = .err
            ∧ receiveP idle timeout t f s = (.fail .channelError, chReceive timeout (receiveBurst idle t s)))
          ∨ ∃ c, rxNow (usedTx s) = .capture c
            ∧ receiveP idle timeout t f s = (f c, chReceive timeout (receiveBurst idle t s)))) := by
  cases h : txNow s with
  | err us => exact .inl ⟨⟨us, rfl⟩, receiveP_txErr idle timeout t f h⟩
  | ok =>
    refine .inr ⟨rfl, ?_⟩
    cases g : rxNow (usedTx s) with
    | timeout => exact .inl ⟨rfl, receiveP_timeout idle timeout t f h g⟩
    | err => exact .inr (.inl ⟨rfl, receiveP_rxErr idle timeout t f h g⟩)
    | capture c => exact .inr (.inr ⟨c, rfl, receiveP_capture idle timeout t f h g⟩)

theorem receiveP_busRun {α : Type} (idle timeout : Nat) {t : Train} (ht : itemCount t ≤ trainCap)
    (f : Capture → Res α) (s : State) : BusRun false s (receiveP idle timeout t f s).2 := by
  have hb := receiveBurst_busRun idle ht s
  have hr := hb.trans (chReceive_busRun timeout _)
  rcases receiveP_cases idle timeout t f s with ⟨-, e⟩ | ⟨-, ⟨-, e⟩ | ⟨-, e⟩ | ⟨c, -, e⟩⟩ <;> rw [e] <;> assumption

theorem readP_run {n : Nat} (h : groupOk n = true) (s : State) :
    readP n s = receiveP s.params.tIdleSlot s.params.tToRead (readTrain s.params n)
      (fun c => decodeBits s.params c n) s := by simp [readP, h]

theorem readP_reject {n : Nat} (h : groupOk n = false) (s : State) :
    readP n s = (.fail .protocolViolation, s) := by simp [readP, h]

/-- A read procedure does only what channel calls do. -/
theorem readP_busRun (n : Nat) (s : State) : BusRun false s (readP n s).2 := by
  cases h : groupOk n with
  | false => rw [readP_reject h]; exact BusRun.refl _ _
  | true =>
    rw [readP_run h]
    refine receiveP_busRun _ _ ?_ _ s
    have := (groupOk_iff n).1 h
    simp only [itemCount_readTrain, trainCap]; omega

/-- The reset procedure does only what channel calls do. -/
theorem resetP_busRun (s : State) : BusRun false s (resetP s).2 :=
  receiveP_busRun _ _ (by simp [trainCap]) _ s

/-- The bytes of a list written do only what channel calls do. -/
theorem writeList_busRun (bs : List Byte) (s : State) : BusRun false s (writeList bs s).2 := by
  induction bs generalizing s with
  | nil => exact BusRun.refl _ _
  | cons b bs ih =>
    have hw := writeP_busRun b 8 false s
    simp only [writeList]
    cases e : writeP b 8 false s with
    | mk r s1 =>
      rw [e] at hw
      cases r with
      | ok _ => exact hw.trans (ih s1)
      | fail k => exact hw

/-- A write procedure fails only with a `ChannelError`, or with a `ProtocolViolation` on a bit count outside 1 to 8. -/
theorem writeP_fail {d : Byte} {n : Nat} {pwr : Bool} {s : State} {k : ErrKind}
    (h : (writeP d n pwr s).1 = .fail k) : (k = .channelError ∧ groupOk n = true) ∨ (k = .protocolViolation ∧ groupOk n
      = false) := by
  cases g : groupOk n with
  | true =>
    rw [writeP_run g] at h
    cases e : txNow s <;> simp_all [txResult]
  | false => rw [writeP_reject g] at h; simp_all

/-- A receiving procedure fails with a `ChannelError`, a `Timeout`, or as its decoder does. -/
theorem receiveP_fail {α : Type} {idle timeout : Nat} {t : Train} {f : Capture → Res α} {s : State} {k : ErrKind}
    (h : (receiveP idle timeout t f s).1 = .fail k) (hf : ∀ c, f c = .fail k → k = .channelError) :
    k = .channelError ∨ k = .timeout := by
  rcases receiveP_cases idle timeout t f s with ⟨-, e⟩ | ⟨-, ⟨-, e⟩ | ⟨-, e⟩ | ⟨c, -, e⟩⟩ <;> rw [e] at h
  · exact .inl (by simpa using h.symm)
  · exact .inr (by simpa using h.symm)
  · exact .inl (by simpa using h.symm)
  · exact .inl (hf c h)

theorem decodeBits_fail {p : Params} {c : Capture} {n : Nat} {k : ErrKind} (h : decodeBits p c n = .fail k) :
    k = .channelError := by
  simp only [decodeBits] at h
  split at h <;> simp_all

theorem readP_fail {n : Nat} {s : State} {k : ErrKind} (h : (readP n s).1 = .fail k) :
    ((k = .channelError ∨ k = .timeout) ∧ groupOk n = true) ∨ (k = .protocolViolation ∧ groupOk n = false) := by
  cases g : groupOk n with
  | true => rw [readP_run g] at h; exact .inl ⟨receiveP_fail h fun c => decodeBits_fail, rfl⟩
  | false => rw [readP_reject g] at h; simp_all

theorem resetP_fail {s : State} {k : ErrKind} (h : (resetP s).1 = .fail k) : k = .channelError ∨ k = .timeout :=
  receiveP_fail h fun c hc => by simp at hc

theorem writeList_fail {bs : List Byte} {s : State} {k : ErrKind} (h : (writeList bs s).1 = .fail k) :
    k = .channelError := by
  induction bs generalizing s with
  | nil => simp [writeList] at h
  | cons b bs ih =>
    simp only [writeList] at h
    cases e : writeP b 8 false s with
    | mk r s1 =>
      rw [e] at h
      cases r with
      | ok _ => exact ih h
      | fail k' =>
        have := writeP_fail (d := b) (n := 8) (pwr := false) (s := s) (k := k') (by rw [e])
        simp [groupOk, maxBits] at this
        simp_all

/-! ### How an operation ends -/

theorem complete_ended (r : Bool) (s : State) : Ended r 0#3 (complete r s) := ⟨rfl, rfl, rfl, rfl, rfl⟩

theorem raise_ended (k : ErrKind) (s : State) : Ended false (errCode k) (raise k s) := ⟨rfl, rfl, rfl, rfl, rfl⟩

end Sys2Proof.Machine
end

