-- ==== Sys2Proof/Laws/Operations.lean ====
section
/-! SUPPORT. What each operation can do, once per operation: how it ends (`*_cases`),
  what it adds to the history and what
it leaves alone (`Ran`). -/

namespace Sys2Proof.Machine

/-- Whether an operation asks for strong pull. -/
def powered : Instr → Bool
  | .writeBits _ _ pwr => pwr
  | .writeBytes pwr => pwr
  | .reset => false
  | .writeBit _ => false
  | .writeByte _ => false
  | .readBit => false
  | .readBits _ => false
  | .readByte => false
  | .readBytes => false
  | .select => false
  | .skip => false
  | .resetSearch => false
  | .targetSearch _ => false
  | .search => false

/-- What every operation that ended did: the Host's side is as it was, the sequencer is idle, and the history has only
grown, by admitted events. -/
structure Ran (pwr : Bool) (s t : State) : Prop where
  host : SameHost s t
  ended : Ended t.result t.err t
  history : ∃ es, t.events = s.events ++ es ∧ (s.drive = false → ∀ e ∈ es, EventOk pwr e)
  threshold : Threshold s t

/-- A run of channel calls followed by an end that adds no event. -/
theorem BusRun.ran {pwr : Bool} {s m t : State} (h : BusRun pwr s m) (hh : SameHost m t) (he : t.events = m.events)
    (hd : Ended t.result t.err t) (hi : t.idleThreshold = m.idleThreshold := by rfl) : Ran pwr s t where
  host := ⟨hh.params.trans h.params, hh.bufAddr.trans h.bufAddr, hh.bufLen.trans h.bufLen, hh.host.trans h.host,
    hh.hostReads.trans h.hostReads⟩
  ended := hd
  history := by obtain ⟨es, e, ho⟩ := h.history; exact ⟨es, he.trans e, ho⟩
  threshold := by
    obtain ⟨es, e, -⟩ := h.history
    exact h.threshold.trans (.same he hi) e (by rw [he, List.append_nil])

/-- Channel calls before a run. -/
theorem BusRun.then_ran {pwr : Bool} {s m t : State} (h : BusRun pwr s m) (g : Ran pwr m t) : Ran pwr s t where
  host := ⟨g.host.params.trans h.params, g.host.bufAddr.trans h.bufAddr, g.host.bufLen.trans h.bufLen,
    g.host.host.trans h.host, g.host.hostReads.trans h.hostReads⟩
  ended := g.ended
  history := by
    obtain ⟨es, he, ho⟩ := h.history
    obtain ⟨fs, hf, hp⟩ := g.history
    refine ⟨es ++ fs, by rw [hf, he, List.append_assoc], fun d e hm => ?_⟩
    rcases List.mem_append.1 hm with hm | hm
    · exact ho d e hm
    · exact hp (h.driveOff d) e hm
  threshold := by
    obtain ⟨es, he, -⟩ := h.history
    obtain ⟨fs, hf, -⟩ := g.history
    exact h.threshold.trans g.threshold he hf

/-- A run from a state that differs in nothing `Ran` speaks of. -/
theorem Ran.from {pwr : Bool} {s s' t : State} (g : Ran pwr s' t) (hh : SameHost s s') (he : s'.events = s.events)
    (hd : s'.drive = s.drive) (hi : s'.idleThreshold = s.idleThreshold := by rfl) : Ran pwr s t where
  host := ⟨g.host.params.trans hh.params, g.host.bufAddr.trans hh.bufAddr, g.host.bufLen.trans hh.bufLen,
    g.host.host.trans hh.host, g.host.hostReads.trans hh.hostReads⟩
  ended := g.ended
  history := by
    obtain ⟨fs, hf, hp⟩ := g.history
    exact ⟨fs, by rw [hf, he], fun d => hp (hd.trans d)⟩
  threshold := by
    obtain ⟨fs, hf, -⟩ := g.history
    exact (Threshold.same he hi).trans g.threshold (by rw [he, List.append_nil]) hf

theorem start_sameHost (i : Instr) (s : State) : SameHost s (start i s) := ⟨rfl, rfl, rfl, rfl, rfl⟩

theorem complete_sameHost (r : Bool) (s : State) : SameHost s (complete r s) := ⟨rfl, rfl, rfl, rfl, rfl⟩

theorem raise_sameHost (k : ErrKind) (s : State) : SameHost s (raise k s) := ⟨rfl, rfl, rfl, rfl, rfl⟩

/-! ### Ends -/

theorem endWrite_cases (r : Res Unit × State) :
    (r.1 = .ok () ∧ endWrite r = complete true r.2) ∨ ∃ k, r.1 = .fail k ∧ endWrite r = raise k r.2 := by
  obtain ⟨_ | k, m⟩ := r
  · exact .inl ⟨rfl, rfl⟩
  · exact .inr ⟨k, rfl, rfl⟩

theorem endRead_cases (r : Res Byte × State) :
    (∃ v, r.1 = .ok v ∧ endRead r = complete true (setRdata v r.2))
      ∨ ∃ k, r.1 = .fail k ∧ endRead r = raise k (drawRdata r.2) := by
  obtain ⟨v | k, m⟩ := r
  · exact .inl ⟨v, rfl, rfl⟩
  · exact .inr ⟨k, rfl, rfl⟩

theorem endPresence_cases (r : Res Bool × State) :
    (∃ b, r.1 = .ok b ∧ endPresence r = complete b r.2) ∨ ∃ k, r.1 = .fail k ∧ endPresence r = raise k r.2 := by
  obtain ⟨b | k, m⟩ := r
  · exact .inl ⟨b, rfl, rfl⟩
  · exact .inr ⟨k, rfl, rfl⟩

/-- An operation of one procedure whose end changes only `STATUS` and the sequencer. -/
structure Quiet (pwr : Bool) (s t : State) : Prop where
  ran : Ran pwr s t
  search : t.search = s.search
  rdata : t.rdata = s.rdata
  mem : t.mem = s.mem

theorem BusRun.quiet_complete {pwr : Bool} {s m : State} (h : BusRun pwr s m) (r : Bool) : Quiet pwr s (complete r m) :=
  ⟨h.ran (complete_sameHost r m) rfl ⟨rfl, rfl, rfl, rfl, rfl⟩, h.search, h.rdata, h.mem⟩

theorem BusRun.quiet_raise {pwr : Bool} {s m : State} (h : BusRun pwr s m) (k : ErrKind) : Quiet pwr s (raise k m) :=
  ⟨h.ran (raise_sameHost k m) rfl ⟨rfl, rfl, rfl, rfl, rfl⟩, h.search, h.rdata, h.mem⟩

theorem Quiet.of_start {pwr : Bool} {i : Instr} {s t : State} (h : Quiet pwr (start i s) t) : Quiet pwr s t :=
  ⟨h.ran.from (start_sameHost i s) rfl rfl, h.search, h.rdata, h.mem⟩

theorem BusRun.then_quiet {pwr : Bool} {s m t : State} (h : BusRun pwr s m) (g : Quiet pwr m t) : Quiet pwr s t :=
  ⟨h.then_ran g.ran, g.search.trans h.search, g.rdata.trans h.rdata, g.mem.trans h.mem⟩

theorem endWrite_quiet {pwr : Bool} {s : State} {r : Res Unit × State} (h : BusRun pwr s r.2) :
    Quiet pwr s (endWrite r) := by
  rcases endWrite_cases r with ⟨-, e⟩ | ⟨k, -, e⟩ <;> rw [e]
  · exact h.quiet_complete true
  · exact h.quiet_raise k

theorem endPresence_quiet {pwr : Bool} {s : State} {r : Res Bool × State} (h : BusRun pwr s r.2) :
    Quiet pwr s (endPresence r) := by
  rcases endPresence_cases r with ⟨b, -, e⟩ | ⟨k, -, e⟩ <;> rw [e]
  · exact h.quiet_complete b
  · exact h.quiet_raise k

theorem nextIndex_quiet {pwr : Bool} {s t : State} (h : Quiet pwr (nextIndex s) t) : Quiet pwr s t :=
  ⟨h.ran.from ⟨rfl, rfl, rfl, rfl, rfl⟩ rfl rfl, h.search, h.rdata, h.mem⟩

/-! ### Each operation -/

theorem execReset_quiet {s t : State} (h : execReset s = .next t) : Quiet false s t := by
  cases h
  exact (endPresence_quiet (resetP_busRun _)).of_start

theorem execWriteBit_quiet {v : Bool} {s t : State} (h : execWriteBit v s = .next t) : Quiet false s t := by
  cases h
  exact (endWrite_quiet (writeP_busRun _ _ _ _)).of_start

theorem execWriteBits_quiet {d : Byte} {n : Nat} {pwr : Bool} {s t : State} (h : execWriteBits d n pwr s = .next t) :
    Quiet pwr s t := by
  cases h
  exact (endWrite_quiet (writeP_busRun _ _ _ _)).of_start

theorem execWriteByte_quiet {d : Byte} {s t : State} (h : execWriteByte d s = .next t) : Quiet false s t := by
  cases h
  exact (endWrite_quiet (writeP_busRun _ _ _ _)).of_start

theorem execSkip_quiet {s t : State} (h : execSkip s = .next t) : Quiet false s t := by
  cases h
  exact (endWrite_quiet (writeP_busRun _ _ _ _)).of_start

theorem execSelect_quiet {s t : State} (h : execSelect s = .next t) : Quiet false s t := by
  simp only [execSelect] at h
  split at h
  · cases h
    exact (endWrite_quiet (writeList_busRun _ _)).of_start
  · cases h

theorem writeBytesLoop_quiet {pwr : Bool} {k : Nat} {s t : State} (h : writeBytesLoop pwr k s = .next t) :
    Quiet pwr s t := by
  induction k generalizing s with
  | zero => cases h; exact (BusRun.refl pwr s).quiet_complete true
  | succ k ih =>
    simp only [writeBytesLoop] at h
    split at h
    · have hw := writeP_busRun (s.mem.read (operandA s + s.seq.index)) 8 pwr s
      split at h <;> rename_i e <;> rw [e] at hw
      · exact hw.then_quiet (nextIndex_quiet (ih h))
      · cases h; exact hw.quiet_raise _
    · cases h

theorem execWriteBytes_quiet {pwr : Bool} {s t : State} (h : execWriteBytes pwr s = .next t) : Quiet pwr s t :=
  (writeBytesLoop_quiet h).of_start

/-- What a read into `RDATA` did. -/
structure ReadRan (s t : State) : Prop where
  ran : Ran false s t
  search : t.search = s.search
  mem : t.mem = s.mem

theorem endRead_readRan {i : Instr} {s : State} {r : Res Byte × State} (h : BusRun false (start i s) r.2) :
    ReadRan s (endRead r) := by
  rcases endRead_cases r with ⟨v, -, e⟩ | ⟨k, -, e⟩ <;> rw [e]
  · exact ⟨(BusRun.ran (t := complete true (setRdata v r.2)) h ⟨rfl, rfl, rfl, rfl, rfl⟩ rfl
      ⟨rfl, rfl, rfl, rfl, rfl⟩).from (start_sameHost i s) rfl rfl, h.search, h.mem⟩
  · exact ⟨(BusRun.ran (t := raise k (drawRdata r.2)) h ⟨rfl, rfl, rfl, rfl, rfl⟩ rfl
      ⟨rfl, rfl, rfl, rfl, rfl⟩).from (start_sameHost i s) rfl rfl, h.search, h.mem⟩

theorem execReadBit_ran {s t : State} (h : execReadBit s = .next t) : ReadRan s t := by
  cases h; exact endRead_readRan (readP_busRun _ _)

theorem execReadBits_ran {n : Nat} {s t : State} (h : execReadBits n s = .next t) : ReadRan s t := by
  cases h; exact endRead_readRan (readP_busRun _ _)

theorem execReadByte_ran {s t : State} (h : execReadByte s = .next t) : ReadRan s t := by
  cases h; exact endRead_readRan (readP_busRun _ _)

/-- What the loop of `READ_BYTES` over `k` bytes did: the memory keeps its form, and only the bytes from the loop's
place
on may differ. -/
structure LoopRan (k : Nat) (s t : State) : Prop where
  ran : Ran false s t
  search : t.search = s.search
  rdata : t.rdata = s.rdata
  outside : ∀ a, a < operandA s + s.seq.index ∨ operandA s + s.seq.index + k ≤ a → t.mem.read a = s.mem.read a
  wf : s.mem.wf = true → t.mem.wf = true
  below : s.mem.below s.params.addrW = true → t.mem.below s.params.addrW = true

theorem readBytesLoop_ran {k : Nat} {s t : State} (h : readBytesLoop k s = .next t) : LoopRan k s t := by
  induction k generalizing s with
  | zero =>
    cases h
    have q := (BusRun.refl false s).quiet_complete true
    exact ⟨q.ran, rfl, rfl, fun a _ => rfl, id, id⟩
  | succ k ih =>
    simp only [readBytesLoop] at h
    have hr := readP_busRun 8 s
    split at h <;> rename_i e <;> rw [e] at hr <;> rename_i r s1 <;> dsimp only at hr
    all_goals have hA : operandA s1 = operandA s := by simp only [operandA, hr.snap]
    all_goals split at h <;> rename_i ha
    · have g := ih h
      rw [admitted_iff, hr.params] at ha
      have hA2 : operandA (nextIndex (memWrite (operandA s1 + s1.seq.index) r s1)) = operandA s := by
        simpa [operandA] using congrArg (fun x => BitVec.toNat (Snapshot.addr x)) hr.snap
      refine ⟨hr.then_ran (g.ran.from ⟨rfl, rfl, rfl, rfl, rfl⟩ rfl rfl), g.search.trans hr.search,
        g.rdata.trans hr.rdata, fun a h' => ?_, fun hw => g.wf (write_wf (hr.mem ▸ hw) _ _), fun hb => ?_⟩
      · rw [g.outside a (by rw [hA2]; simp only [nextIndex_seq, memWrite_seq, hr.index]; omega)]
        simp only [nextIndex_mem, memWrite_mem]
        rw [read_write_other _ (by rw [hA, hr.index]; omega), hr.mem]
      · have hp : (nextIndex (memWrite (operandA s1 + s1.seq.index) r s1)).params = s.params := hr.params
        have := g.below
        rw [hp] at this
        refine this ?_
        simp only [nextIndex_mem, memWrite_mem, hr.mem]
        exact write_below hb ha _
    · cases h
    · cases h
      rw [admitted_iff, hr.params] at ha
      refine ⟨hr.ran ⟨rfl, rfl, rfl, rfl, rfl⟩ rfl ⟨rfl, rfl, rfl, rfl, rfl⟩, hr.search, hr.rdata, fun a h' => ?_,
        fun hw => write_wf (hr.mem ▸ hw) _ _, fun hb => ?_⟩
      · simp only [raise_mem, drawMem_mem]
        rw [read_write_other _ (by rw [hA, hr.index]; omega), hr.mem]
      · simp only [raise_mem, drawMem_mem, hr.mem]
        exact write_below hb ha _
    · cases h

@[simp] theorem operandA_start (i : Instr) (s : State) : operandA (start i s) = bufferA s := rfl

@[simp] theorem operandL_start (i : Instr) (s : State) : operandL (start i s) = bufferL s := rfl

theorem execReadBytes_ran {s t : State} (h : execReadBytes s = .next t) :
    LoopRan (bufferL s) (start .readBytes s) t ∧ Ran false s t :=
  ⟨readBytesLoop_ran h, (readBytesLoop_ran h).ran.from (start_sameHost _ _) rfl rfl⟩

/-! ### Searches -/

/-- What the walk and the preamble of a search do: channel calls, and changes to the SearchState and the search locals.
-/
structure WalkRun (s t : State) : Prop where
  params : t.params = s.params
  busy : t.busy = s.busy
  rdata : t.rdata = s.rdata
  bufAddr : t.bufAddr = s.bufAddr
  bufLen : t.bufLen = s.bufLen
  mem : t.mem = s.mem
  host : t.host = s.host
  hostReads : t.hostReads = s.hostReads
  snap : t.seq.snap = s.seq.snap
  driveOff : s.drive = false → t.drive = false
  history : ∃ es, t.events = s.events ++ es ∧ (s.drive = false → ∀ e ∈ es, EventOk false e)
  threshold : Threshold s t

theorem WalkRun.refl (s : State) : WalkRun s s := by
  constructor <;> first | rfl | exact id | exact ⟨[], by simp, by simp⟩ | exact Threshold.same rfl rfl

theorem BusRun.walk {s t : State} (h : BusRun false s t) : WalkRun s t :=
  ⟨h.params, h.busy, h.rdata, h.bufAddr, h.bufLen, h.mem, h.host, h.hostReads, h.snap, h.driveOff, h.history,
    h.threshold⟩

theorem WalkRun.trans {s t u : State} (h : WalkRun s t) (g : WalkRun t u) : WalkRun s u := by
  obtain ⟨es, he, ho⟩ := h.history
  obtain ⟨fs, hf, hp⟩ := g.history
  refine ⟨g.params.trans h.params, g.busy.trans h.busy, g.rdata.trans h.rdata, g.bufAddr.trans h.bufAddr,
    g.bufLen.trans h.bufLen, g.mem.trans h.mem, g.host.trans h.host, g.hostReads.trans h.hostReads, g.snap.trans h.snap,
    fun d => g.driveOff (h.driveOff d), ⟨es ++ fs, by rw [hf, he, List.append_assoc], fun d e hm => ?_⟩,
    h.threshold.trans g.threshold he hf⟩
  rcases List.mem_append.1 hm with hm | hm
  · exact ho d e hm
  · exact hp (h.driveOff d) e hm

/-- A change of the SearchState and the search locals alone. -/
theorem setBoth_walk (x : SearchState) (l : SearchLocals) (s : State) : WalkRun s (setSearch x (setLocals l s)) :=
  ⟨rfl, rfl, rfl, rfl, rfl, rfl, rfl, rfl, rfl, id, ⟨[], by simp, by simp⟩, .same rfl rfl⟩

theorem setLocals_walk (l : SearchLocals) (s : State) : WalkRun s (setLocals l s) :=
  ⟨rfl, rfl, rfl, rfl, rfl, rfl, rfl, rfl, rfl, id, ⟨[], by simp, by simp⟩, .same rfl rfl⟩

theorem setSearch_walk (x : SearchState) (s : State) : WalkRun s (setSearch x s) :=
  ⟨rfl, rfl, rfl, rfl, rfl, rfl, rfl, rfl, rfl, id, ⟨[], by simp, by simp⟩, .same rfl rfl⟩

theorem afterPair_walk (v : Byte) (s : State) : WalkRun s (afterPair v s) := setBoth_walk _ _ _

theorem afterDirection_walk (s : State) : WalkRun s (afterDirection s) :=
  ⟨rfl, rfl, rfl, rfl, rfl, rfl, rfl, rfl, rfl, id, ⟨[], by simp, by simp⟩, .same rfl rfl⟩

/-- The four ways one position of the walk can go. -/
theorem searchPosition_cases (s : State) :
    (∃ k, (readP 2 s).1 = .fail k ∧ searchPosition s = (some (.failed k), (readP 2 s).2))
      ∨ ∃ v, (readP 2 s).1 = .ok v ∧
        ((v.getLsbD 0 = true ∧ v.getLsbD 1 = true ∧ searchPosition s = (some .notFound, (readP 2 s).2))
          ∨ (¬(v.getLsbD 0 = true ∧ v.getLsbD 1 = true)
            ∧ ((∃ us, txNow (readP 2 s).2 = .err us ∧ searchPosition s
                = (some (.failed .channelError), writeBurst (zext8 (afterPair v (readP 2 s).2).seq.search.direction) 1
                    false (afterPair v (readP 2 s).2)))
              ∨ (txNow (readP 2 s).2 = .ok ∧ searchPosition s
                = (none, afterDirection (writeBurst (zext8 (afterPair v (readP 2 s).2).seq.search.direction) 1 false
                    (afterPair v (readP 2 s).2))))))) := by
  simp only [searchPosition]
  generalize readP 2 s = r
  obtain ⟨v | k, s1⟩ := r
  · refine .inr ⟨v, rfl, ?_⟩
    dsimp only
    rw [writeP_run (n := 1) (by decide), txNow_afterPair]
    cases h : v.getLsbD 0 && v.getLsbD 1
    · simp only [Bool.false_eq_true, if_false]
      cases txNow s1 with
      | ok => exact .inr ⟨by simpa using h, .inr ⟨rfl, rfl⟩⟩
      | err us => exact .inr ⟨by simpa using h, .inl ⟨us, rfl, rfl⟩⟩
    · rw [Bool.and_eq_true] at h
      exact .inl ⟨h.1, h.2, rfl⟩
  · exact .inl ⟨k, rfl, rfl⟩

theorem searchPosition_walk (s : State) : WalkRun s (searchPosition s).2 := by
  have hr := (readP_busRun 2 s).walk
  have hw (v : Byte) := (hr.trans (afterPair_walk v _)).trans
    (writeBurst_busRun (zext8 (afterPair v (readP 2 s).2).seq.search.direction) (n := 1) (by omega) false _).walk
  rcases searchPosition_cases s with ⟨k, -, e⟩ | ⟨v, -, ⟨-, -, e⟩ | ⟨-, ⟨us, -, e⟩ | ⟨-, e⟩⟩⟩ <;> rw [e]
  · exact hr
  · exact hr
  · exact hw v
  · exact (hw v).trans (afterDirection_walk _)

theorem searchWalk_walk (k : Nat) (s : State) : WalkRun s (searchWalk k s).2 := by
  induction k generalizing s with
  | zero => exact WalkRun.refl s
  | succ k ih =>
    have h := searchPosition_walk s
    simp only [searchWalk]
    split <;> rename_i e <;> rw [e] at h
    · exact h
    · exact h.trans (ih _)

theorem searchTree_walk (s : State) : WalkRun s (searchTree s).2 := by
  have h := (setLocals_walk SearchLocals.start s).trans (searchWalk_walk romBits _)
  simp only [searchTree]
  split <;> rename_i e <;> rw [e] at h
  · exact h
  · exact h.trans (setSearch_walk _ _)

theorem searchBus_walk (s : State) : WalkRun s (searchBus s).2 := by
  have h := (resetP_busRun s).walk
  simp only [searchBus]
  split <;> rename_i e <;> rw [e] at h
  · exact h
  · exact h
  · rename_i s1
    have g := (writeP_busRun cmdSearchRom 8 false s1).walk
    split <;> rename_i e' <;> rw [e'] at g
    · exact h.trans g
    · exact (h.trans g).trans (searchTree_walk _)

/-- A search whose kinds are named fails with a `ChannelError` or a `Timeout` (43_search.md R305). -/
theorem searchPosition_failed {s : State} {k : ErrKind} (h : (searchPosition s).1 = some (.failed k)) :
    k = .channelError ∨ k = .timeout := by
  rcases searchPosition_cases s with ⟨k', hr, e⟩ | ⟨v, -, ⟨-, -, e⟩ | ⟨-, ⟨us, -, e⟩ | ⟨-, e⟩⟩⟩ <;> rw [e] at h
  · have := readP_fail hr
    simp only [Option.some.injEq, SearchEnd.failed.injEq] at h
    subst h
    rcases this with ⟨h, -⟩ | ⟨-, h⟩
    · exact h
    · exact absurd h (by decide)
  · simp at h
  · simp only [Option.some.injEq, SearchEnd.failed.injEq] at h; exact .inl h.symm
  · simp at h

theorem searchWalk_failed {n : Nat} {s : State} {k : ErrKind} (h : (searchWalk n s).1 = some (.failed k)) :
    k = .channelError ∨ k = .timeout := by
  induction n generalizing s with
  | zero => simp [searchWalk] at h
  | succ n ih =>
    simp only [searchWalk] at h
    split at h <;> rename_i e
    · exact searchPosition_failed (s := s) (by rw [e]; exact h)
    · exact ih h

theorem searchTree_failed {s : State} {k : ErrKind} (h : (searchTree s).1 = .failed k) :
    k = .channelError ∨ k = .timeout := by
  simp only [searchTree] at h
  split at h <;> rename_i e
  · exact searchWalk_failed (n := romBits) (by rw [e]; exact congrArg some h)
  · dsimp only at h; split at h <;> simp at h

theorem searchBus_failed {s : State} {k : ErrKind} (h : (searchBus s).1 = .failed k) :
    k = .channelError ∨ k = .timeout := by
  simp only [searchBus] at h
  split at h <;> rename_i e
  · exact resetP_fail (s := s) (by rw [e]; simpa using h)
  · simp at h
  · split at h <;> rename_i e'
    · have := writeP_fail (congrArg Prod.fst e')
      rcases this with ⟨h', -⟩ | ⟨-, h'⟩
      · left; simp only [SearchEnd.failed.injEq] at h; rw [← h, h']
      · exact absurd h' (by decide)
    · exact searchTree_failed h

/-- What a search did. -/
theorem endSearch_ran {s : State} {r : SearchEnd × State} (h : WalkRun s r.2) : Ran false s (endSearch r) := by
  have key (m t : State) (hm : WalkRun s m) (hh : SameHost m t) (he : t.events = m.events)
      (hi : t.idleThreshold = m.idleThreshold) (hd : Ended t.result t.err t) : Ran false s t :=
    { host := ⟨hh.params.trans hm.params, hh.bufAddr.trans hm.bufAddr, hh.bufLen.trans hm.bufLen, hh.host.trans hm.host,
        hh.hostReads.trans hm.hostReads⟩
      ended := hd
      history := by obtain ⟨es, e, ho⟩ := hm.history; exact ⟨es, he.trans e, ho⟩
      threshold := by
        obtain ⟨es, e, -⟩ := hm.history
        exact hm.threshold.trans (.same he hi) e (by rw [he, List.append_nil]) }
  obtain ⟨_ | _ | k, m⟩ := r
  · refine key m _ h ?_ ?_ ?_ ⟨rfl, rfl, rfl, rfl, rfl⟩
    · simp only [endSearch]; rw [memWriteList_eq]; exact ⟨rfl, rfl, rfl, rfl, rfl⟩
    · simp only [endSearch]; rw [memWriteList_eq]; rfl
    · simp only [endSearch]; rw [memWriteList_eq]; rfl
  · exact key m _ h ⟨rfl, rfl, rfl, rfl, rfl⟩ rfl rfl ⟨rfl, rfl, rfl, rfl, rfl⟩
  · exact key m _ h ⟨rfl, rfl, rfl, rfl, rfl⟩ rfl rfl ⟨rfl, rfl, rfl, rfl, rfl⟩

/-- The three ways a search answers a next state: with `LDF` = 1 at entry, found with its buffer admitted, or not
found. -/
theorem execSearch_cases {s t : State} (h : execSearch s = .next t) :
    (s.search.ldf = true ∧ t = complete false (start .search s))
      ∨ (s.search.ldf = false ∧ t = endSearch (searchBus (start .search s))
        ∧ ((searchBus (start .search s)).1 = .found → bufferA s + 8 ≤ 2 ^ s.params.addrW)) := by
  simp only [execSearch] at h
  by_cases hl : (start .search s).search.ldf = true
  · rw [if_pos hl] at h; cases h; exact .inl ⟨hl, rfl⟩
  · refine .inr ⟨by simpa using hl, ?_⟩
    rw [if_neg hl] at h
    by_cases ha : rangeAdmitted (start .search s) (operandA (start .search s)) romBytes = true
    · rw [if_pos ha] at h
      cases h
      exact ⟨rfl, fun _ => (rangeAdmitted_iff _ _ _).1 ha⟩
    · rw [if_neg ha] at h
      split at h <;> rename_i e
      · cases h
      · cases h; rw [e]; exact ⟨rfl, by simp⟩
      · cases h; rw [e]; exact ⟨rfl, by simp⟩

/-- A search that finds nothing stores nothing. -/
theorem endSearch_mem {r : SearchEnd × State} (h : r.1 ≠ .found) : (endSearch r).mem = r.2.mem := by
  obtain ⟨_ | _ | k, m⟩ := r <;> first | exact absurd rfl h | rfl

theorem endSearch_result {r : SearchEnd × State} : (endSearch r).result = true ↔ r.1 = .found := by
  obtain ⟨_ | _ | k, m⟩ := r <;> simp [endSearch]

theorem execSearch_ran {s t : State} (h : execSearch s = .next t) : Ran false s t := by
  rcases execSearch_cases h with ⟨-, rfl⟩ | ⟨-, rfl, -⟩
  · exact ((BusRun.refl false _).quiet_complete false).of_start.ran
  · exact (endSearch_ran (searchBus_walk _)).from (start_sameHost _ _) rfl rfl

/-! ### Every operation -/

/-- Every operation that ends has run. -/
theorem exec_ran {i : Instr} {s t : State} (h : exec i s = .next t) : Ran (powered i) s t := by
  cases i with
  | reset => exact (execReset_quiet h).ran
  | writeBit v => exact (execWriteBit_quiet h).ran
  | writeBits d n pwr => exact (execWriteBits_quiet h).ran
  | writeByte d => exact (execWriteByte_quiet h).ran
  | writeBytes pwr => exact (execWriteBytes_quiet h).ran
  | readBit => exact (execReadBit_ran h).ran
  | readBits n => exact (execReadBits_ran h).ran
  | readByte => exact (execReadByte_ran h).ran
  | readBytes => exact (execReadBytes_ran h).2
  | select => exact (execSelect_quiet h).ran
  | skip => exact (execSkip_quiet h).ran
  | resetSearch => cases h; exact ⟨⟨rfl, rfl, rfl, rfl, rfl⟩, ⟨rfl, rfl, rfl, rfl, rfl⟩, ⟨[], by simp, by simp⟩, .same rfl rfl⟩
  | targetSearch f => cases h; exact ⟨⟨rfl, rfl, rfl, rfl, rfl⟩, ⟨rfl, rfl, rfl, rfl, rfl⟩, ⟨[], by simp, by simp⟩, .same rfl rfl⟩
  | search => exact execSearch_ran h

end Sys2Proof.Machine
end

