-- ==== Sys2Proof/Laws/Wire.lean ====
section
/-! SUPPORT. The segments and the lows of a train of slots, and the bits of a packed group. -/

namespace Sys2Proof.Machine

/-- The two segments of a slot. -/
def slotSegs (p : Params) (v : Bool) : List Segment := trainSegments (slot p v)

theorem lasts_append (a b : List Segment) : lasts (a ++ b) = lasts a + lasts b := by simp [lasts]

theorem trainSegments_append (a b : Train) : trainSegments (a ++ b) = trainSegments a ++ trainSegments b := by
  induction a with
  | nil => rfl
  | cons x a ih => cases x <;> simp [trainSegments, ih]

/-- The segments of a train of slots. -/
theorem trainSegments_slots (p : Params) (bs : List Bool) :
    trainSegments (bs.flatMap (slot p) ++ [.endMark]) = bs.flatMap (slotSegs p) := by
  rw [trainSegments_append]
  induction bs with
  | nil => rfl
  | cons b bs ih => simp only [List.flatMap_cons, trainSegments_append, ← ih, slotSegs, List.append_assoc]

theorem slotSegs_length (p : Params) (v : Bool) : (slotSegs p v).length = 2 := by cases v <;> rfl

theorem slots_length (p : Params) (bs : List Bool) : (bs.flatMap (slotSegs p)).length = 2 * bs.length := by
  induction bs with
  | nil => rfl
  | cons b bs ih => simp [slotSegs_length, ih]; omega

/-- Every slot lasts `T_SLOT`. -/
theorem slotSegs_lasts {p : Params} (hp : p.Valid) (b : Bool) : lasts (slotSegs p b) = p.timing.tSlot := by
  cases b
  · simpa [slotSegs, slot, trainSegments, lasts, pulse] using hp.slot
  · simp [slotSegs, slot, trainSegments, lasts, pulse, TimingTable.tSlot]

theorem lows_append (a b : Capture) : lows (a ++ b) = lows a ++ lows b := by simp [lows]

/-- The lows of a train of slots: one per slot, short for 1 and long for 0. -/
theorem lows_slots (p : Params) (bs : List Bool) :
    lows (bs.flatMap (slotSegs p)) = bs.map fun b => if b then p.timing.tW1l else p.timing.tW0l := by
  induction bs with
  | nil => rfl
  | cons b bs ih =>
    rw [List.flatMap_cons, lows_append, ih]
    cases b <;> simp [slotSegs, slot, trainSegments, pulse, lows]

theorem slots_getLast (p : Params) (bs : List Bool) (b : Bool) :
    ∃ x, (bs.flatMap (slotSegs p) ++ slotSegs p b).getLast? = some ⟨.high, x⟩ := by
  cases b
  · exact ⟨p.timing.tW0h, by simp [slotSegs, slot, trainSegments, pulse]⟩
  · exact ⟨p.timing.tW1h, by simp [slotSegs, slot, trainSegments, pulse]⟩

/-- The loopback of a train of slots keeps every low. -/
theorem lows_loopCapture (p : Params) (bs : List Bool) :
    lows (loopCapture (bs.flatMap (slot p) ++ [.endMark]))
      = bs.map fun b => if b then p.timing.tW1l else p.timing.tW0l := by
  simp only [loopCapture, dropFinalHigh, trainSegments_slots]
  rw [← lows_slots]
  rcases List.eq_nil_or_concat bs with rfl | ⟨cs, b, rfl⟩
  · rfl
  · simp only [List.concat_eq_append, List.flatMap_append, List.flatMap_cons, List.flatMap_nil, List.append_nil]
    obtain ⟨x, hx⟩ := slots_getLast p cs b
    rw [hx]
    dsimp only
    rw [List.dropLast_append_of_ne_nil (by cases b <;> simp [slotSegs, slot, trainSegments, pulse]), lows_append,
      lows_append]
    congr 1
    cases b <;> simp [slotSegs, slot, trainSegments, pulse, lows]

/-! ### The receiver (40_channel.md R155) -/

/-- The line of slots given by their low and high times. -/
def slotLine (xs : List (Nat × Nat)) : List Segment := xs.flatMap fun x => [⟨.low, x.1⟩, ⟨.high, x.2⟩]

theorem slotLine_cons (x : Nat × Nat) (xs : List (Nat × Nat)) :
    slotLine (x :: xs) = ⟨.low, x.1⟩ :: ⟨.high, x.2⟩ :: slotLine xs := rfl

/-- Slots alternate already. -/
theorem mergeSegments_slotLine {xs : List (Nat × Nat)} (h : ∀ x ∈ xs, 0 < x.1 ∧ 0 < x.2) :
    mergeSegments (slotLine xs) = slotLine xs := by
  induction xs with
  | nil => rfl
  | cons x xs ih =>
    obtain ⟨h1, h2⟩ := h x (by simp)
    simp only [slotLine_cons, mergeSegments, ih fun y hy => h y (by simp [hy]), Nat.pos_iff_ne_zero.1 h1,
      Nat.pos_iff_ne_zero.1 h2, if_false]
    cases xs <;> simp [slotLine]

/-- A capture in progress goes on while no level 1 lasts the idle threshold. -/
theorem capturesFrom_one {idle : Nat} {c : Capture} {segs : List Segment} (hc : c ≠ [])
    (h : ∀ g ∈ segs, g.level = .high → g.duration < idle) :
    capturesFrom idle c segs = [dropFinalHigh (c ++ segs)] := by
  induction segs generalizing c with
  | nil => simp [capturesFrom, hc]
  | cons g segs ih =>
    have hs : ∀ g ∈ segs, g.level = .high → g.duration < idle := fun x hx => h x (by simp [hx])
    simp only [capturesFrom]
    cases hg : g.level with
    | low => simpa using ih (c := c ++ [g]) (by simp) hs
    | high => simpa [hc, Nat.not_le.2 (h g (by simp) hg)] using ih (c := c ++ [g]) (by simp) hs

/-- A line that falls first and never stays high for the threshold makes one capture. -/
theorem capturesOf_one {idle : Nat} {segs rest : List Segment} {d : Nat} (hm : mergeSegments segs = ⟨.low, d⟩ :: rest)
    (h : ∀ g ∈ rest, g.level = .high → g.duration < idle) :
    capturesOf idle segs = [dropFinalHigh (mergeSegments segs)] := by
  rw [capturesOf, hm]
  exact capturesFrom_one (c := [⟨.low, d⟩]) (by simp) h

/-- Slots whose highs are shorter than the threshold fall in one capture (R155, R188). -/
theorem capturesOf_slotLine {idle : Nat} {xs : List (Nat × Nat)} (h0 : xs ≠ [])
    (h : ∀ x ∈ xs, 0 < x.1 ∧ 0 < x.2 ∧ x.2 < idle) :
    capturesOf idle (slotLine xs) = [dropFinalHigh (slotLine xs)] := by
  have hm := mergeSegments_slotLine (xs := xs) fun x hx => ⟨(h x hx).1, (h x hx).2.1⟩
  obtain ⟨x, xs, rfl⟩ := List.exists_cons_of_ne_nil h0
  rw [capturesOf_one (idle := idle) (hm.trans (slotLine_cons x xs)) ?_, hm]
  intro g hg hl
  simp only [slotLine, List.mem_cons, List.mem_flatMap, List.not_mem_nil, or_false] at hg
  rcases hg with rfl | ⟨y, hy, rfl | rfl⟩
  · exact (h x (by simp)).2.2
  · simp at hl
  · exact (h y (by simp [hy])).2.2

/-- The low and high time of a slot. -/
def slotTimes (p : Params) (v : Bool) : Nat × Nat :=
  if v then (p.timing.tW1l, p.timing.tW1h) else (p.timing.tW0l, p.timing.tW0h)

/-- A train of slots as a line. -/
theorem slots_line (p : Params) (bs : List Bool) : bs.flatMap (slotSegs p) = slotLine (bs.map (slotTimes p)) := by
  induction bs with
  | nil => rfl
  | cons b bs ih => rw [List.flatMap_cons, ih]; cases b <;> rfl

/-- The receiver makes one capture of a write or read group, its loopback, when both slots' highs are shorter than the
threshold (R155, R156). -/
theorem capturesOf_slots {p : Params} (hp : p.Valid) {idle : Nat} (h1 : p.timing.tW1h < idle)
    (h0 : p.timing.tW0h < idle) {bs : List Bool} (hb : bs ≠ []) :
    capturesOf idle (trainSegments (bs.flatMap (slot p) ++ [.endMark]))
      = [loopCapture (bs.flatMap (slot p) ++ [.endMark])] := by
  obtain ⟨q1, q2, q3, q4, -⟩ := hp.positive
  rw [loopCapture, trainSegments_slots, slots_line]
  refine capturesOf_slotLine (by simpa using hb) fun x hx => ?_
  obtain ⟨b, -, rfl⟩ := List.mem_map.1 hx
  cases b
  · exact ⟨q3, q4, h0⟩
  · exact ⟨q1, q2, h1⟩

/-- Bit `j` of a packed group is its `j`-th bit, 0 past its end. -/
theorem packBits_getLsbD (bs : List Bool) (j : Nat) (hj : j < 8) : (packBits bs).getLsbD j = bs.getD j false := by
  induction bs generalizing j with
  | nil => simp [packBits]
  | cons b bs ih =>
    rcases j with _ | j
    · simp [packBits, zext8]
    · have := ih j (by omega)
      simp [packBits, zext8] at this ⊢
      rw [this]
      simp [hj]

end Sys2Proof.Machine
end

