-- ==== Sys2Proof/Laws/Runs.lean ====
section
/-! SUPPORT. What the procedures and the loops do when the next answers of the Environment are given: what they return,
  which
answers they use, and the events they add. -/

namespace Sys2Proof.Machine

/-- A write group uses one transmit answer. -/
theorem writeBurst_txAnswers_tail (d : Byte) (n : Nat) (pwr : Bool) (s : State) : (writeBurst d n pwr s).txAnswers
    = s.txAnswers.tail := by
  cases pwr <;> simp [writeBurst, chTransmit_txAnswers]

/-- A write group uses no receive answer. -/
theorem writeBurst_rxAnswers_eq (d : Byte) (n : Nat) (pwr : Bool) (s : State) : (writeBurst d n pwr s).rxAnswers
    = s.rxAnswers := by
  cases pwr <;> simp [writeBurst]

-- WriteBytes

/-- A capture with enough lows decodes, bit by bit (40_channel.md R171). -/
theorem decodeBits_ok {p : Params} {c : Capture} {n : Nat} (h : n ≤ (lows c).length) : ∃ v,
    decodeBits p c n = .ok v ∧ ∀ j < 8, v.getLsbD j = (decide (j < n) && decide ((lows c).getD j 0 < p.timing.tRs)) :=
    by
  refine ⟨_, by simp only [decodeBits]; rw [if_neg (by omega)], fun j hj => ?_⟩
  rw [packBits_getLsbD _ _ hj]
  by_cases hn : j < n
  · have : j < (lows c).length := by omega
    simp [hn, List.getD, this]
  · simp [hn, List.getD]

/-- A read group whose transmit answers ok and whose receive answers a capture. -/
theorem readP_good {s : State} {n : Nat} {c : Capture} {txs : List TxAnswer} {rxs : List RxAnswer} (h1 : 1 ≤ n)
    (h8 : n ≤ 8)
    (hx : s.txAnswers = .ok :: txs) (hr : s.rxAnswers = .capture c :: rxs) :
    ∃ u, readP n s = (decodeBits s.params c n, u) ∧ u.txAnswers = txs ∧ u.rxAnswers = rxs ∧ BusRun false s u
      ∧ (s.drive = false → u.events = s.events ++ receiveEvents s.params.tIdleSlot s.params.tToRead
        (readTrain s.params n) c) := by
  have ht := txNow_cons hx
  have hrr : rxNow (usedTx s) = .capture c := rxNow_cons (as := rxs) (by simpa using hr)
  have hb := readP_busRun n s
  rw [readP_run ((groupOk_iff n).2 ⟨h1, h8⟩), receiveP_capture _ _ _ _ ht hrr] at hb ⊢
  refine ⟨_, rfl, by simp [hx], by simp [hr], hb, fun hd => ?_⟩
  simp [receiveEvents, chReceive_events, hrr, ht, hd]

/-- A read group whose receive times out. -/
theorem readP_timeout {s : State} {txs : List TxAnswer} {rxs : List RxAnswer}
    (hx : s.txAnswers = .ok :: txs) (hr : s.rxAnswers = .timeout :: rxs) :
    ∃ u, readP 8 s = (.fail .timeout, u) ∧ u.txAnswers = txs ∧ u.rxAnswers = rxs ∧ BusRun false s u := by
  have hb := readP_busRun 8 s
  rw [readP_run (by decide), receiveP_timeout _ _ _ _ (txNow_cons hx) (rxNow_cons (as := rxs)
    (by simpa using hr))] at hb ⊢
  exact ⟨_, rfl, by simp [hx], by simp [hr], hb⟩

/-- A read group whose receive fails. -/
theorem readP_rxErr {s : State} {txs : List TxAnswer} {rxs : List RxAnswer}
    (hx : s.txAnswers = .ok :: txs) (hr : s.rxAnswers = .err :: rxs) :
    ∃ u, readP 8 s = (.fail .channelError, u) ∧ u.txAnswers = txs ∧ u.rxAnswers = rxs ∧ BusRun false s u := by
  have hb := readP_busRun 8 s
  rw [readP_run (by decide), receiveP_rxErr _ _ _ _ (txNow_cons hx) (rxNow_cons (as := rxs)
    (by simpa using hr))] at hb ⊢
  exact ⟨_, rfl, by simp [hx], by simp [hr], hb⟩

/-- A read group whose capture has too few low segments. -/
theorem readP_short {s : State} {c : Capture} {txs : List TxAnswer} {rxs : List RxAnswer} (hc : (lows c).length < 8)
    (hx : s.txAnswers = .ok :: txs) (hr : s.rxAnswers = .capture c :: rxs) :
    ∃ u, readP 8 s = (.fail .channelError, u) ∧ u.txAnswers = txs ∧ u.rxAnswers = rxs ∧ BusRun false s u := by
  obtain ⟨u, h1, h2, h3, h4, -⟩ := readP_good (n := 8) (by omega) (by omega) hx hr
  exact ⟨u, by rw [h1]; simp [decodeBits, hc], h2, h3, h4⟩

/-- A read group whose transmit fails makes no receive. -/
theorem readP_txErr {s : State} {us : Nat} {txs : List TxAnswer} (hx : s.txAnswers = .err us :: txs) :
    ∃ u, readP 8 s = (.fail .channelError, u) ∧ u.txAnswers = txs ∧ u.rxAnswers = s.rxAnswers ∧ BusRun false s u := by
  have hb := readP_busRun 8 s
  rw [readP_run (by decide), receiveP_txErr _ _ _ _ (txNow_cons hx)] at hb ⊢
  exact ⟨_, rfl, by simp [hx], by simp, hb⟩

/-- A reset whose transmit answers ok and whose receive answers a capture. -/
theorem resetP_good {s : State} {c : Capture} {txs : List TxAnswer} {rxs : List RxAnswer} 
    (hx : s.txAnswers = .ok :: txs) (hr : s.rxAnswers = .capture c :: rxs) :
    ∃ u, resetP s = (.ok (decodePresence s.params c), u) ∧ u.txAnswers = txs ∧ u.rxAnswers = rxs ∧ BusRun false s u :=
      by
  have hb := resetP_busRun s
  rw [resetP, receiveP_capture _ _ _ _ (txNow_cons hx) (rxNow_cons (as := rxs) (by simpa using hr))] at hb ⊢
  exact ⟨_, rfl, by simp [hx], by simp [hr], hb⟩

/-- The loop of `WRITE_BYTES` sends bytes until one fails. -/
theorem writeBytesLoop_sends (pwr : Bool) (k : Nat) (s : State) (hd : s.drive = false)
    (ha : operandA s + s.seq.index + k ≤ 2 ^ s.params.addrW) :
    ∃ t, writeBytesLoop pwr k s = .next t ∧ ∃ m ≤ k, ∃ last : List Event,
        t.events = s.events
            ++ (List.range m).map (fun j => .transmit (bitsTrain s.params (s.mem.read
              (operandA s + s.seq.index + j)) 8) pwr .ok)
            ++ last
          ∧ ((m = k ∧ last = [] ∧ Ended true 0#3 t)
            ∨ (m < k ∧ Ended false 1#3 t
              ∧ ∃ us, last = [.transmit (bitsTrain s.params (s.mem.read (operandA s + s.seq.index + m)) 8) pwr
                (.err us)])) := by
  induction k generalizing s with
  | zero => exact ⟨_, rfl, 0, le_refl _, [], by simp, .inl ⟨rfl, rfl, complete_ended _ _⟩⟩
  | succ k ih =>
    have had : admitted s (operandA s + s.seq.index) = true := (admitted_iff _ _).2 (by omega)
    have hb := writeBurst_busRun (s.mem.read (operandA s + s.seq.index)) (n := 8) (by omega) pwr s
    have he := writeBurst_events (s.mem.read (operandA s + s.seq.index)) 8 pwr s
    have hpw : (if pwr then true else s.drive) = pwr := by cases pwr <;> simp [hd]
    simp only [writeBytesLoop, had, if_true]
    rw [writeP_run (n := 8) (by decide)]
    cases ht : txNow s with
    | ok =>
      simp only [txResult]
      generalize hm : writeBurst (s.mem.read (operandA s + s.seq.index)) 8 pwr s = u at *
      have hA : operandA (nextIndex u) = operandA s := by
        simp [operandA, hb.snap]
      have hI : (nextIndex u).seq.index = s.seq.index + 1 := by simp [hb.index]
      obtain ⟨t, h1, m, hm', last, h2, h3⟩ := ih (nextIndex u) (by simpa using hb.driveOff hd)
        (by rw [hA, hI]; simp only [nextIndex_params, hb.params]; omega)
      refine ⟨t, h1, m + 1, by omega, last, ?_, ?_⟩
      · rw [h2, hA, hI]
        simp only [nextIndex_events, he, hpw, ht, nextIndex_params, nextIndex_mem, hb.params, hb.mem,
          List.range_succ_eq_map, List.map_cons, List.map_map, List.append_assoc, List.cons_append, List.nil_append,
          Nat.add_zero]
        congr 3
        apply List.map_congr_left
        intro j _
        simp only [Function.comp, Nat.succ_eq_add_one]
        rw [show operandA s + (s.seq.index + 1) + j = operandA s + s.seq.index + (j + 1) by omega]
      · rcases h3 with ⟨rfl, h, g⟩ | ⟨h, g, us, hl⟩
        · exact .inl ⟨rfl, h, g⟩
        · refine .inr ⟨by omega, g, us, ?_⟩
          rw [hl, hA, hI]
          simp only [nextIndex_params, nextIndex_mem, hb.params, hb.mem]
          rw [show operandA s + (s.seq.index + 1) + m = operandA s + s.seq.index + (m + 1) by omega]
    | err us =>
      simp only [txResult]
      refine ⟨_, rfl, 0, by omega, _, ?_, .inr ⟨by omega, raise_ended .channelError _, us, rfl⟩⟩
      simp only [raise_events, he, hpw, ht]
      simp

/-- The loop of `WRITE_BYTES` over `k` bytes whose transmits answer ok. -/
theorem writeBytesLoop_ok (pwr : Bool) (k : Nat) (s : State) (rest : List TxAnswer)
    (ha : operandA s + s.seq.index + k ≤ 2 ^ s.params.addrW)
    (hx : s.txAnswers = List.replicate k .ok ++ rest) (r : Nat) : 
    ∃ u, writeBytesLoop pwr (k + r) s = writeBytesLoop pwr r u ∧ u.txAnswers = rest ∧ operandA u = operandA s
      ∧ u.seq.index = s.seq.index + k ∧ u.params = s.params ∧ (s.drive = false → u.drive = false) ∧ (s.drive = false
      → u.events = s.events ++ (List.range k).map (fun j => .transmit (bitsTrain s.params (s.mem.read
      (operandA s + s.seq.index + j)) 8) pwr .ok)) := by
  induction k generalizing s with
  | zero => exact ⟨s, by simp, by simpa using hx, rfl, rfl, rfl, id, by simp⟩
  | succ k ih =>
    have had : admitted s (operandA s + s.seq.index) = true := (admitted_iff _ _).2 (by omega)
    have hb := writeBurst_busRun (s.mem.read (operandA s + s.seq.index)) (n := 8) (by omega) pwr s
    have he := writeBurst_events (s.mem.read (operandA s + s.seq.index)) 8 pwr s
    have hx2 := writeBurst_txAnswers_tail (s.mem.read (operandA s + s.seq.index)) 8 pwr s
    have ht : txNow s = .ok := txNow_cons (by rw [hx, List.replicate_succ]; rfl)
    rw [show k + 1 + r = (k + r) + 1 by omega]
    simp only [writeBytesLoop, had, if_true]
    rw [writeP_run (n := 8) (by decide), ht]
    simp only [txResult]
    generalize hm : writeBurst (s.mem.read (operandA s + s.seq.index)) 8 pwr s = u at *
    have hA : operandA (nextIndex u) = operandA s := by simp [operandA, hb.snap]
    have hI : (nextIndex u).seq.index = s.seq.index + 1 := by simp [hb.index]
    obtain ⟨v, h1, h2, h3, h4, h5, h6,
      h7⟩ := ih (nextIndex u) (by rw [hA, hI]; simp only [nextIndex_params, hb.params]; omega)
      (by simp [hx2, hx, List.replicate_succ])
    refine ⟨v, h1, h2, h3.trans hA,
      by rw [h4, hI]; omega, by rw [h5]; exact hb.params, fun hd => h6 (hb.driveOff hd), fun hd => ?_⟩
    have hpw : (if pwr then true else s.drive) = pwr := by cases pwr <;> simp [hd]
    rw [h7 (hb.driveOff hd), hA, hI]
    simp only [nextIndex_events, he, hpw, ht, nextIndex_params, nextIndex_mem, hb.params, hb.mem,
      List.range_succ_eq_map, List.map_cons, List.map_map, List.append_assoc, List.cons_append, List.nil_append,
      Nat.add_zero]
    congr 3
    funext j
    simp only [Function.comp, Nat.succ_eq_add_one]
    rw [show operandA s + (s.seq.index + 1) + j = operandA s + s.seq.index + (j + 1) by omega]

/-- The loop of `READ_BYTES` over groups that are all read. -/
theorem readBytesLoop_ok (caps : List Capture) (s : State) (txs : List TxAnswer) (rxs : List RxAnswer) (r : Nat)
    (ha : operandA s + s.seq.index + caps.length ≤ 2 ^ s.params.addrW) (hc : ∀ c ∈ caps, 8 ≤ (lows c).length)
    (hx : s.txAnswers = List.replicate caps.length .ok ++ txs) (hr : s.rxAnswers = caps.map .capture ++ rxs) :
    ∃ u, readBytesLoop (caps.length + r) s = readBytesLoop r u ∧ u.txAnswers = txs ∧ u.rxAnswers = rxs
      ∧ operandA u = operandA s ∧ u.seq.index = s.seq.index + caps.length ∧ u.params = s.params ∧ u.rdata = s.rdata
      ∧ (s.mem.wf = true → u.mem.wf = true ∧ ∀ j, (h : j < caps.length) → decodeBits s.params caps[j] 8 = .ok
        (u.mem.read (operandA s + s.seq.index + j)))
      ∧ (∀ a, a < operandA s + s.seq.index ∨ operandA s + s.seq.index + caps.length ≤ a → u.mem.read a = s.mem.read a)
      ∧ (s.drive = false → u.drive = false ∧ u.events = s.events ++ caps.flatMap
        (receiveEvents s.params.tIdleSlot s.params.tToRead (readTrain s.params 8))) := by
  induction caps generalizing s with
  | nil => exact ⟨s, by simp, by simpa using hx, by simpa using hr, rfl, rfl, rfl, rfl, fun h => ⟨h, fun j hj => absurd hj (by simp)⟩, fun _ _ => rfl, fun h => ⟨h, by simp⟩⟩
  | cons c caps ih =>
    simp only [List.length_cons] at ha
    obtain ⟨u, e1, e2, e3, hb, e5⟩ := readP_good (n := 8) (s := s) (c := c) (txs := List.replicate caps.length .ok
      ++ txs) (rxs := caps.map .capture ++ rxs) (by omega) (by omega)
      (by rw [hx, List.length_cons, List.replicate_succ]; rfl) (by rw [hr]; rfl)
    obtain ⟨v, hv, -⟩ := decodeBits_ok (p := s.params) (hc c (by simp))
    have hA : operandA u = operandA s := by simp only [operandA, hb.snap]
    have had : admitted u (operandA u + u.seq.index) = true := (admitted_iff _ _).2
      (by rw [hA, hb.index, hb.params]; omega)
    rw [show (c :: caps).length + r = (caps.length + r) + 1 by simp; omega]
    simp only [readBytesLoop, e1, hv, had, if_true]
    set w := nextIndex (memWrite (operandA u + u.seq.index) v u) with hw
    have hwA : operandA w = operandA s :=
      by simpa [hw, operandA] using congrArg (fun x => BitVec.toNat (Snapshot.addr x)) hb.snap
    have hwI : w.seq.index = s.seq.index + 1 := by simp [hw, hb.index]
    have hwp : w.params = s.params := hb.params
    have hwm : w.mem = s.mem.write (operandA s + s.seq.index) v := by simp [hw, hb.mem, hA, hb.index]
    obtain ⟨x, g1, g2, g3, g4, g5, g6, g7, g8, g9, g10⟩ := ih w (by rw [hwA, hwI, hwp]; omega) (fun c' h => hc c'
      (by simp [h])) e2 e3
    refine ⟨x, g1, g2, g3, g4.trans hwA,
      by rw [g5, hwI, List.length_cons]; omega, g6.trans hwp, g7.trans hb.rdata, fun hm => ?_, fun a hal => ?_, fun hd => ?_⟩
    · obtain ⟨q1, q2⟩ := g8 (by rw [hwm]; exact write_wf hm _ _)
      refine ⟨q1, fun j hj => ?_⟩
      rcases j with _ | j
      · simp only [List.getElem_cons_zero, Nat.add_zero, hv]
        rw [g9 _ (by rw [hwA, hwI]; omega), hwm, read_write_same hm]
      · have := q2 j (by simpa using hj)
        rw [hwA, hwI, hwp] at this
        rw [List.getElem_cons_succ, this, show operandA s + s.seq.index + (j + 1) = operandA s +
          (s.seq.index + 1) + j by omega]
    · simp only [List.length_cons] at hal
      rw [g9 a (by rw [hwA, hwI]; omega), hwm, read_write_other _ (by omega)]
    · obtain ⟨q1, q2⟩ := g10 (hb.driveOff hd)
      refine ⟨q1, ?_⟩
      rw [q2, hwp]
      have : w.events = u.events := rfl
      rw [this, e5 hd, List.flatMap_cons, List.append_assoc]

/-- `READ_BYTES` whose groups `caps` are read and whose next group fails, leaving `txs` and `rxs`. -/
theorem execReadBytes_stops {caps : List Capture} {s : State} {tx2 txs : List TxAnswer} {rx2 rxs : List RxAnswer}
    {k : ErrKind} (hm : s.mem.wf = true) (ha : bufferA s + bufferL s ≤ 2 ^ s.params.addrW)
    (hl : caps.length < bufferL s) (hc : ∀ c ∈ caps, 8 ≤ (lows c).length)
    (hx : s.txAnswers = List.replicate caps.length .ok ++ tx2) (hr : s.rxAnswers = caps.map .capture ++ rx2)
    (hf : ∀ u : State, u.txAnswers = tx2 → u.rxAnswers = rx2 →
      ∃ v, readP 8 u = (.fail k, v) ∧ v.txAnswers = txs ∧ v.rxAnswers = rxs ∧ BusRun false u v) :
    Completes (execReadBytes s) (ReadStopped caps (errCode k) txs rxs s) := by
  obtain ⟨u, h1, h2, h3, h4, h5, h6, -, h8, h9, -⟩ := readBytesLoop_ok caps (start .readBytes s) tx2 rx2
    (bufferL s - caps.length)
    (by simp only [operandA_start]; show bufferA s + 0 + caps.length ≤ 2 ^ s.params.addrW; omega) hc hx hr
  obtain ⟨v, e1, e2, e3, hb⟩ := hf u h2 h3
  have hvA : operandA v + v.seq.index = bufferA s + caps.length := by
    have : operandA u = bufferA s := h4
    rw [show operandA v = operandA u by simp only [operandA, hb.snap], this, hb.index, h5]
    show _ + (0 + _) = _; omega
  have had : admitted v (operandA v + v.seq.index) = true :=
    (admitted_iff _ _).2 (by rw [hvA, hb.params, h6]; show _ < 2 ^ s.params.addrW; omega)
  have hout : ∀ a, a ≠ bufferA s + caps.length →
      (raise k (drawMem (operandA v + v.seq.index) v)).mem.read a = u.mem.read a := by
    intro a hne; simp only [raise_mem, drawMem_mem]; rw [read_write_other _ (by rw [hvA]; exact hne), hb.mem]
  refine ⟨raise k (drawMem (operandA v + v.seq.index) v), ?_, raise_ended k _, e2, e3, fun j hj => ?_, fun a hal => ?_⟩
  · simp only [execReadBytes, operandL_start]
    rw [show bufferL s = caps.length + (bufferL s - caps.length) by omega, h1,
      show bufferL s - caps.length = (bufferL s - caps.length - 1) + 1 by omega]
    simp only [readBytesLoop, e1, had, if_true]
  · rw [hout _ (by omega)]; exact (h8 hm).2 j hj
  · rw [hout _ (by omega)]; exact h9 a (by show a < bufferA s + 0 ∨ bufferA s + 0 + _ ≤ a; omega)

/-- A list of bytes whose transmits all answer ok. -/
theorem writeList_ok (bs : List Byte) (s : State) (rest : List TxAnswer) (hx : s.txAnswers
    = List.replicate bs.length .ok ++ rest) :
    ∃ u, writeList bs s = (.ok (), u) ∧ u.txAnswers = rest ∧ BusRun false s u ∧ (s.drive = false → u.events = s.events
      ++ bs.map fun b => .transmit (bitsTrain s.params b 8) false .ok) := by
  induction bs generalizing s with
  | nil => exact ⟨s, rfl, by simpa using hx, BusRun.refl _ _, by simp⟩
  | cons b bs ih =>
    have hb := writeBurst_busRun b (n := 8) (by omega) false s
    have he := writeBurst_events b 8 false s
    have hx2 := writeBurst_txAnswers_tail b 8 false s
    have ht : txNow s = .ok := txNow_cons (as := List.replicate bs.length .ok ++ rest)
      (by rw [hx, List.length_cons, List.replicate_succ]; rfl)
    obtain ⟨u, h1, h2, h3, h4⟩ := ih (writeBurst b 8 false s) (by simp [hx, List.replicate_succ])
    refine ⟨u, ?_, h2, hb.trans h3, fun hd => ?_⟩
    · simp only [writeList]; rw [writeP_run (n := 8) (by decide), ht]; exact h1
    · rw [h4 (hb.driveOff hd), he, ht, hd, hb.params]; simp

/-- A list of bytes whose transmit `k` fails. -/
theorem writeList_err (bs : List Byte) (k us : Nat) (s : State) (rest : List TxAnswer) (hk : k < bs.length)
    (hx : s.txAnswers = List.replicate k .ok ++ .err us :: rest) :
    ∃ u, writeList bs s = (.fail .channelError, u) ∧ u.txAnswers = rest ∧ u.events.length = s.events.length + k + 1 :=
      by
  induction bs generalizing s k with
  | nil => simp at hk
  | cons b bs ih =>
    have he := writeBurst_events b 8 false s
    have hx2 := writeBurst_txAnswers_tail b 8 false s
    rcases k with _ | k
    · have ht : txNow s = .err us := txNow_cons (as := rest) (by simpa using hx)
      refine ⟨writeBurst b 8 false s, ?_, by rw [hx2, hx]; rfl, by rw [he]; simp⟩
      simp only [writeList]; rw [writeP_run (n := 8) (by decide), ht]; rfl
    · have ht : txNow s = .ok := txNow_cons (as := List.replicate k .ok ++ .err us :: rest)
        (by rw [hx, List.replicate_succ]; rfl)
      obtain ⟨u, h1, h2, h3⟩ := ih k (writeBurst b 8 false s) (by simpa using hk) (by simp [hx, List.replicate_succ])
      refine ⟨u, ?_, h2, by rw [h3, he]; simp; omega⟩
      simp only [writeList]; rw [writeP_run (n := 8) (by decide), ht]; exact h1

/-- The buffer address operand is inside the address space. -/
theorem bufferA_lt (s : State) : bufferA s < 2 ^ s.params.addrW := by
  simp only [bufferA, bufAddrWord, maskAddr, BitVec.toNat_ofNat]
  exact lt_of_le_of_lt (Nat.mod_le _ _) (Nat.mod_lt _ (by positivity))

end Sys2Proof.Machine
end

