-- ==== Sys2Proof/Laws/Search.lean ====
section
/-! SUPPORT. Searches: what one position does to the SearchState and the locals,
  and where a walk whose answers come from a
set of ROM codes leads (43_search.md R292 to R303). -/

namespace Sys2Proof.Machine

/-- The pair (`rom_byte_number`, `rom_byte_mask`) keeps naming the position (10_state.md R54). -/
theorem advance_pair (l : SearchLocals) (h1 : 1 ≤ l.idBitNumber) (hk : l.romByteNumber = (l.idBitNumber - 1) / 8)
    (hm : l.romByteMask = 1#8 <<< ((l.idBitNumber - 1) % 8)) :
    (advance l).idBitNumber = l.idBitNumber + 1 ∧ (advance l).romByteNumber = l.idBitNumber / 8
      ∧ (advance l).romByteMask = 1#8 <<< (l.idBitNumber % 8) := by
  obtain ⟨q, r, hr, hq⟩ : ∃ q r, r < 8 ∧ l.idBitNumber = 8 * q + r + 1 := ⟨(l.idBitNumber - 1) / 8,
    (l.idBitNumber - 1) % 8, by omega, by omega⟩
  have e1 : (l.idBitNumber - 1) / 8 = q := by omega
  have e2 : (l.idBitNumber - 1) % 8 = r := by omega
  rw [e1] at hk; rw [e2] at hm
  simp only [advance, hm, hk]
  by_cases h7 : r = 7
  · subst h7
    rw [show l.idBitNumber / 8 = q + 1 by omega, show l.idBitNumber % 8 = 0 by omega]
    simp
  · rw [show l.idBitNumber / 8 = q by omega, show l.idBitNumber % 8 = r + 1 by omega]
    have : (1#8 <<< r) <<< 1 = 1#8 <<< (r + 1) := by rw [BitVec.shiftLeft_add]
    rw [this]
    have h0 : 1#8 <<< (r + 1) ≠ 0#8 := by
      have : r + 1 < 8 := by omega
      interval_cases h : r + 1 <;> decide
    simp [h0]

/-- A mask of one bit selects that bit. -/
theorem and_mask (b : Byte) (r : Nat) (hr : r < 8) : ((b &&& 1#8 <<< r) != 0x00#8) = b.getLsbD r := by
  have : ∀ r < 8, ∀ b : BitVec 8, ((b &&& 1#8 <<< r) != 0x00#8) = b.getLsbD r := by decide +kernel
  exact this r hr b

/-- The masked bit of `ROM_NO` is the bit of the position. -/
theorem masked_romBit (rom : Vector Byte 8) (l : SearchLocals) (hk : l.romByteNumber = (l.idBitNumber - 1) / 8)
    (hm : l.romByteMask = 1#8 <<< ((l.idBitNumber - 1) % 8)) :
    maskedBit rom l.romByteNumber l.romByteMask = romBit rom l.idBitNumber := by
  rw [maskedBit, hk, hm, romBit, and_mask _ _ (by omega)]

/-- A ROM code with one byte replaced. -/
theorem romByte_set (rom : Vector Byte 8) (k j : Nat) (v : Byte) (hk : k < 8) : romByte (rom.setIfInBounds k v) j
    = if j = k then v else romByte rom j := by
  simp only [romByte]
  rw [Vector.toList_setIfInBounds, List.getD_eq_getElem?_getD, List.getD_eq_getElem?_getD, List.getElem?_set]
  by_cases h : k = j
  · subst h; simp [hk]
  · simp [h, Ne.symm h]

/-- A ROM code with the bit of the position set. -/
theorem set_bit (rom : Vector Byte 8) (l : SearchLocals) (b : Bool) (h1 : 1 ≤ l.idBitNumber) (h64 : l.idBitNumber ≤ 64)
    (hk : l.romByteNumber = (l.idBitNumber - 1) / 8) (hm : l.romByteMask = 1#8 <<< ((l.idBitNumber - 1) % 8)) (q : Nat)
    (hq : 1 ≤ q) :
    romBit (setMaskedBit rom l.romByteNumber l.romByteMask b) q = if q = l.idBitNumber then b else romBit rom q := by
  have key : ∀ r < 8, ∀ i < 8, ∀ (b : Bool), ∀ v : BitVec 8,
    (if b then v ||| 1#8 <<< r else v &&& ~~~(1#8 <<< r)).getLsbD i = if i = r then b else v.getLsbD i :=
    by decide +kernel
  rw [setMaskedBit, romBit, romByte_set _ _ _ _ (by omega), hk, hm, romBit]
  by_cases hj : (q - 1) / 8 = (l.idBitNumber - 1) / 8
  · rw [if_pos hj, key _ (by omega) _ (by omega), hj]
    by_cases hi : (q - 1) % 8 = (l.idBitNumber - 1) % 8
    · rw [if_pos hi, if_pos (by omega)]
    · rw [if_neg hi, if_neg (by omega)]
  · rw [if_neg hj, if_neg (by omega)]

/-- One position of the walk whose channel calls are answered, and whose pair is not (1,1). -/
theorem position_good {s : State} {c : Capture} {v : Byte} {txs : List TxAnswer} {rxs : List RxAnswer}
    (hx : s.txAnswers = .ok :: .ok :: txs) (hr : s.rxAnswers = .capture c :: rxs)
    (hv : decodeBits s.params c 2 = .ok v) (h11 : ¬(v.getLsbD 0 = true ∧ v.getLsbD 1 = true)) :
    ∃ u, searchPosition s = (none, u) ∧ u.txAnswers = txs ∧ u.rxAnswers = rxs ∧ u.params = s.params ∧ u.mem = s.mem
      ∧ u.seq.snap = s.seq.snap
      ∧ u.seq.search = advance (recordLocals (withPair v s.search s.seq.search))
      ∧ u.search = updateRom (withPair v s.search s.seq.search) (recordFamily
        (withPair v s.search s.seq.search) s.search) := by
  obtain ⟨r, e1, e2, e3, hb, -⟩ := readP_good (n := 2) (by omega) (by omega) hx hr
  rw [hv] at e1
  rcases searchPosition_cases s with ⟨k, h, -⟩ | ⟨w, h, ⟨g0, g1, -⟩ | ⟨-, ⟨us, ht, -⟩ | ⟨ht, e⟩⟩⟩
  · rw [e1] at h; simp at h
  · rw [e1] at h; simp only [Res.ok.injEq] at h; subst h; exact absurd ⟨g0, g1⟩ h11
  · rw [e1, txNow_cons e2] at ht; simp at ht
  · rw [e1] at h e; simp only [Res.ok.injEq] at h; subst h
    have hw := writeBurst_busRun (zext8 (afterPair v r).seq.search.direction) (n := 1) (by omega) false (afterPair v r)
    have hwt := writeBurst_txAnswers_tail (zext8 (afterPair v r).seq.search.direction) 1 false (afterPair v r)
    have hwr := writeBurst_rxAnswers_eq (zext8 (afterPair v r).seq.search.direction) 1 false (afterPair v r)
    have hl : (afterPair v r).seq.search = recordLocals (withPair v s.search s.seq.search) :=
      by simp only [afterPair, hb.search, hb.locals]; rfl
    have hs : (afterPair v r).search = recordFamily (withPair v s.search s.seq.search) s.search :=
      by simp only [afterPair, hb.search, hb.locals]; rfl
    refine ⟨_, e, ?_, ?_, hw.params.trans hb.params, hw.mem.trans hb.mem, hw.snap.trans hb.snap, ?_, ?_⟩
    · show (writeBurst _ _ _ _).txAnswers = _
      rw [hwt, show (afterPair v r).txAnswers = r.txAnswers from rfl, e2]; rfl
    · exact hwr.trans e3
    · show advance (writeBurst _ _ _ _).seq.search = _
      rw [hw.locals, hl]
    · show updateRom (writeBurst _ _ _ _).seq.search (writeBurst _ _ _ _).search = _
      rw [hw.locals, hw.search, hl, hs]
      have : ∀ (l : SearchLocals) (x : SearchState), updateRom (recordLocals l) x = updateRom l x := by
        intro l x; simp only [recordLocals]; split <;> rfl
      exact this _ _

/-- Agreement before a position, position by position. -/
theorem agrees_iff (r d : Vector Byte 8) (p : Nat) : agreesBefore r d p = true ↔ ∀ q, 1 ≤ q → q < p → romBit d q
    = romBit r q := by
  simp only [agreesBefore, List.all_eq_true, List.mem_range, beq_iff_eq]
  constructor
  · intro h q h1 h2
    have := h (q - 1) (by omega)
    rwa [show q - 1 + 1 = q by omega] at this
  · intro h i hi; exact h (i + 1) (by omega) (by omega)

/-- The answers of a set of codes never contradict the code the search follows. -/
theorem answers {ds : List (Vector Byte 8)} {r : Vector Byte 8} (hr : r ∈ ds) (p : Nat) :
    (idAnswer ds r p = true → romBit r p = true) ∧ (complementAnswer ds r p = true → romBit r p = false) := by
  have ha : agreesBefore r r p = true := (agrees_iff _ _ _).2 fun _ _ _ => rfl
  constructor
  · intro h
    have := (List.all_eq_true.1 h) r hr
    simpa [ha] using this
  · intro h
    have := (List.all_eq_true.1 h) r hr
    simpa [ha] using this

/-- Where a walk from `x0` stands after it has followed `rom` for `n` positions. -/
structure Walked (ds : List (Vector Byte 8)) (rom : Vector Byte 8) (x0 : SearchState) (n : Nat) (x : SearchState)
    (l : SearchLocals) : Prop where
  pos : l.idBitNumber = n + 1
  byteNumber : l.romByteNumber = n / 8
  mask : l.romByteMask = 1#8 <<< (n % 8)
  low : ∀ q, 1 ≤ q → q ≤ n → romBit x.romNo q = romBit rom q
  high : ∀ q, n < q → q ≤ 64 → romBit x.romNo q = romBit x0.romNo q
  last : l.lastZero = lastZeroFork ds rom n
  ld : x.ld = x0.ld
  ldf : x.ldf = x0.ldf
  lfd : x.lfd.toNat = if lastZeroFork ds rom (min n 8) = 0 then x0.lfd.toNat else lastZeroFork ds rom (min n 8)

/-- The last zero fork lies inside the positions looked at. -/
theorem lastZeroFork_le (ds : List (Vector Byte 8)) (rom : Vector Byte 8) (n : Nat) : lastZeroFork ds rom n ≤ n := by
  induction n with
  | zero => simp [lastZeroFork]
  | succ n ih => simp only [lastZeroFork]; split <;> omega

/-- One position keeps the walk on `rom`. -/
theorem walked_step {ds : List (Vector Byte 8)} {rom : Vector Byte 8} {x0 x : SearchState} {n : Nat} {l : SearchLocals}
    (hn : n < 64) (hr : rom ∈ ds)
    (hdir : forksAt ds rom (n + 1) = true → romBit rom (n + 1) = if n + 1 < x0.ld.toNat then romBit x0.romNo
      (n + 1) else decide (n + 1 = x0.ld.toNat))
    (w : Walked ds rom x0 n x l) (v : Byte) (hv : v = packBits [idAnswer ds rom (n + 1),
      complementAnswer ds rom (n + 1)]) :
    (withPair v x l).direction = romBit rom (n + 1) ∧
    Walked ds rom x0 (n + 1) (updateRom (withPair v x l) (recordFamily (withPair v x l) x)) (advance (recordLocals
      (withPair v x l))) := by
  obtain ⟨ha, hc⟩ := answers hr (n + 1)
  have hv0 : v.getLsbD 0 = idAnswer ds rom (n + 1) := by rw [hv, packBits_getLsbD _ _ (by omega)]; rfl
  have hv1 : v.getLsbD 1 = complementAnswer ds rom (n + 1) := by rw [hv, packBits_getLsbD _ _ (by omega)]; rfl
  have hmask : maskedBit x.romNo l.romByteNumber l.romByteMask = romBit x0.romNo (n + 1) := by
    rw [masked_romBit _ l (by rw [w.pos, w.byteNumber]; rfl) (by rw [w.pos, w.mask]; rfl), w.pos,
      w.high _ (by omega) (by omega)]
  have hd : (withPair v x l).direction = romBit rom (n + 1) := by
    simp only [withPair, chooseDirection, hv0, hv1, branchDirection, w.pos, w.ld, hmask]
    cases hi : idAnswer ds rom (n + 1) <;> cases hk : complementAnswer ds rom (n + 1)
    · have := hdir (by simp [forksAt, hi, hk])
      rw [this]; simp
    · simp [hc hk]
    · simp [ha hi]
    · have := ha hi; have := hc hk; simp_all
  refine ⟨hd, ?_⟩
  have hrec : recordsZero (withPair v x l) = (forksAt ds rom (n + 1) && !romBit rom (n + 1)) := by
    simp only [recordsZero, hd, forksAt]
    simp only [withPair, hv0, hv1]
    cases hi : idAnswer ds rom (n + 1) <;> cases hk : complementAnswer ds rom (n + 1) <;> simp
    exact ha hi
  have hp : (withPair v x l).idBitNumber = n + 1 := w.pos
  have hp2 : (recordLocals (withPair v x l)).idBitNumber = n + 1 ∧ (recordLocals (withPair v x l)).romByteNumber
    = n / 8 ∧ (recordLocals (withPair v x l)).romByteMask = 1#8 <<< (n % 8) ∧ (recordLocals (withPair v x l)).lastZero
    = lastZeroFork ds rom (n + 1) := by
    simp only [recordLocals, hrec, lastZeroFork]
    split <;> rename_i h
    · exact ⟨w.pos, w.byteNumber, w.mask, hp⟩
    · exact ⟨w.pos, w.byteNumber, w.mask, w.last⟩
  obtain ⟨p1, p2, p3, p4⟩ := hp2
  obtain ⟨a1, a2, a3⟩ := advance_pair (recordLocals (withPair v x l)) (by omega) (by rw [p1, p2]; rfl)
    (by rw [p1, p3]; rfl)
  rw [p1] at a1 a2 a3
  have hrom : (recordFamily (withPair v x l) x).romNo = x.romNo := by simp only [recordFamily]; split <;> rfl
  have hbit : ∀ q, 1 ≤ q → romBit (updateRom (withPair v x l) (recordFamily (withPair v x l) x)).romNo q = if q
    = n + 1 then romBit rom (n + 1) else romBit x.romNo q := by
    intro q hq
    simp only [updateRom, hrom]
    rw [set_bit x.romNo (withPair v x l) _ (by rw [hp]; omega) (by rw [hp]; omega) (by rw [hp]; exact w.byteNumber)
      (by rw [hp]; exact w.mask) q hq, hp, hd]
  refine ⟨a1, a2, a3, fun q h1 h2 => ?_, fun q h1 h2 => ?_, ?_, ?_, ?_, ?_⟩
  · rw [hbit q h1]
    split
    · rename_i h; rw [h]
    · exact w.low q h1 (by omega)
  · rw [hbit q (by omega), if_neg (by omega)]; exact w.high q (by omega) h2
  · rw [← p4]; simp only [advance]; split <;> rfl
  · simp only [updateRom, recordFamily]; split <;> exact w.ld
  · simp only [updateRom, recordFamily]; split <;> exact w.ldf
  · have : (updateRom (withPair v x l) (recordFamily (withPair v x l) x)).lfd = (recordFamily
      (withPair v x l) x).lfd := rfl
    rw [this]
    simp only [recordFamily, hrec, hp]
    by_cases h8 : n + 1 < 9
    · rw [show min (n + 1) 8 = n + 1 by omega]
      have hm : min n 8 = n := by omega
      have hl := w.lfd
      rw [hm] at hl
      simp only [lastZeroFork]
      by_cases hf : (forksAt ds rom (n + 1) && !romBit rom (n + 1)) = true
      · simp [hf, h8]; omega
      · simp only [hf, Bool.false_and, Bool.false_eq_true, if_false]; exact hl
    · rw [show min (n + 1) 8 = 8 by omega]
      have hl := w.lfd
      rw [show min n 8 = 8 by omega] at hl
      simp only [h8, decide_false, Bool.and_false, Bool.false_eq_true, if_false]; exact hl

/-- A walk over the positions left, its answers those of `ds`. -/
theorem walk_good (ds : List (Vector Byte 8)) (rom : Vector Byte 8) (x0 : SearchState) (cap : Nat → Capture)
    (hr : rom ∈ ds)
    (hdir : ∀ p, 1 ≤ p → p ≤ 64 → forksAt ds rom p = true → romBit rom p
      = if p < x0.ld.toNat then romBit x0.romNo p else decide (p = x0.ld.toNat))
    (txs : List TxAnswer) (rxs : List RxAnswer) (k : Nat) : ∀ (n : Nat) (s : State), n + k = 64 →
    (∀ p, 1 ≤ p → p ≤ 64 → decodeBits s.params (cap p) 2 = .ok (packBits [idAnswer ds rom p,
      complementAnswer ds rom p])) →
    Walked ds rom x0 n s.search s.seq.search →
    s.txAnswers = List.replicate (2 * k) .ok ++ txs →
    s.rxAnswers = (List.range k).map (fun i => .capture (cap (n + i + 1))) ++ rxs →
    ∃ u, searchWalk k s = (none, u) ∧ Walked ds rom x0 64 u.search u.seq.search ∧ u.txAnswers = txs ∧ u.rxAnswers = rxs
      ∧ u.params = s.params ∧ u.mem = s.mem ∧ u.seq.snap = s.seq.snap := by
  induction k with
  | zero => intro n s hn _ w hx hrx; obtain rfl : n = 64 := by omega
            exact ⟨s, rfl, w, by simpa using hx, by simpa using hrx, rfl, rfl, rfl⟩
  | succ k ih =>
    intro n s hn hp w hx hrx
    obtain ⟨hd, w'⟩ := walked_step (by omega) hr (hdir (n + 1) (by omega) (by omega)) w _ rfl
    have h11 : ¬((packBits [idAnswer ds rom (n + 1), complementAnswer ds rom (n + 1)]).getLsbD 0 = true ∧ (packBits
      [idAnswer ds rom (n + 1), complementAnswer ds rom (n + 1)]).getLsbD 1 = true) := by
      rw [packBits_getLsbD _ _ (by omega), packBits_getLsbD _ _ (by omega)]
      rintro ⟨h, g⟩
      have h := (answers hr (n + 1)).1 h
      have g := (answers hr (n + 1)).2 g
      rw [h] at g; simp at g
    obtain ⟨u, e1, e2, e3, e4, e5, e6, e7, e8⟩ := position_good (s := s) (txs := List.replicate (2 * k) .ok ++ txs)
      (rxs := (List.range k).map (fun i => .capture (cap (n + 1 + i + 1))) ++ rxs)
      (by rw [hx, show 2 * (k + 1) = 2 * k + 1 + 1 by omega, List.replicate_succ, List.replicate_succ]; rfl)
      (by rw [hrx, List.range_succ_eq_map]
          simp only [List.map_cons, List.map_map, List.cons_append, Nat.add_zero]
          congr 2
          apply List.map_congr_left
          intro i _
          simp only [Function.comp, Nat.succ_eq_add_one]
          rw [show n + (i + 1) + 1 = n + 1 + i + 1 by omega]) (hp (n + 1) (by omega) (by omega)) h11
    obtain ⟨v, f1, f2, f3, f4, f5, f6, f7⟩ := ih (n + 1) u (by omega) (by rw [e4]; exact hp)
      (by rw [e7, e8]; exact w') e2 e3
    refine ⟨v, ?_, f2, f3, f4, f5.trans e4, f6.trans e5, f7.trans e6⟩
    simp only [searchWalk, e1]; exact f1

/-- A ROM code is its 64 bits. -/
theorem rom_ext {a b : Vector Byte 8} (h : ∀ q, 1 ≤ q → q ≤ 64 → romBit a q = romBit b q) : a = b := by
  apply Vector.ext
  intro i hi
  apply BitVec.eq_of_getLsbD_eq
  intro j hj
  have := h (8 * i + j + 1) (by omega) (by omega)
  rw [romBit, romBit, show (8 * i + j + 1 - 1) / 8 = i by omega, show (8 * i + j + 1 - 1) % 8 = j by omega] at this
  simpa [romByte, hi] using this

/-- A search whose answers come from the ROM codes `ds` and that the direction rule leads to `rom` finds it
(43_search.md R292 to R303). -/
theorem execSearch_follows (s : State) (ds : List (Vector Byte 8)) (rom : Vector Byte 8) (presence : Capture)
    (cap : Nat → Capture)
    (txs : List TxAnswer) (rxs : List RxAnswer) (hm : s.mem.wf = true) (hf : s.search.ldf = false)
      (ha : bufferA s + 8 ≤ 2 ^ s.params.addrW)
    (hr : rom ∈ ds) (hfb : romByte rom 0 ≠ 0x00#8) (hpres : decodePresence s.params presence = true)
    (hpair : ∀ p, 1 ≤ p → p ≤ 64 → decodeBits s.params (cap p) 2 = .ok (packBits [idAnswer ds rom p,
      complementAnswer ds rom p]))
    (hdir : ∀ p, 1 ≤ p → p ≤ 64 → forksAt ds rom p = true →
      romBit rom p = if p < s.search.ld.toNat then romBit s.search.romNo p else decide (p = s.search.ld.toNat))
    (hx : s.txAnswers = List.replicate 130 .ok ++ txs)
    (hrx : s.rxAnswers = .capture presence :: (List.range 64).map (fun i => .capture (cap (i + 1))) ++ rxs) :
    ∃ t, execSearch s = .next t ∧ Ended true 0#3 t ∧ t.search.romNo = rom ∧ t.search.ld.toNat = lastZeroFork ds rom 64
        ∧ (t.search.ldf = true ↔ lastZeroFork ds rom 64 = 0)
        ∧ t.search.lfd.toNat = (if lastZeroFork ds rom 8 = 0 then s.search.lfd.toNat else lastZeroFork ds rom 8)
        ∧ (∀ k < 8, t.mem.read (bufferA s + k) = romByte rom k) ∧ t.txAnswers = txs ∧ t.rxAnswers = rxs := by
  obtain ⟨r, e1, e2, e3, hb⟩ := resetP_good (s := start .search s) (c := presence) (txs := List.replicate 129 .ok
    ++ txs) (rxs := (List.range 64).map (fun i => .capture (cap (i + 1))) ++ rxs) (hx.trans
    (by rw [List.replicate_succ]; rfl)) (hrx.trans (by rfl))
  have hpar : (start .search s).params = s.params := rfl
  rw [hpar, hpres] at e1
  have hw := writeBurst_busRun cmdSearchRom (n := 8) (by omega) false r
  have hwt := writeBurst_txAnswers_tail cmdSearchRom 8 false r
  have hwr := writeBurst_rxAnswers_eq cmdSearchRom 8 false r
  set b := writeBurst cmdSearchRom 8 false r with hbdef
  have ht : txNow r = .ok := txNow_cons e2
  have hbs : b.search = s.search := hw.search.trans hb.search
  obtain ⟨u, f1, w, f3, f4, f5, f6, f7⟩ := walk_good ds rom s.search cap hr hdir txs rxs 64 0
    (setLocals SearchLocals.start b) (by omega)
    (by rw [show (setLocals SearchLocals.start b).params = b.params from rfl, hw.params, hb.params]; exact hpair)
    ⟨rfl, rfl, rfl, fun q h1 h2 => by omega, fun q _ _ => by show romBit b.search.romNo q = _; rw [hbs], rfl, congrArg SearchState.ld hbs, congrArg SearchState.ldf hbs, by simp [lastZeroFork]; exact congrArg (fun x => BitVec.toNat (SearchState.lfd x)) hbs⟩
    (by show b.txAnswers = _; rw [hwt, e2]; rfl)
    (by show b.rxAnswers = _; rw [hwr, e3]; simp only [Nat.zero_add])
  have hrom : u.search.romNo = rom := rom_ext fun q h1 h2 => w.low q h1 h2
  have hlz := lastZeroFork_le ds rom 64
  have hbus : searchBus (start .search s) = (.found, bookkeeping u) := by
    simp only [searchBus, e1]
    rw [writeP_run (n := 8) (by decide), ht]
    simp only [txResult, ← hbdef, searchTree, romBits, f1, hrom, hfb, if_false]
  have hrA : rangeAdmitted (start .search s) (operandA (start .search s)) romBytes = true :=
    (rangeAdmitted_iff _ _ _).2 ha
  have hl : ¬ (start .search s).search.ldf = true :=
    by rw [show (start .search s).search.ldf = s.search.ldf from rfl, hf]; simp
  have hop : operandA (bookkeeping u) = bufferA s := by
    show u.seq.snap.addr.toNat = _
    rw [f7]; show b.seq.snap.addr.toNat = _; rw [hw.snap, hb.snap]; rfl
  have hum : (bookkeeping u).mem = s.mem := by show u.mem = _; rw [f6]; show b.mem = _; rw [hw.mem, hb.mem]; rfl
  have hbr : (bookkeeping u).search.romNo = rom := hrom
  refine ⟨endSearch (.found, bookkeeping u), ?_, ?_⟩
  · simp only [execSearch, hl, hrA, hbus]; rfl
  · refine ⟨complete_ended _ _, ?_, ?_, ?_, ?_, fun k hk => ?_, ?_, ?_⟩
    · simp only [endSearch, complete_search]; rw [memWriteList_eq]; exact hbr
    · simp only [endSearch, complete_search]; rw [memWriteList_eq]
      show (BitVec.ofNat 7 u.seq.search.lastZero).toNat = _
      rw [w.last]; simp; omega
    · simp only [endSearch, complete_search]; rw [memWriteList_eq]
      show (if u.seq.search.lastZero = 0 then true else u.search.ldf) = true ↔ _
      rw [w.last, w.ldf, hf]
      by_cases h : lastZeroFork ds rom 64 = 0 <;> simp [h]
    · simp only [endSearch, complete_search]; rw [memWriteList_eq]
      exact w.lfd
    · simp only [endSearch, complete_mem, hop, hbr]
      have := memWriteList_read rom.toList (bufferA s) (bookkeeping u) (by rw [hum]; exact hm) k
      rw [this (by simpa using hk)]; simp [romByte, hk]
    · simp only [endSearch, complete_txAnswers]; rw [memWriteList_eq]; exact f3
    · simp only [endSearch, complete_rxAnswers]; rw [memWriteList_eq]; exact f4

/-! ### What a walk that goes on did, whatever the Environment answers -/

/-- A receiving procedure that answers ok took a capture, and made the four calls of R204. -/
theorem receiveP_ok {α : Type} {idle timeout : Nat} {t : Train} {f : Capture → Res α} {s u : State} {x : α}
    (h : receiveP idle timeout t f s = (.ok x, u)) :
    ∃ c, f c = .ok x ∧ (s.drive = false → u.events = s.events ++ receiveEvents idle timeout t c) := by
  rcases receiveP_cases idle timeout t f s with ⟨-, e⟩ | ⟨ht, ⟨-, e⟩ | ⟨-, e⟩ | ⟨c, hr, e⟩⟩ <;> rw [e] at h <;>
    simp only [Prod.mk.injEq, reduceCtorEq, false_and] at h
  obtain ⟨h1, rfl⟩ := h
  exact ⟨c, h1, fun hd => by simp [receiveEvents, chReceive_events, hr, ht, hd]⟩

/-- One position of a walk that goes on. -/
theorem searchPosition_none {s u : State} (h : searchPosition s = (none, u)) :
    ∃ c v, decodeBits s.params c 2 = .ok v ∧ ¬(v.getLsbD 0 = true ∧ v.getLsbD 1 = true)
      ∧ u.seq.search = advance (recordLocals (withPair v s.search s.seq.search))
      ∧ u.search = updateRom (withPair v s.search s.seq.search)
          (recordFamily (withPair v s.search s.seq.search) s.search)
      ∧ (s.drive = false →
          u.events = s.events ++ positionEvents s.params c (withPair v s.search s.seq.search).direction) := by
  have hb := readP_busRun 2 s
  rcases searchPosition_cases s with ⟨k, -, e⟩ | ⟨w, hv, ⟨g0, g1, e⟩ | ⟨h11, ⟨us, ht, e⟩ | ⟨ht, e⟩⟩⟩ <;> rw [e] at h <;>
    simp only [Prod.mk.injEq, reduceCtorEq, false_and] at h
  obtain ⟨-, rfl⟩ := h
  obtain ⟨c, hc, hev⟩ : ∃ c, decodeBits s.params c 2 = .ok w
      ∧ (s.drive = false → (readP 2 s).2.events
        = s.events ++ receiveEvents s.params.tIdleSlot s.params.tToRead (readTrain s.params 2) c) := by
    rw [readP_run (by decide)] at hv ⊢
    exact receiveP_ok (x := w) (Prod.ext hv rfl)
  have hw := writeBurst_busRun (zext8 (afterPair w (readP 2 s).2).seq.search.direction) (n := 1) (by omega) false
    (afterPair w (readP 2 s).2)
  have he := writeBurst_events (zext8 (afterPair w (readP 2 s).2).seq.search.direction) 1 false (afterPair w
    (readP 2 s).2)
  have hl : (afterPair w (readP 2 s).2).seq.search = recordLocals (withPair w s.search s.seq.search) := by
    simp only [afterPair, hb.search, hb.locals]; rfl
  have hs : (afterPair w (readP 2 s).2).search = recordFamily (withPair w s.search s.seq.search) s.search := by
    simp only [afterPair, hb.search, hb.locals]; rfl
  have hdir : (recordLocals (withPair w s.search s.seq.search)).direction =
    (withPair w s.search s.seq.search).direction := by
    simp only [recordLocals]; split <;> rfl
  refine ⟨c, w, hc, h11, ?_, ?_, fun hd => ?_⟩
  · show advance (writeBurst _ _ _ _).seq.search = _
    rw [hw.locals, hl]
  · show updateRom (writeBurst _ _ _ _).seq.search (writeBurst _ _ _ _).search = _
    rw [hw.locals, hw.search, hl, hs]
    have : ∀ (l : SearchLocals) (x : SearchState), updateRom (recordLocals l) x = updateRom l x := by
      intro l x; simp only [recordLocals]; split <;> rfl
    exact this _ _
  · show (writeBurst _ _ _ _).events = _
    rw [he, hl, hdir]
    have h1 : (afterPair w (readP 2 s).2).events = (readP 2 s).2.events := rfl
    have h2 : (afterPair w (readP 2 s).2).params = s.params := hb.params
    have h3 : (afterPair w (readP 2 s).2).drive = false := hb.driveOff hd
    have h4 : txNow (afterPair w (readP 2 s).2) = .ok := ht
    rw [h1, h2, h3, h4, hev hd, positionEvents, List.append_assoc]
    rfl

/-- Where the walk stands is inside its bounds: `P` is the bound on `LFD` it was started with. -/
structure InWalk (P : Prop) (n : Nat) (s : State) : Prop where
  pos : s.seq.search.idBitNumber = n + 1
  byteNumber : s.seq.search.romByteNumber = n / 8
  mask : s.seq.search.romByteMask = 1#8 <<< (n % 8)
  last : s.seq.search.lastZero ≤ n
  lfd : P → s.search.lfd.toNat ≤ 8

/-- One position keeps the bounds, sets its own bit of `ROM_NO`, and leaves the bits before it alone. -/
theorem searchPosition_inWalk {P : Prop} {s u : State} {n : Nat} (hn : n < 64) (h : searchPosition s = (none, u))
    (w : InWalk P n s) :
    InWalk P (n + 1) u ∧ u.search.ldf = s.search.ldf ∧ u.params = s.params
      ∧ (∀ q, 1 ≤ q → q ≤ n → romBit u.search.romNo q = romBit s.search.romNo q)
      ∧ ∃ c, s.drive = false → u.drive = false
          ∧ u.events = s.events ++ positionEvents s.params c (romBit u.search.romNo (n + 1)) := by
  have hwk := searchPosition_walk s
  rw [h] at hwk
  obtain ⟨c, v, -, -, h1, h2, h3⟩ := searchPosition_none h
  obtain ⟨w1, wb, wm, w2, w3⟩ := w
  have hp : (withPair v s.search s.seq.search).idBitNumber = s.seq.search.idBitNumber := rfl
  have hz : (withPair v s.search s.seq.search).lastZero = s.seq.search.lastZero := rfl
  have hr1 : (recordLocals (withPair v s.search s.seq.search)).idBitNumber = n + 1 := by
    simp only [recordLocals]; split <;> exact w1
  have hr2 : (recordLocals (withPair v s.search s.seq.search)).romByteNumber = n / 8 := by
    simp only [recordLocals]; split <;> exact wb
  have hr3 : (recordLocals (withPair v s.search s.seq.search)).romByteMask = 1#8 <<< (n % 8) := by
    simp only [recordLocals]; split <;> exact wm
  obtain ⟨a1, a2, a3⟩ := advance_pair (recordLocals (withPair v s.search s.seq.search)) (by omega)
    (by rw [hr1, hr2]; rfl) (by rw [hr1, hr3]; rfl)
  rw [hr1] at a1 a2 a3
  have hrom : (recordFamily (withPair v s.search s.seq.search) s.search).romNo = s.search.romNo := by
    simp only [recordFamily]; split <;> rfl
  have hbit : ∀ q, 1 ≤ q → romBit u.search.romNo q
      = if q = n + 1 then (withPair v s.search s.seq.search).direction else romBit s.search.romNo q := by
    intro q hq
    rw [h2]
    simp only [updateRom, hrom]
    rw [set_bit s.search.romNo (withPair v s.search s.seq.search) _ (by rw [hp]; omega) (by rw [hp]; omega)
      (by rw [hp, w1]; exact wb) (by rw [hp, w1]; exact wm) q hq, hp, w1]
  refine ⟨⟨by rw [h1, a1], by rw [h1, a2], by rw [h1, a3], ?_, ?_⟩, ?_, hwk.params, fun q h1 h2 => ?_, c, fun hd =>
    ⟨hwk.driveOff hd, ?_⟩⟩
  · rw [h1]
    have : ∀ l, (advance l).lastZero = l.lastZero := by intro l; simp only [advance]; split <;> rfl
    rw [this, recordLocals]; split <;> simp only [hp, hz] <;> omega
  · intro hP
    rw [h2]
    show (recordFamily _ _).lfd.toNat ≤ 8
    simp only [recordFamily]; split
    · rename_i h; simp only [Bool.and_eq_true, decide_eq_true_eq] at h
      show (BitVec.ofNat 4 _).toNat ≤ 8
      simp; omega
    · exact w3 hP
  · rw [h2]; show (recordFamily _ _).ldf = _; simp only [recordFamily]; split <;> rfl
  · rw [hbit q h1, if_neg (by omega)]
  · rw [h3 hd, hbit (n + 1) (by omega), if_pos rfl]

/-- A walk that reaches its end keeps the bounds, and its calls are those of R313. -/
theorem searchWalk_inWalk (k : Nat) {P : Prop} {n : Nat} {s u : State} (hn : n + k = 64) (h : searchWalk k s = (none,
    u))
    (w : InWalk P n s) :
    InWalk P 64 u ∧ u.search.ldf = s.search.ldf ∧ u.params = s.params
      ∧ (∀ q, 1 ≤ q → q ≤ n → romBit u.search.romNo q = romBit s.search.romNo q)
      ∧ ∃ caps : Nat → Capture, s.drive = false → u.drive = false
          ∧ u.events = s.events
            ++ (List.range k).flatMap fun i => positionEvents s.params (caps i) (romBit u.search.romNo (n + i + 1)) :=
              by
  induction k generalizing n s with
  | zero =>
    simp [searchWalk] at h; subst h
    obtain rfl : n = 64 := by omega
    exact ⟨w, rfl, rfl, fun _ _ _ => rfl, fun _ => [], fun hd => ⟨hd, by simp⟩⟩
  | succ k ih =>
    simp only [searchWalk] at h
    split at h <;> rename_i e
    · simp at h
    · obtain ⟨a, b, p, r, c, ev⟩ := searchPosition_inWalk (by omega) e w
      obtain ⟨a', b', p', r', caps, ev'⟩ := ih (by omega) h a
      refine ⟨a', b'.trans b, p'.trans p, fun q h1 h2 => (r' q h1 (by omega)).trans (r q h1 h2),
        fun i => if i = 0 then c else caps (i - 1), fun hd => ?_⟩
      obtain ⟨d1, e1⟩ := ev hd
      obtain ⟨d2, e2⟩ := ev' d1
      refine ⟨d2, ?_⟩
      rw [e2, e1, p, List.range_succ_eq_map, List.flatMap_cons, List.flatMap_map, List.append_assoc,
        r' (n + 1) (by omega) (by omega)]
      congr 2
      apply List.flatMap_congr
      intro i _
      simp only [Nat.succ_eq_add_one, Nat.add_sub_cancel, Nat.succ_ne_zero, if_false]
      rw [show n + (i + 1) + 1 = n + 1 + i + 1 by omega]

/-- Only the end of a walk finds a device. -/
theorem searchPosition_never_found (s : State) : (searchPosition s).1 ≠ some .found := by
  rcases searchPosition_cases s with ⟨k, -, e⟩ | ⟨w, -, ⟨g0, g1, e⟩ | ⟨-, ⟨us, ht, e⟩ | ⟨ht, e⟩⟩⟩ <;> rw [e] <;> simp

theorem searchWalk_never_found (k : Nat) (s : State) : (searchWalk k s).1 ≠ some .found := by
  induction k generalizing s with
  | zero => simp [searchWalk]
  | succ k ih =>
    simp only [searchWalk]
    split <;> rename_i e
    · have := searchPosition_never_found s; rw [e] at this; exact this
    · exact ih _

end Sys2Proof.Machine
end

