-- ==== Sys2Proof/Laws/Bus.lean ====
section
/-! SUPPORT. Searches on the reference bus
  (40_channel.md R180 to R189): what the devices answer to the trains of a search,
and that a search on it finds the ROM code its direction rule leads to. -/

namespace Sys2Proof.Machine

theorem busRun_append (p : Params) (tm : BusTiming) (b : RefBus) (es fs : List Event) :
    busRun p tm b (es ++ fs) = (busRun p tm b es).bind fun c => busRun p tm c fs := by
  induction es generalizing b with
  | nil => rfl
  | cons e es ih =>
    simp only [List.cons_append, busRun]
    cases busEvent p tm b e with
    | none => rfl
    | some c => exact ih c

/-- The receiver's threshold on the bus is the last one set (40_channel.md R154). -/
theorem busRun_idle {p : Params} {tm : BusTiming} {b b1 : RefBus} {es : List Event} (h : busRun p tm b es = some b1) :
    b1.idle = idleAfter b.idle es := by
  induction es generalizing b with
  | nil => cases h; rfl
  | cons e es ih =>
    simp only [busRun] at h
    cases g : busEvent p tm b e with
    | none => rw [g] at h; cases h
    | some c =>
      rw [g] at h
      rw [ih h]
      cases e with
      | flush => cases g; rfl
      | setIdle d => cases g; rfl
      | transmit t d a =>
        cases a with
        | err us => cases g
        | ok => cases g; simp only [busTransmit, idleAfter]; split <;> rfl
      | receive d a =>
        simp only [busEvent] at g
        split at g <;> split at g <;> cases g <;> rfl

/-- Devices attached to a controller: after an operation the receiver's threshold is the one the controller's state holds. -/
theorem attach_threshold {p : Params} {tm : BusTiming} {ds : List Device} {i : Instr} {s t : State} {b1 : RefBus}
    (h : exec i s = .next t) (hr : busRun p tm (RefBus.attach ds s) (newEvents s t) = some b1) :
    b1.idle = t.idleThreshold := by
  have hx := exec_ran h
  obtain ⟨es, he, -⟩ := hx.history
  rw [busRun_idle hr, newEvents, he, List.drop_left, hx.threshold es he]
  rfl

/-- The devices after a train of slots, one by one. -/
theorem runSlots_devices (p : Params) (tm : BusTiming) (reading : Bool) (slots : List (Nat × Nat)) (ds : List Device) :
    (runSlots p tm reading slots ds).1
      = ds.map fun d => slots.foldl (fun d s => deviceSlot reading (decide (s.1 < p.timing.tRs)) d) d := by
  induction slots generalizing ds with
  | nil => simp [runSlots]
  | cons s slots ih => obtain ⟨l, h⟩ := s; simp [runSlots, ih, Function.comp_def]

/-- The slots of a train of slots. -/
theorem trainSlots_slots (p : Params) (bs : List Bool) :
    trainSlots (bs.flatMap (slot p) ++ [.endMark])
      = bs.map fun b => if b then (p.timing.tW1l, p.timing.tW1h) else (p.timing.tW0l, p.timing.tW0h) := by
  induction bs with
  | nil => rfl
  | cons b bs ih => cases b <;> simp [slot, pulse, trainSlots, ih]

/-- A train of at least one slot is not the reset train. -/
theorem slots_ne_reset (p : Params) {bs : List Bool} (h : bs ≠ []) :
    bs.flatMap (slot p) ++ [.endMark] ≠ resetTrain p := by
  intro e
  obtain ⟨b, cs, rfl⟩ := List.exists_cons_of_ne_nil h
  have := congrArg List.length e
  cases b <;> simp [slot, resetTrain] at this

/-- A slot with block low `T_W1L`, as its low and high time. -/
def readSlotTimes (p : Params) (tm : BusTiming) (low : Bool) : Nat × Nat :=
  if low then (max p.timing.tW1l tm.tD0, p.timing.tW1l + p.timing.tW1h - max p.timing.tW1l tm.tD0)
  else (p.timing.tW1l, p.timing.tW1h)

theorem readSlot_line (p : Params) (tm : BusTiming) (a b : Bool) :
    slotSegments tm a p.timing.tW1l p.timing.tW1h ++ (slotSegments tm b p.timing.tW1l p.timing.tW1h ++ [])
      = slotLine [readSlotTimes p tm a, readSlotTimes p tm b] := by
  cases a <;> cases b <;> rfl

/-- The receiver makes one capture of a read of two slots, and it decodes by whether a device pulled each slot low. -/
theorem pair_capture {p : Params} {tm : BusTiming} (hp : p.Valid) (ht : tm.Valid p) (hs : tm.tD0 < p.timing.tSlot)
    (a b : Bool) : ∃ c,
    capturesOf p.tIdleSlot (slotSegments tm a p.timing.tW1l p.timing.tW1h
      ++ (slotSegments tm b p.timing.tW1l p.timing.tW1h ++ [])) = [c] ∧ decodeBits p c 2 = .ok (packBits [!a, !b]) := by
  obtain ⟨h1, h2, -, -, -⟩ := hp.positive
  obtain ⟨h3, -⟩ := hp.sample
  obtain ⟨h4, -⟩ := ht.zero
  obtain ⟨h5, -⟩ := hp.idleHigh
  have h6 : p.timing.tSlot = p.timing.tW1l + p.timing.tW1h := rfl
  have hx : ∀ v, 0 < (readSlotTimes p tm v).1 ∧ 0 < (readSlotTimes p tm v).2 ∧ (readSlotTimes p tm v).2 < p.tIdleSlot := by
    intro v; cases v <;> simp only [readSlotTimes, Bool.false_eq_true, if_true, if_false] <;> omega
  refine ⟨_, by rw [readSlot_line, capturesOf_slotLine (by simp) (by simpa using ⟨hx a, hx b⟩)], ?_⟩
  have e3 : ¬ max p.timing.tW1l tm.tD0 < p.timing.tRs := by omega
  cases a <;> cases b <;> simp [slotLine, readSlotTimes, dropFinalHigh, decodeBits, lows, e3, h3]

/-- Where the devices stand when a search has followed `rom` for `n` positions. -/
def BusAt (rom : Vector Byte 8) (n : Nat) (b : RefBus) : Prop :=
  ∀ d ∈ b.devices, d.mode
    = if agreesBefore rom d.rom (n + 1) then (if n = 64 then .selected else .searching (n + 1) .idBit) else .inactive

/-- The same ROM codes are on the bus. -/
abbrev romsOf (b : RefBus) : List (Vector Byte 8) := b.devices.map Device.rom

theorem deviceSlot_rom (r v : Bool) (d : Device) : (deviceSlot r v d).rom = d.rom := by
  unfold deviceSlot
  repeat' split
  all_goals rfl

theorem foldl_rom (r : Bool) (q : Nat × Nat → Bool) (slots : List (Nat × Nat)) (d : Device) :
    (slots.foldl (fun d s => deviceSlot r (q s) d) d).rom = d.rom := by
  induction slots generalizing d with
  | nil => rfl
  | cons s slots ih => rw [List.foldl_cons, ih, deviceSlot_rom]

theorem busTransmit_roms (p : Params) (tm : BusTiming) (t : Train) (b : RefBus) : romsOf (busTransmit p tm t b)
    = romsOf b := by
  unfold busTransmit
  split
  · simp [romsOf, Function.comp_def]
  · simp only [romsOf, runSlots_devices, List.map_map]
    apply List.map_congr_left
    intro d _
    exact foldl_rom _ _ _ _

/-- The devices after a train that is not the reset train. -/
theorem busTransmit_devices {p : Params} {tm : BusTiming} {t : Train} {b : RefBus} (h : t ≠ resetTrain p) :
    (busTransmit p tm t b).devices
      = b.devices.map fun d =>
          (trainSlots t).foldl (fun d s => deviceSlot b.reading (decide (s.1 < p.timing.tRs)) d) d := by
  simp only [busTransmit, h, if_false, runSlots_devices]

theorem any_eq_not_all {α : Type} {l : List α} {f g : α → Bool} (h : ∀ x ∈ l, f x = !g x) : l.any f = !l.all g := by
  induction l with
  | nil => rfl
  | cons x l ih =>
    rw [List.any_cons, List.all_cons, h x (by simp), ih fun y hy => h y (by simp [hy]), Bool.not_and]

/-- A pair read on the bus at position `n + 1`: what it reads, and where it leaves the devices. -/
theorem readTrain_onBus {p : Params} {tm : BusTiming} (hp : p.Valid) (ht : tm.Valid p) (hs : tm.tD0 < p.timing.tSlot)
    {rom : Vector Byte 8} {n : Nat} (hn : n < 64) {b : RefBus} (hb : BusAt rom n b) :
    ∃ c, (busTransmit p tm (readTrain p 2) { b with queue := [], idle := p.tIdleSlot, reading := true }).queue = [c]
      ∧ decodeBits p c 2 = .ok (packBits [idAnswer (romsOf b) rom (n + 1), complementAnswer (romsOf b) rom (n + 1)])
      ∧ (busTransmit p tm (readTrain p 2) { b with queue := [], idle := p.tIdleSlot, reading := true }).reading = false
      ∧ ∀ d ∈ (busTransmit p tm (readTrain p 2) { b with queue := [], idle := p.tIdleSlot, reading := true }).devices,
          d.mode = if agreesBefore rom d.rom (n + 1) then .searching (n + 1) .direction else .inactive := by
  have h64 : n ≠ 64 := by omega
  have hne : readTrain p 2 ≠ resetTrain p := by rw [readTrain_eq]; exact slots_ne_reset p (by simp)
  have hsl : trainSlots (readTrain p 2) = [(p.timing.tW1l, p.timing.tW1h), (p.timing.tW1l, p.timing.tW1h)] := by
    rw [readTrain_eq, trainSlots_slots]; rfl
  have hv : decide (p.timing.tW1l < p.timing.tRs) = true := by simpa using hp.sample.1
  have any1 : b.devices.any (pullsLow true) = !idAnswer (romsOf b) rom (n + 1) := by
    rw [idAnswer, List.all_map]
    refine any_eq_not_all fun d hd => ?_
    have hm := hb d hd
    obtain ⟨r, m, o, k⟩ := d
    dsimp only at hm
    cases ha : agreesBefore rom r (n + 1) <;> simp only [ha, if_true, if_false, h64,
      Bool.false_eq_true] at hm <;> subst hm <;>
      simp [pullsLow, ha]
  have any2 : (b.devices.map (deviceSlot true true)).any (pullsLow true) = !complementAnswer (romsOf b) rom (n + 1) :=
    by
    rw [complementAnswer, List.all_map, List.any_map]
    refine any_eq_not_all fun d hd => ?_
    have hm := hb d hd
    obtain ⟨r, m, o, k⟩ := d
    dsimp only at hm
    cases ha : agreesBefore rom r (n + 1) <;> simp only [ha, if_true, if_false, h64,
      Bool.false_eq_true] at hm <;> subst hm <;>
      simp [pullsLow, deviceSlot, ha]
  obtain ⟨c, hc, hd⟩ := pair_capture hp ht hs (!idAnswer (romsOf b) rom (n + 1)) (!complementAnswer (romsOf b) rom (n + 1))
  refine ⟨c, ?_, by simpa using hd, ?_, ?_⟩
  · simp only [busTransmit, hne, if_false, List.nil_append, hsl, runSlots, hv, any1, any2]
    exact hc
  · simp only [busTransmit, hne, if_false]
  · intro d hd
    simp only [busTransmit, hne, if_false, runSlots_devices, hsl, List.foldl_cons, List.foldl_nil, hv] at hd
    obtain ⟨d0, h0, rfl⟩ := List.mem_map.1 hd
    have hr : (deviceSlot true true (deviceSlot true true d0)).rom = d0.rom := by rw [deviceSlot_rom, deviceSlot_rom]
    rw [hr]
    have hm := hb d0 h0
    obtain ⟨r, m, o, k⟩ := d0
    dsimp only at hm ⊢
    cases ha : agreesBefore rom r (n + 1) <;> simp only [ha, if_true, if_false, h64,
      Bool.false_eq_true] at hm <;> subst hm <;> rfl

/-- Agreement one position further. -/
theorem agreesBefore_succ (r d : Vector Byte 8) (n : Nat) :
    agreesBefore r d (n + 2) = (agreesBefore r d (n + 1) && (romBit d (n + 1) == romBit r (n + 1))) := by
  simp [agreesBefore, List.range_succ]

/-- A direction written on the bus at position `n + 1` leaves the devices that agree with it at the next position. -/
theorem direction_onBus {p : Params} (tm : BusTiming) (hp : p.Valid) {rom : Vector Byte 8} {n : Nat} {b : RefBus}
    (hb : ∀ d ∈ b.devices, d.mode = if agreesBefore rom d.rom (n + 1) then .searching
      (n + 1) .direction else .inactive) :
    BusAt rom (n + 1) (busTransmit p tm (bitsTrain p (zext8 (romBit rom (n + 1))) 1) b) := by
  have hg : groupBits (zext8 (romBit rom (n + 1))) 1 = [romBit rom (n + 1)] := by cases romBit rom (n + 1) <;> rfl
  have hne : bitsTrain p (zext8 (romBit rom (n + 1))) 1 ≠ resetTrain p := by
    rw [bitsTrain, hg]; exact slots_ne_reset p (by simp)
  intro d hd
  rw [busTransmit_devices hne, bitsTrain, hg, trainSlots_slots] at hd
  obtain ⟨d0, h0, rfl⟩ := List.mem_map.1 hd
  have hv : decide ((if romBit rom (n + 1) then (p.timing.tW1l, p.timing.tW1h) else (p.timing.tW0l, p.timing.tW0h)).1
      < p.timing.tRs) = romBit rom (n + 1) := by
    obtain ⟨h1, h2⟩ := hp.sample
    cases romBit rom (n + 1) <;> simp [h1, h2]
  simp only [List.map_cons, List.map_nil, List.foldl_cons, List.foldl_nil, hv, deviceSlot_rom]
  have hm := hb d0 h0
  obtain ⟨r, m, o, k⟩ := d0
  dsimp only at hm ⊢
  rw [agreesBefore_succ]
  cases ha : agreesBefore rom r (n + 1) <;> simp only [ha, if_true, if_false, Bool.false_eq_true] at hm <;> subst hm <;>
    simp only [deviceSlot, Bool.false_eq_true, if_false, Bool.false_and, Bool.true_and]
  by_cases he : romBit rom (n + 1) = romBit r (n + 1)
  · simp only [he, if_true, beq_self_eq_true, romBits]
    by_cases h : n + 1 = 64 <;> simp [h]
  · have : (romBit r (n + 1) == romBit rom (n + 1)) = false := by simpa using fun e => he e.symm
    simp [he, this]

/-- The reset and SEARCH ROM leave every device at position 1. -/
theorem searchRom_onBus {p : Params} (tm : BusTiming) (hp : p.Valid) (rom : Vector Byte 8) {b : RefBus}
    (hb : ∀ d ∈ b.devices, d.mode = .romCommand []) :
    BusAt rom 0 (busTransmit p tm (bitsTrain p cmdSearchRom 8) b) := by
  have hg : groupBits cmdSearchRom 8 = [false, false, false, false, true, true, true, true] := rfl
  have hne : bitsTrain p cmdSearchRom 8 ≠ resetTrain p := by rw [bitsTrain, hg]; exact slots_ne_reset p (by simp)
  intro d hd
  rw [busTransmit_devices hne, bitsTrain, hg, trainSlots_slots] at hd
  obtain ⟨d0, h0, rfl⟩ := List.mem_map.1 hd
  have h1 : decide (p.timing.tW1l < p.timing.tRs) = true := by simpa using hp.sample.1
  have h2 : decide (p.timing.tW0l < p.timing.tRs) = false := by simpa using hp.sample.2
  have ha : agreesBefore rom d0.rom (0 + 1) = true := rfl
  rw [foldl_rom, ha]
  simp only [List.map_cons, List.map_nil, List.foldl_cons, List.foldl_nil, Bool.false_eq_true, if_true, if_false, h1,
    h2]
  have := hb d0 h0
  obtain ⟨r, m, o, k⟩ := d0
  dsimp only at this
  subst this
  rfl

/-! ### The procedures on the bus -/

/-- A receiving procedure on the bus, when its train makes one capture. -/
theorem receiveP_onBus {p : Params} {tm : BusTiming} {α : Type} {idle timeout : Nat} {t : Train} {f : Capture → Res α}
    {s u : State} {r : Res α} {b b1 : RefBus} {es : List Event} {c : Capture}
    (h : receiveP idle timeout t f s = (r, u)) (he : u.events = s.events ++ es) (hr : busRun p tm b es = some b1)
    (hc : (busTransmit p tm t { b with queue := [], idle := idle, reading := true }).queue = [c]) :
    r = f c ∧ b1 = { busTransmit p tm t { b with queue := [], idle := idle, reading := true } with queue := [] } := by
  rcases receiveP_cases idle timeout t f s with ⟨⟨us, ht⟩, e⟩ | ⟨ht, ⟨hx, e⟩ | ⟨hx, e⟩ | ⟨d, hx, e⟩⟩ <;> rw [e] at h <;>
    simp only [Prod.mk.injEq] at h <;> obtain ⟨rfl, rfl⟩ := h
  · rw [receiveBurst_events, List.append_cancel_left_eq] at he
    subst he
    simp [busRun, busEvent, ht] at hr
  all_goals
    rw [chReceive_events, receiveBurst_events, List.append_assoc, List.append_cancel_left_eq, rxNow_receiveBurst, hx,
      ht] at he
    subst he
    simp [busRun, busEvent, hc] at hr
  by_cases hd : d = c
  · subst hd
    simp only [if_true, Option.some.injEq] at hr
    exact ⟨rfl, hr.symm⟩
  · simp [hd] at hr

/-- A write group on the bus. -/
theorem writeP_onBus {p : Params} {tm : BusTiming} {d : Byte} {n : Nat} {pwr : Bool} {s u : State} {r : Res Unit}
    {b b1 : RefBus} {es : List Event} (hn : groupOk n = true) (hp : s.params = p)
    (h : writeP d n pwr s = (r, u)) (he : u.events = s.events ++ es) (hr : busRun p tm b es = some b1) :
    r = .ok () ∧ b1 = busTransmit p tm (bitsTrain p d n) b := by
  rw [writeP_run hn] at h
  simp only [Prod.mk.injEq] at h
  obtain ⟨rfl, rfl⟩ := h
  rw [writeBurst_events, List.append_cancel_left_eq] at he
  subst he
  rw [hp] at hr
  cases ht : txNow s with
  | ok => simp only [busRun, busEvent, ht, Option.some.injEq] at hr; exact ⟨rfl, hr.symm⟩
  | err us => simp [busRun, busEvent, ht] at hr

/-- A run in two parts. -/
theorem busRun_split {p : Params} {tm : BusTiming} {b b1 : RefBus} {es fs : List Event}
    (h : busRun p tm b (es ++ fs) = some b1) : ∃ m, busRun p tm b es = some m ∧ busRun p tm m fs = some b1 := by
  rw [busRun_append] at h
  cases e : busRun p tm b es with
  | none => rw [e] at h; simp at h
  | some m => rw [e] at h; exact ⟨m, rfl, h⟩

/-- One position of a search on the bus goes on along `rom`. -/
theorem searchPosition_onBus {p : Params} {tm : BusTiming} (hp : p.Valid) (ht : tm.Valid p)
    (hs : tm.tD0 < p.timing.tSlot)
    {rom : Vector Byte 8} {x0 : SearchState} {n : Nat} (hn : n < 64) {ds : List (Vector Byte 8)} {b b1 : RefBus}
      {s u : State}
    {r : Option SearchEnd} {es : List Event} (hds : romsOf b = ds) (hrom : rom ∈ ds)
    (hdir : forksAt ds rom (n + 1) = true →
      romBit rom (n + 1) = if n + 1 < x0.ld.toNat then romBit x0.romNo (n + 1) else decide (n + 1 = x0.ld.toNat))
    (hsp : s.params = p) (w : Walked ds rom x0 n s.search s.seq.search) (hb : BusAt rom n b)
    (h : searchPosition s = (r, u)) (he : u.events = s.events ++ es) (hr : busRun p tm b es = some b1) :
    r = none ∧ Walked ds rom x0 (n + 1) u.search u.seq.search ∧ BusAt rom (n + 1) b1 ∧ romsOf b1 = ds := by
  obtain ⟨c, q1, q2, -, q4⟩ := readTrain_onBus hp ht hs hn hb
  rw [hds] at q2
  have hbr := readP_busRun 2 s
  simp only [searchPosition] at h
  cases e : readP 2 s with
  | mk rr s1 =>
    rw [e] at hbr h
    dsimp only at hbr
    obtain ⟨es1, he1, -⟩ := hbr.history
    have key : ∀ {es2}, u.events = s1.events ++ es2 → ∃ m, busRun p tm m es2 = some b1
        ∧ rr = .ok (packBits [idAnswer ds rom (n + 1), complementAnswer ds rom (n + 1)])
        ∧ m = { busTransmit p tm (readTrain p 2) { b with queue := [], idle := p.tIdleSlot, reading := true } with queue := [] } := by
      intro es2 h2
      rw [h2, he1, List.append_assoc, List.append_cancel_left_eq] at he
      subst he
      obtain ⟨m, m1, m2⟩ := busRun_split hr
      rw [readP_run (by decide), hsp] at e
      obtain ⟨a, a'⟩ := receiveP_onBus e he1 m1 q1
      exact ⟨m, m2, a.trans q2, a'⟩
    cases rr with
    | fail k =>
      simp only [Prod.mk.injEq] at h
      obtain ⟨-, rfl⟩ := h
      obtain ⟨-, -, h', -⟩ := key (es2 := []) (by simp)
      simp at h'
    | ok v =>
      dsimp only at h
      have hl : (afterPair v s1).seq.search = recordLocals (withPair v s.search s.seq.search) := by
        simp only [afterPair, hbr.search, hbr.locals]; rfl
      have hx : (afterPair v s1).search = recordFamily (withPair v s.search s.seq.search) s.search := by
        simp only [afterPair, hbr.search, hbr.locals]; rfl
      have hdr : (recordLocals (withPair v s.search s.seq.search)).direction
          = (withPair v s.search s.seq.search).direction := by simp only [recordLocals]; split <;> rfl
      split at h
      · rename_i h11
        simp only [Prod.mk.injEq] at h
        obtain ⟨-, rfl⟩ := h
        obtain ⟨-, -, h', -⟩ := key (es2 := []) (by simp)
        simp only [Res.ok.injEq] at h'
        rw [h', packBits_getLsbD _ _ (by omega), packBits_getLsbD _ _ (by omega), Bool.and_eq_true] at h11
        have g1 := (answers hrom (n + 1)).1 h11.1
        have g2 := (answers hrom (n + 1)).2 h11.2
        rw [g1] at g2; simp at g2
      · cases ew : writeP (zext8 (afterPair v s1).seq.search.direction) 1 false (afterPair v s1) with
        | mk rw' s2 =>
          have hbw := writeP_busRun (zext8 (afterPair v s1).seq.search.direction) 1 false (afterPair v s1)
          rw [ew] at hbw h
          dsimp only at hbw
          obtain ⟨es2, he2, -⟩ := hbw.history
          have hu : u.events = s1.events ++ es2 := by
            cases rw' <;> simp only [Prod.mk.injEq] at h <;> obtain ⟨-, rfl⟩ := h <;> exact he2
          obtain ⟨m, hm, hv, hmb⟩ := key hu
          simp only [Res.ok.injEq] at hv
          obtain ⟨hd, w'⟩ := walked_step hn hrom hdir w v hv
          obtain ⟨a, a'⟩ := writeP_onBus (n := 1) (by decide) (show (afterPair v s1).params
            = p from hbr.params.trans hsp) ew he2 hm
          subst a
          simp only [Prod.mk.injEq] at h
          obtain ⟨rfl, rfl⟩ := h
          rw [hl, hdr, hd] at a'
          have hmd : ∀ d ∈ m.devices,
              d.mode = if agreesBefore rom d.rom (n + 1) then .searching (n + 1) .direction else .inactive := by
            rw [hmb]; exact q4
          refine ⟨rfl, ?_, ?_, ?_⟩
          · show Walked ds rom x0 (n + 1) (updateRom s2.seq.search s2.search) (advance s2.seq.search)
            rw [hbw.locals, hbw.search, hl, hx]
            have : ∀ (l : SearchLocals) (x : SearchState), updateRom (recordLocals l) x = updateRom l x := by
              intro l x; simp only [recordLocals]; split <;> rfl
            rw [this]
            exact w'
          · rw [a']; exact direction_onBus tm hp hmd
          · rw [a', busTransmit_roms, hmb, ← hds]
            exact busTransmit_roms p tm (readTrain p 2) { b with queue := [], idle := p.tIdleSlot, reading := true }

/-- A walk on the bus follows `rom` to its end. -/
theorem searchWalk_onBus {p : Params} {tm : BusTiming} (hp : p.Valid) (ht : tm.Valid p) (hs : tm.tD0 < p.timing.tSlot)
    {rom : Vector Byte 8} {x0 : SearchState} {ds : List (Vector Byte 8)} (hrom : rom ∈ ds)
    (hdir : ∀ q, 1 ≤ q → q ≤ 64 → forksAt ds rom q = true →
      romBit rom q = if q < x0.ld.toNat then romBit x0.romNo q else decide (q = x0.ld.toNat))
    (k : Nat) : ∀ (n : Nat) (b b1 : RefBus) (s u : State) (r : Option SearchEnd) (es : List Event), n + k = 64 →
      romsOf b = ds → s.params = p → Walked ds rom x0 n s.search s.seq.search → BusAt rom n b →
      searchWalk k s = (r, u) → u.events = s.events ++ es → busRun p tm b es = some b1 →
      r = none ∧ Walked ds rom x0 64 u.search u.seq.search := by
  induction k with
  | zero =>
    intro n b b1 s u r es hn _ _ w _ h _ _
    simp only [searchWalk, Prod.mk.injEq] at h
    obtain ⟨rfl, rfl⟩ := h
    obtain rfl : n = 64 := by omega
    exact ⟨rfl, w⟩
  | succ k ih =>
    intro n b b1 s u r es hn hds hsp w hb h he hr
    simp only [searchWalk] at h
    have hwk := searchPosition_walk s
    cases e : searchPosition s with
    | mk r1 s1 =>
      rw [e] at h hwk
      dsimp only at hwk
      obtain ⟨es1, he1, -⟩ := hwk.history
      have hw2 : ∃ es2, u.events = s1.events ++ es2 := by
        cases r1 with
        | some e1 => simp only [Prod.mk.injEq] at h; obtain ⟨-, rfl⟩ := h; exact ⟨[], by simp⟩
        | none =>
          have := (searchWalk_walk k s1).history
          dsimp only at h
          rw [h] at this
          obtain ⟨es2, h2, -⟩ := this
          exact ⟨es2, h2⟩
      obtain ⟨es2, he2⟩ := hw2
      rw [he2, he1, List.append_assoc, List.append_cancel_left_eq] at he
      subst he
      obtain ⟨m, m1, m2⟩ := busRun_split hr
      obtain ⟨rfl, w', hb', hds'⟩ := searchPosition_onBus hp ht hs (by omega) hds hrom (hdir (n + 1) (by omega)
        (by omega)) hsp w
        hb e he1 m1
      exact ih (n + 1) m b1 s1 u r es2 (by omega) hds' (hwk.params.trans hsp) w' hb' h he2 m2

/-- The receiver makes one capture of a reset, and it shows a presence when there is a device (R155, R182). -/
theorem presence_onBus {p : Params} {tm : BusTiming} (hp : p.Valid) (ht : tm.Valid p) (ds : List Device) :
    capturesOf p.tIdleRst (resetLine p tm ds) = [resetLine p tm ds]
      ∧ decodePresence p (resetLine p tm ds) = !ds.isEmpty := by
  obtain ⟨-, -, -, -, h1⟩ := hp.positive
  obtain ⟨h2, h3⟩ := ht.positive
  have h4 := ht.presence
  have e1 : p.timing.tRstl ≠ 0 := by omega
  have e2 : tm.tPdh ≠ 0 := by omega
  have e3 : tm.tPdl ≠ 0 := by omega
  have e4 : ¬ p.tIdleRst ≤ tm.tPdh := by omega
  cases ds <;> simp [resetLine, decodePresence, capturesOf, mergeSegments, capturesFrom, dropFinalHigh, e1, e2, e3, e4]

/-- A search on the bus, the devices' ROM codes `ds`: an empty bus gives no presence; otherwise it finds the code `rom`
that the direction rule leads to (43_search.md R292 to R303). -/
theorem searchBus_onBus {p : Params} {tm : BusTiming} (hp : p.Valid) (ht : tm.Valid p) (hs : tm.tD0 < p.timing.tSlot)
    {s u : State} {r : SearchEnd} {b b1 : RefBus} {es : List Event} (hsp : s.params = p)
    (h : searchBus s = (r, u)) (he : u.events = s.events ++ es) (hr : busRun p tm b es = some b1) :
    (romsOf b = [] → r = .notFound)
      ∧ ∀ rom ∈ romsOf b, romByte rom 0 ≠ 0x00#8 →
        (∀ q, 1 ≤ q → q ≤ 64 → forksAt (romsOf b) rom q = true →
          romBit rom q = if q < s.search.ld.toNat then romBit s.search.romNo q else decide (q = s.search.ld.toNat)) →
        r = .found ∧ u.search.romNo = rom ∧ u.search.ld.toNat = lastZeroFork (romsOf b) rom 64
          ∧ (s.search.ldf = false → (u.search.ldf = true ↔ lastZeroFork (romsOf b) rom 64 = 0)) := by
  have hb := resetP_busRun s
  simp only [searchBus] at h
  cases e : resetP s with
  | mk r1 s1 =>
    rw [e] at h hb
    dsimp only at hb
    obtain ⟨es1, he1, -⟩ := hb.history
    have hq : (busTransmit p tm (resetTrain p) { b with queue := [], idle := p.tIdleRst, reading := true }).queue
        = [resetLine p tm b.devices] := by
      simp only [busTransmit, if_true, List.nil_append]; exact (presence_onBus hp ht b.devices).1
    have hmode : ∀ d ∈ (busTransmit p tm (resetTrain p) { b with queue := [], idle := p.tIdleRst, reading := true }).devices,
        d.mode = .romCommand [] := by
      intro d hd
      simp only [busTransmit, if_true] at hd
      obtain ⟨d0, -, rfl⟩ := List.mem_map.1 hd
      rfl
    have key : ∀ {es2}, u.events = s1.events ++ es2 → ∃ m, busRun p tm m es2 = some b1 ∧ r1 = .ok (!b.devices.isEmpty)
        ∧ m = { busTransmit p tm (resetTrain p) { b with queue := [], idle := p.tIdleRst, reading := true } with queue := [] } := by
      intro es2 h2
      rw [h2, he1, List.append_assoc, List.append_cancel_left_eq] at he
      subst he
      obtain ⟨m, m1, m2⟩ := busRun_split hr
      rw [resetP, hsp] at e
      obtain ⟨a, a'⟩ := receiveP_onBus e he1 m1 hq
      exact ⟨m, m2, by rw [a, (presence_onBus hp ht b.devices).2], a'⟩
    have hemp : romsOf b = [] ↔ b.devices.isEmpty = true := by simp [romsOf]
    cases r1 with
    | fail k =>
      simp only [Prod.mk.injEq] at h
      obtain ⟨-, rfl⟩ := h
      obtain ⟨-, -, h', -⟩ := key (es2 := []) (by simp)
      simp at h'
    | ok present =>
      cases present with
      | false =>
        simp only [Prod.mk.injEq] at h
        obtain ⟨rfl, rfl⟩ := h
        obtain ⟨-, -, h', -⟩ := key (es2 := []) (by simp)
        refine ⟨fun _ => rfl, fun rom hrom => ?_⟩
        simp only [Res.ok.injEq] at h'
        have : romsOf b = [] := hemp.2 (by simpa using h'.symm)
        rw [this] at hrom; simp at hrom
      | true =>
        dsimp only at h
        cases ew : writeP cmdSearchRom 8 false s1 with
        | mk rw' s2 =>
          have hbw := writeP_busRun cmdSearchRom 8 false s1
          rw [ew] at hbw h
          dsimp only at hbw
          obtain ⟨es2, he2, -⟩ := hbw.history
          have hw3 : ∃ es3, u.events = s2.events ++ es3 := by
            cases rw' with
            | fail k => simp only [Prod.mk.injEq] at h; obtain ⟨-, rfl⟩ := h; exact ⟨[], by simp⟩
            | ok _ =>
              have := (searchTree_walk s2).history
              dsimp only at h
              rw [h] at this
              obtain ⟨es3, h3, -⟩ := this
              exact ⟨es3, h3⟩
          obtain ⟨es3, he3⟩ := hw3
          obtain ⟨m, hm, h', hmb⟩ := key (es2 := es2 ++ es3) (by rw [he3, he2, List.append_assoc])
          simp only [Res.ok.injEq] at h'
          have hne : romsOf b ≠ [] := by rw [Ne, hemp]; intro h2; rw [h2] at h'; simp at h'
          obtain ⟨m', n1, n2⟩ := busRun_split hm
          obtain ⟨a, a'⟩ := writeP_onBus (n := 8) (by decide) (hb.params.trans hsp) ew he2 n1
          subst a
          refine ⟨fun h => absurd h hne, fun rom hrom hfb hdir => ?_⟩
          have hroms : romsOf m' = romsOf b := by
            rw [a', busTransmit_roms, hmb]
            exact busTransmit_roms p tm (resetTrain p) { b with queue := [], idle := p.tIdleRst, reading := true }
          have hat : BusAt rom 0 m' := by
            rw [a']; exact searchRom_onBus tm hp rom (by rw [hmb]; exact hmode)
          have hss : s2.search = s.search := hbw.search.trans hb.search
          simp only [searchTree] at h
          cases et : searchWalk romBits (setLocals SearchLocals.start s2) with
          | mk rt v =>
            have hv3 : v.events = s2.events ++ es3 := by
              rw [et] at h
              cases rt with
              | some e1 => simp only [Prod.mk.injEq] at h; obtain ⟨-, rfl⟩ := h; exact he3
              | none => simp only [Prod.mk.injEq] at h; obtain ⟨-, rfl⟩ := h; exact he3
            have w0 : Walked (romsOf b) rom s.search 0 (setLocals SearchLocals.start s2).search
                (setLocals SearchLocals.start s2).seq.search :=
              ⟨rfl, rfl, rfl, fun q h1 h2 => by omega, fun q _ _ => by show romBit s2.search.romNo q = _; rw [hss], rfl,
                congrArg SearchState.ld hss, congrArg SearchState.ldf hss,
                by simp [lastZeroFork]; exact congrArg (fun x => BitVec.toNat (SearchState.lfd x)) hss⟩
            obtain ⟨rfl, w⟩ := searchWalk_onBus hp ht hs hrom hdir 64 0 m' b1
              (setLocals SearchLocals.start s2) v rt es3 (by omega)
              hroms (hbw.params.trans (hb.params.trans hsp)) w0 hat et hv3 n2
            rw [et] at h
            have hvr : v.search.romNo = rom := rom_ext fun q h1 h2 => w.low q h1 h2
            have hlz := lastZeroFork_le (romsOf b) rom 64
            simp only [hvr, hfb, if_false, Prod.mk.injEq] at h
            obtain ⟨rfl, rfl⟩ := h
            refine ⟨rfl, hvr, ?_, fun hf => ?_⟩
            · show (BitVec.ofNat 7 v.seq.search.lastZero).toNat = _
              rw [w.last]; simp; omega
            · show (if v.seq.search.lastZero = 0 then true else v.search.ldf) = true ↔ _
              rw [w.last, w.ldf, hf]
              by_cases h : lastZeroFork (romsOf b) rom 64 = 0 <;> simp [h]

/-- A `SEARCH` on the bus. -/
theorem execSearch_onBus {p : Params} {tm : BusTiming} (hp : p.Valid) (ht : tm.Valid p) (hs : tm.tD0 < p.timing.tSlot)
    {s t : State} {b b' : RefBus} (hsp : s.params = p) (h : execSearch s = .next t) (hf : s.search.ldf = false)
      (hr : busRun p tm b (newEvents s t) = some b') :
    (romsOf b = [] → t.result = false ∧ t.err = 0#3 ∧ t.search.ldf = false)
    ∧ ∀ rom ∈ romsOf b, romByte rom 0 ≠ 0x00#8 →
        (∀ q, 1 ≤ q → q ≤ 64 → forksAt (romsOf b) rom q = true →
          romBit rom q = if q < s.search.ld.toNat then romBit s.search.romNo q else decide (q = s.search.ld.toNat)) →
        t.result = true ∧ t.search.romNo = rom ∧ t.search.ld.toNat = lastZeroFork (romsOf b) rom 64
          ∧ (t.search.ldf = true ↔ lastZeroFork (romsOf b) rom 64 = 0) ∧ (s.mem.wf = true → ∀ i < 8,
            t.mem.read (bufferA s + i) = romByte rom i) := by
  rcases execSearch_cases h with ⟨h', -⟩ | ⟨-, rfl, hadm⟩
  · rw [hf] at h'; simp at h'
  · have hw := searchBus_walk (start .search s)
    cases e : searchBus (start .search s) with
    | mk r u =>
      rw [e] at hr hw
      dsimp only at hw
      obtain ⟨es, he, -⟩ := hw.history
      have hev : (endSearch (r, u)).events = u.events := by
        cases r <;> simp only [endSearch, complete_events, raise_events]
        · rw [memWriteList_eq]
        · rfl
        · rfl
      have hes : newEvents s (endSearch (r, u)) = es := by
        rw [newEvents, hev, he]
        show ((s.events ++ es).drop s.events.length) = es
        simp
      rw [hes] at hr
      obtain ⟨k1, k2⟩ := searchBus_onBus hp ht hs (s := start .search s) hsp e he hr
      refine ⟨fun hn => ?_, fun rom hrom hfb hdir => ?_⟩
      · have := k1 hn; subst this; exact ⟨rfl, rfl, rfl⟩
      · obtain ⟨rfl, a2, a3, a4⟩ := k2 rom hrom hfb hdir
        have hop : operandA u = bufferA s := by show u.seq.snap.addr.toNat = _; rw [hw.snap]; rfl
        have hum : u.mem = s.mem := hw.mem
        refine ⟨rfl, ?_, ?_, ?_, fun hm i hi => ?_⟩
        · simp only [endSearch, complete_search]; rw [memWriteList_eq]; exact a2
        · simp only [endSearch, complete_search]; rw [memWriteList_eq]; exact a3
        · simp only [endSearch, complete_search]; rw [memWriteList_eq]; exact a4 hf
        · simp only [endSearch, complete_mem, hop]
          have := memWriteList_read u.search.romNo.toList (bufferA s) u (by rw [hum]; exact hm) i
          rw [this (by simpa using hi), ← a2]; simp [romByte, hi]

end Sys2Proof.Machine
end

