-- ==== Sys2Proof/Laws/Decode.lean ====
section
/-! SUPPORT. The opcode table: which words match which rows (30_encoding.md R104 to R106). -/

namespace Sys2Proof

/-- A masked word whose mask covers `OPC` has the match value's `OPC`. -/
theorem and_low {w m v : Word} (h : (w &&& m) = v) (hm : m &&& 0xF#32 = 0xF#32) : w &&& 0xF#32 = v &&& 0xF#32 := by
  rw [← h, BitVec.and_assoc, hm]

/-- Every mask covers `OPC`. -/
theorem table_low : ∀ r ∈ opcodeTable, r.mask &&& 0xF#32 = 0xF#32 := by decide

/-- No two rows have the same `OPC`. -/
theorem table_vals : opcodeTable.Pairwise fun r r' => r.value &&& 0xF#32 ≠ r'.value &&& 0xF#32 := by decide

/-- No word matches two rows (30_encoding.md R106). -/
theorem rows_disjoint : opcodeTable.Pairwise fun r r' => ∀ w : Word, ¬((w &&& r.mask) = r.value ∧ (w &&& r'.mask)
    = r'.value) := by
  refine table_vals.imp_of_mem fun {r r'} hr hr' hne w h => hne ?_
  rw [← and_low h.1 (table_low r hr), and_low h.2 (table_low r' hr')]

/-- A row that matches is the one the search finds. -/
theorem find_of_mem {w : Word} {r : Row} (l : List Row) (hl : l.Pairwise fun r r' => ∀ w : Word,
    ¬((w &&& r.mask) = r.value ∧ (w &&& r'.mask) = r'.value)) (hr : r ∈ l) (h : (w &&& r.mask) = r.value) : l.find?
    (rowMatches w) = some r := by
  induction l with
  | nil => simp at hr
  | cons x l ih =>
    rw [List.pairwise_cons] at hl
    rcases List.mem_cons.1 hr with rfl | hr
    · simp [List.find?, rowMatches, h]
    · have : rowMatches w x = false := by
        simp only [rowMatches, beq_eq_false_iff_ne]
        exact fun hx => hl.1 r hr w ⟨hx, h⟩
      simp [List.find?, this, ih hl.2 hr]

/-- A row that matches gives its operation. -/
theorem row_found {w : Word} {r : Row} (hr : r ∈ opcodeTable) (h : (w &&& r.mask) = r.value) : decode w = .op
    (r.op w) := by
  simp [decode, find_of_mem _ rows_disjoint hr h]

/-- A word that no row matches is illegal. -/
theorem illegal_of {w : Word} (h : ∀ r ∈ opcodeTable, w &&& r.mask ≠ r.value) : decode w = .illegal
    (illegalReason w) := by
  have : opcodeTable.find? (rowMatches w) = none := by
    rw [List.find?_eq_none]; intro r hr; simp [rowMatches, h r hr]
  simp [decode, this]

/-- `OPC` as the low bits of the word. -/
theorem opc_eq (w : Word) : opcField w = (w &&& 0xF#32).setWidth 4 := by
  apply BitVec.eq_of_getLsbD_eq; intro i hi
  interval_cases i <;> simp [opcField]

/-- Two words with the same `OPC`. -/
theorem opc_inj {w v : Word} : opcField w = opcField v ↔ w &&& 0xF#32 = v &&& 0xF#32 := by
  constructor
  · intro h
    apply BitVec.eq_of_getLsbD_eq; intro i hi
    have := congrArg (fun x => BitVec.getLsbD x i) h
    simp only [opcField, BitVec.getLsbD_extractLsb'] at this
    by_cases h4 : i < 4
    · simp [h4] at this; simp [this]
    · have : (0xF#32).getLsbD i = false := by interval_cases i <;> first | omega | rfl
      simp [this]
  · intro h; rw [opc_eq, opc_eq, h]

/-- A masked word in two parts, above `OPC` and `OPC`. -/
theorem split_mask {w m : Word} (hm : m &&& 0xF#32 = 0xF#32) : w &&& m = (w &&& m &&& 0xFFFFFFF0#32) |||
    (w &&& 0xF#32) := by
  apply BitVec.eq_of_getLsbD_eq; intro i hi
  have := congrArg (fun x => BitVec.getLsbD x i) hm
  simp only [BitVec.getLsbD_and] at this
  interval_cases i <;> simp at this ⊢ <;> simp [this]

/-- Every match value lies in `OPC`. -/
theorem table_small : ∀ r ∈ opcodeTable, r.value &&& 0xF#32 = r.value := by decide

/-- No match value has a bit above `OPC`. -/
theorem table_hi : ∀ r ∈ opcodeTable, r.value &&& 0xFFFFFFF0#32 = 0#32 := by decide

/-- The must-be-zero bits of a row (R104). -/
theorem row_test {w : Word} {r : Row} (hr : r ∈ opcodeTable) (ho : opcField w = opcField r.value) :
    (w &&& r.mask &&& 0xFFFFFFF0#32) = 0#32 ↔ (w &&& r.mask) = r.value := by
  have hs := split_mask (w := w) (table_low r hr)
  rw [opc_inj.1 ho, table_small r hr] at hs
  constructor
  · intro h; rw [hs, h]; simp
  · intro h; rw [h]; exact table_hi r hr

/-- Only the row of a word's `OPC` can match it. -/
theorem row_only {w : Word} {r r' : Row} (hr : r ∈ opcodeTable) (hr' : r' ∈ opcodeTable) (h : opcField w
    = opcField r.value) (h' : (w &&& r'.mask) = r'.value) : r'.value = r.value := by
  have := and_low h' (table_low r' hr')
  rw [opc_inj.1 h, table_small r hr, table_small r' hr'] at this
  exact this.symm

/-- A row is named by its match value. -/
theorem vals_inj {r r' : Row} (hr : r ∈ opcodeTable) (hr' : r' ∈ opcodeTable) (h : r.value = r'.value) : r = r' :=
  List.inj_on_of_nodup_map (by decide : (opcodeTable.map Row.value).Nodup) hr hr' h

/-- A word that decodes matches a row. -/
theorem decode_some {w : Word} {i : Instr} (h : decode w = .op i) : ∃ r ∈ opcodeTable, (w &&& r.mask) = r.value ∧ i
    = r.op w := by
  simp only [decode] at h
  split at h
  · rename_i r hf
    exact ⟨r, List.mem_of_find?_eq_some hf, by simpa [rowMatches] using List.find?_some hf, by simpa using h.symm⟩
  · simp at h

end Sys2Proof
end

