-- ==== Sys2Proof/Laws/PerInstr.lean ====
section
/-! SUPPORT. Statements for all operations, one lemma per constructor of `Instr`. -/

/-- The command word of an operation carries its opcode and matches a row of that opcode (spec 30_encoding.md R100,
R102, R104). -/
def Sys2Proof.Laws.MatchesTable.Statement (i : Sys2Proof.Instr) : Prop :=
  Sys2Proof.opcField (Sys2Proof.encode i) = Sys2Proof.opcode i
    ∧ ∃ r ∈ Sys2Proof.opcodeTable, (Sys2Proof.encode i &&& r.mask) = r.value
        ∧ Sys2Proof.opcField r.value = Sys2Proof.opcode i

namespace Sys2Proof.Laws.MatchesTable

/-- A row of the table by its place. -/
theorem of_row {i : Instr} (k : Nat) (hk : k < opcodeTable.length) (ho : opcField (encode i) = opcode i)
    (hm : (encode i &&& opcodeTable[k].mask) = opcodeTable[k].value)
    (hv : opcField opcodeTable[k].value = opcode i) : Statement i :=
  ⟨ho, opcodeTable[k], List.getElem_mem hk, hm, hv⟩

theorem reset : Statement .reset := of_row 0 (by decide) (by decide) (by decide) (by decide)

theorem writeBit (v : Bool) : Statement (.writeBit v) := by
  cases v <;> exact of_row 1 (by decide) (by decide) (by decide) (by decide)

theorem writeBits (d : Byte) (n : Nat) (pwr : Bool) : Statement (.writeBits d n pwr) := by
  refine of_row 2 (by decide) ?_ ?_ rfl <;> apply BitVec.eq_of_getLsbD_eq <;> intro j hj <;>
    interval_cases j <;> simp [encode, opcode, opcField, opcodeTable]

theorem writeByte (d : Byte) : Statement (.writeByte d) := by
  refine of_row 3 (by decide) ?_ ?_ rfl <;> apply BitVec.eq_of_getLsbD_eq <;> intro j hj <;>
    interval_cases j <;> simp [encode, opcode, opcField, opcodeTable]

theorem writeBytes (pwr : Bool) : Statement (.writeBytes pwr) := by
  cases pwr <;> exact of_row 4 (by decide) (by decide) (by decide) (by decide)

theorem readBit : Statement .readBit := of_row 5 (by decide) (by decide) (by decide) (by decide)

theorem readBits (n : Nat) : Statement (.readBits n) := by
  refine of_row 6 (by decide) ?_ ?_ rfl <;> apply BitVec.eq_of_getLsbD_eq <;> intro j hj <;>
    interval_cases j <;> simp [encode, opcode, opcField, opcodeTable]

theorem readByte : Statement .readByte := of_row 7 (by decide) (by decide) (by decide) (by decide)

theorem readBytes : Statement .readBytes := of_row 8 (by decide) (by decide) (by decide) (by decide)

theorem select : Statement .select := of_row 9 (by decide) (by decide) (by decide) (by decide)

theorem skip : Statement .skip := of_row 10 (by decide) (by decide) (by decide) (by decide)

theorem resetSearch : Statement .resetSearch := of_row 11 (by decide) (by decide) (by decide) (by decide)

theorem targetSearch (f : Byte) : Statement (.targetSearch f) := by
  refine of_row 12 (by decide) ?_ ?_ rfl <;> apply BitVec.eq_of_getLsbD_eq <;> intro j hj <;>
    interval_cases j <;> simp [encode, opcode, opcField, opcodeTable]

theorem search : Statement .search := of_row 13 (by decide) (by decide) (by decide) (by decide)

end Sys2Proof.Laws.MatchesTable
end

