-- ==== Sys2Proof/Laws/SameBus.lean ====
section
/-! SUPPORT. Two states that differ only in the status and the sequencer: the procedures do the same from both
(30_encoding.md R112). -/

namespace Sys2Proof.Machine

/-- Equal but for `BUSY`, `RESULT`, `ERR` and the sequencer, which `complete` and `raise` write. -/
structure SameBus (s t : State) : Prop where
  params : t.params = s.params
  search : t.search = s.search
  rdata : t.rdata = s.rdata
  bufAddr : t.bufAddr = s.bufAddr
  bufLen : t.bufLen = s.bufLen
  drive : t.drive = s.drive
  mem : t.mem = s.mem
  idleThreshold : t.idleThreshold = s.idleThreshold
  txAnswers : t.txAnswers = s.txAnswers
  rxAnswers : t.rxAnswers = s.rxAnswers
  host : t.host = s.host
  events : t.events = s.events
  hostReads : t.hostReads = s.hostReads
  draws : t.draws = s.draws

theorem SameBus.complete {s t : State} (h : SameBus s t) (r : Bool) : complete r t = complete r s := by
  obtain ⟨a, b, c, d, e, f, g, i, j, k, l, m, n, o⟩ := h
  obtain ⟨⟩ := s; obtain ⟨⟩ := t; simp_all [Machine.complete]

theorem SameBus.raise {s t : State} (h : SameBus s t) (k : ErrKind) : raise k t = raise k s := by
  obtain ⟨a, b, c, d, e, f, g, i, j, k, l, m, n, o⟩ := h
  obtain ⟨⟩ := s; obtain ⟨⟩ := t; simp_all [Machine.raise]

theorem SameBus.tx {s t : State} (h : SameBus s t) : txNow t = txNow s := by simp only [txNow, h.txAnswers, h.draws]

theorem SameBus.rx {s t : State} (h : SameBus s t) : rxNow t = rxNow s := rxNow_congr h.rxAnswers h.draws

theorem SameBus.writeBurst {s t : State} (h : SameBus s t) (d : Byte) (n : Nat) (pwr : Bool) : SameBus
    (writeBurst d n pwr s) (writeBurst d n pwr t) := by
  cases pwr <;> constructor <;> simp [Machine.writeBurst, chTransmit_events, h.params, h.search, h.rdata, h.bufAddr,
    h.bufLen, h.drive, h.mem, h.idleThreshold, h.txAnswers, h.rxAnswers, h.host, h.events, h.hostReads, h.draws, h.tx]

theorem SameBus.receiveBurst {s t : State} (h : SameBus s t) (d : Nat) (tr : Train) : SameBus (receiveBurst d tr s)
    (receiveBurst d tr t) := by
  constructor <;> simp [h.params, h.search, h.rdata, h.bufAddr, h.bufLen, h.drive, h.mem, h.txAnswers, h.rxAnswers,
    h.host, h.events, h.hostReads, h.draws, h.tx]

theorem SameBus.chReceive {s t : State} (h : SameBus s t) (d : Nat) : SameBus (chReceive d s) (chReceive d t) := by
  constructor <;> simp [chReceive_events, h.params, h.search, h.rdata, h.bufAddr, h.bufLen, h.drive, h.mem,
    h.idleThreshold, h.txAnswers, h.rxAnswers, h.host, h.events, h.hostReads, h.draws, h.rx]

theorem start_same (i j : Instr) (s : State) : SameBus (start i s) (start j s) :=
  ⟨rfl, rfl, rfl, rfl, rfl, rfl, rfl, rfl, rfl, rfl, rfl, rfl, rfl, rfl⟩

end Sys2Proof.Machine
end

