-- ==== Sys2Proof/Laws/SearchCalls.lean ====
section
/-! SUPPORT. The channel calls of a search, and which of them ended it (43_search.md R291 to R305, R313). -/

namespace Sys2Proof.Machine

theorem CallsGoOn.append {p : Params} {n : Nat} {es fs : List Event} (h : CallsGoOn p n es)
    (g : CallsGoOn p (n + es.length) fs) : CallsGoOn p n (es ++ fs) := by
  intro k e he
  rcases Nat.lt_or_ge k es.length with hk | hk
  · rw [List.getElem?_append_left hk] at he; exact h k e he
  · rw [List.getElem?_append_right hk] at he
    have := g _ e he
    rwa [Nat.add_assoc, Nat.add_sub_cancel' hk] at this

theorem CallsGoOn.stop {p : Params} {n : Nat} {es fs : List Event} {c : BitVec 3} (h : CallsGoOn p n es)
    (g : CallsStop p (n + es.length) fs c) : CallsStop p n (es ++ fs) c := by
  obtain ⟨init, last, rfl, h1, h2⟩ := g
  exact ⟨es ++ init, last, (List.append_assoc _ _ _).symm, h.append h1, by
    rw [List.length_append, ← Nat.add_assoc]; exact h2⟩

theorem callsGoOn_nil (p : Params) (n : Nat) : CallsGoOn p n [] := by
  intro k e h; simp at h

theorem callsGoOn_cons {p : Params} {n : Nat} {e : Event} {es : List Event} :
    CallsGoOn p n (e :: es) ↔ searchStop p n e = none ∧ CallsGoOn p (n + 1) es := by
  constructor
  · intro h
    exact ⟨h 0 e rfl, fun k f hf => by rw [Nat.add_assoc, Nat.add_comm 1]; exact h (k + 1) f hf⟩
  · rintro ⟨h, g⟩ (_ | k) f hf
    · cases hf; exact h
    · rw [Nat.add_comm k, ← Nat.add_assoc]; exact g k f hf

/-- The calls of a receiving procedure before its receive. -/
theorem callsGoOn_before (p : Params) (n idle : Nat) (t : Train) (d : Bool) :
    CallsGoOn p n [.flush, .setIdle idle, .transmit t d .ok] := by
  simp [callsGoOn_cons, callsGoOn_nil, searchStop]

/-- What the calls of a part of a search say: it ended with no device, it failed with a kind, or it went on. -/
def CallsEnd (p : Params) (n : Nat) (es : List Event) : SearchEnd → Prop
  | .found => False
  | .notFound => CallsStop p n es 0#3
  | .failed k => CallsStop p n es (errCode k)

theorem CallsGoOn.end {p : Params} {n : Nat} {es fs : List Event} {r : SearchEnd} (h : CallsGoOn p n es)
    (g : CallsEnd p (n + es.length) fs r) : CallsEnd p n (es ++ fs) r := by
  cases r with
  | found => exact g
  | notFound => exact h.stop g
  | failed k => exact h.stop g

/-- The calls of a receiving procedure, the receive being call `n + 3`. -/
theorem receiveP_calls {α : Type} (n idle timeout : Nat) (t : Train) (f : Capture → Res α) (s : State) :
    ∃ es, (receiveP idle timeout t f s).2.events = s.events ++ es
      ∧ ((receiveP idle timeout t f s).1 = .fail .channelError ∧ CallsStop s.params n es 1#3
        ∨ (receiveP idle timeout t f s).1 = .fail .timeout ∧ CallsStop s.params n es 2#3
        ∨ ∃ c, (receiveP idle timeout t f s).1 = f c ∧ es
          = [.flush, .setIdle idle, .transmit t s.drive .ok] ++ [.receive timeout (.capture c)]) := by
  rcases receiveP_cases idle timeout t f s with ⟨⟨us, ht⟩, e⟩ | ⟨ht, ⟨hx, e⟩ | ⟨hx, e⟩ | ⟨c, hx, e⟩⟩ <;> rw [e]
  · refine ⟨_, receiveBurst_events idle t s, .inl ⟨rfl, [.flush, .setIdle idle], _, rfl, ?_, ?_⟩⟩
    · simp [callsGoOn_cons, callsGoOn_nil, searchStop]
    · rw [ht]; rfl
  all_goals
    have hev : (chReceive timeout (receiveBurst idle t s)).events
        = s.events ++ ([.flush, .setIdle idle, .transmit t s.drive .ok] ++ [.receive timeout (rxNow (usedTx s))]) := by
      rw [chReceive_events, receiveBurst_events, rxNow_receiveBurst, ht, List.append_assoc]
    rw [hx] at hev
  · exact ⟨_, hev, .inr (.inl ⟨rfl, _, _, rfl, callsGoOn_before _ _ _ _ _, rfl⟩)⟩
  · exact ⟨_, hev, .inl ⟨rfl, _, _, rfl, callsGoOn_before _ _ _ _ _, rfl⟩⟩
  · exact ⟨_, hev, .inr (.inr ⟨c, rfl, rfl⟩)⟩

/-- A pair is (1,1) exactly when the byte read is 3. -/
theorem pair_eq_three {p : Params} {c : Capture} {v : Byte} (h : decodeBits p c 2 = .ok v) :
    v = 0x03#8 ↔ v.getLsbD 0 = true ∧ v.getLsbD 1 = true := by
  simp only [decodeBits] at h
  split at h
  · simp at h
  · rename_i hl
    simp only [Res.ok.injEq] at h
    obtain ⟨a, b, l, hab⟩ : ∃ a b l, lows c = a :: b :: l := by
      rcases hlow : lows c with _ | ⟨a, _ | ⟨b, l⟩⟩
      · simp [hlow] at hl
      · simp [hlow] at hl
      · exact ⟨a, b, l, rfl⟩
    rw [← h, hab]
    simp only [List.take_succ_cons, List.take_zero, List.map_cons, List.map_nil]
    cases decide (a < p.timing.tRs) <;> cases decide (b < p.timing.tRs) <;> decide

/-- A pair read, its receive not call 3. -/
theorem readPair_calls {n : Nat} (hn : n ≠ 0) (s : State) :
    ∃ es, (readP 2 s).2.events = s.events ++ es
      ∧ (∀ k, (readP 2 s).1 = .fail k → CallsStop s.params n es (errCode k))
      ∧ (∀ v, (readP 2 s).1 = .ok v → (v.getLsbD 0 = true ∧ v.getLsbD 1 = true → CallsStop s.params n es 0#3)
        ∧ (¬(v.getLsbD 0 = true ∧ v.getLsbD 1 = true) → CallsGoOn s.params n es ∧ es.length = 4)) := by
  rw [readP_run (n := 2) (by decide)]
  obtain ⟨es, he, h⟩ := receiveP_calls n s.params.tIdleSlot s.params.tToRead (readTrain s.params 2)
    (fun c => decodeBits s.params c 2) s
  refine ⟨es, he, ?_⟩
  rcases h with ⟨e, h⟩ | ⟨e, h⟩ | ⟨c, e, rfl⟩ <;> rw [e]
  · exact ⟨fun k hk => by cases hk; exact h, fun v hv => by cases hv⟩
  · exact ⟨fun k hk => by cases hk; exact h, fun v hv => by cases hv⟩
  · have hb := callsGoOn_before s.params n s.params.tIdleSlot (readTrain s.params 2) s.drive
    have hn3 : ¬ n + 3 = 3 := by omega
    refine ⟨fun k hk => ⟨_, _, rfl, hb, ?_⟩, fun v hv => ⟨fun h => ⟨_, _, rfl, hb, ?_⟩, fun h => ⟨hb.append ?_, rfl⟩⟩⟩
    · have hl : (lows c).length < 2 := by
        by_contra hc; simp [decodeBits, hc] at hk
      simp [searchStop, hn, hl, decodeBits_fail hk, errCode]
    all_goals
      have hl : ¬ (lows c).length < 2 := by intro hc; simp [decodeBits, hc] at hv
      have h3 := pair_eq_three hv
    · simp [searchStop, hn, hl, hv, h3.2 h]
    · have : v ≠ 0x03#8 := fun hc => h (h3.1 hc)
      simp [callsGoOn_cons, callsGoOn_nil, searchStop, hn, hl, hv, this]

/-- A write group of a search. -/
theorem writeP_calls (n : Nat) {m : Nat} (hm : groupOk m = true) (d : Byte) (s : State) :
    ∃ es, (writeP d m false s).2.events = s.events ++ es
      ∧ (∀ k, (writeP d m false s).1 = .fail k → CallsStop s.params n es (errCode k))
      ∧ ((writeP d m false s).1 = .ok () → CallsGoOn s.params n es ∧ es.length = 1) := by
  rw [writeP_run hm]
  refine ⟨_, writeBurst_events d m false s, fun k hk => ?_, fun h => ⟨?_, rfl⟩⟩
  · cases ht : txNow s with
    | ok => rw [ht] at hk; simp [txResult] at hk
    | err us =>
      rw [ht] at hk
      simp only [txResult, Res.fail.injEq] at hk
      subst hk
      exact ⟨[], _, rfl, callsGoOn_nil _ _, rfl⟩
  · cases ht : txNow s with
    | ok => simp [callsGoOn_cons, callsGoOn_nil, searchStop]
    | err us => rw [ht] at h; simp [txResult] at h

/-- One position. -/
theorem searchPosition_calls {n : Nat} (hn : n ≠ 0) (s : State) :
    ∃ es, (searchPosition s).2.events = s.events ++ es
      ∧ (∀ r, (searchPosition s).1 = some r → CallsEnd s.params n es r)
      ∧ ((searchPosition s).1 = none → CallsGoOn s.params n es ∧ es.length = 5) := by
  have hb := readP_busRun 2 s
  obtain ⟨es, he, h1, h2⟩ := readPair_calls hn s
  simp only [searchPosition]
  cases e : readP 2 s with
  | mk r s1 =>
    rw [e] at hb he h1 h2
    cases r with
    | fail k => exact ⟨es, he, fun r hr => by cases hr; exact h1 k rfl, fun h => by cases h⟩
    | ok v =>
      obtain ⟨h3, h4⟩ := h2 v rfl
      dsimp only
      split <;> rename_i h11
      · rw [Bool.and_eq_true] at h11
        exact ⟨es, he, fun r hr => by cases hr; exact h3 h11, fun h => by cases h⟩
      · rw [Bool.and_eq_true] at h11
        obtain ⟨g, gl⟩ := h4 h11
        have hp : (afterPair v s1).params = s.params := hb.params
        obtain ⟨fs, hf, h5, h6⟩ := writeP_calls (n + es.length) (m := 1) (by decide)
          (zext8 (afterPair v s1).seq.search.direction) (afterPair v s1)
        rw [hp] at h5 h6
        have hev : (writeP (zext8 (afterPair v s1).seq.search.direction) 1 false (afterPair v s1)).2.events
            = s.events ++ (es ++ fs) := by
          rw [hf, ← List.append_assoc, ← he]; rfl
        cases e' : writeP (zext8 (afterPair v s1).seq.search.direction) 1 false (afterPair v s1) with
        | mk r' s2 =>
          rw [e'] at h5 h6 hev
          cases r' with
          | fail k => exact ⟨es ++ fs, hev, fun r hr => by cases hr; exact g.stop (h5 k rfl), fun h => by cases h⟩
          | ok _ =>
            obtain ⟨g', gl'⟩ := h6 rfl
            exact ⟨es ++ fs, hev, fun r hr => (by cases hr), fun _ => ⟨g.append g', by rw [List.length_append, gl, gl']⟩⟩

/-- The positions left. -/
theorem searchWalk_calls (k : Nat) {n : Nat} (hn : n ≠ 0) (s : State) :
    ∃ es, (searchWalk k s).2.events = s.events ++ es
      ∧ (∀ r, (searchWalk k s).1 = some r → CallsEnd s.params n es r)
      ∧ ((searchWalk k s).1 = none → CallsGoOn s.params n es ∧ es.length = 5 * k) := by
  induction k generalizing n s with
  | zero => exact ⟨[], by simp [searchWalk], fun r h => (by cases h), fun _ => ⟨callsGoOn_nil _ _, rfl⟩⟩
  | succ k ih =>
    obtain ⟨es, he, h1, h2⟩ := searchPosition_calls hn s
    have hw := searchPosition_walk s
    simp only [searchWalk]
    cases e : searchPosition s with
    | mk r s1 =>
      rw [e] at he h1 h2 hw
      cases r with
      | some r => exact ⟨es, he, fun r' hr => by cases hr; exact h1 r rfl, fun h => by cases h⟩
      | none =>
        obtain ⟨g, gl⟩ := h2 rfl
        have hp : s1.params = s.params := hw.params
        obtain ⟨fs, hf, h3, h4⟩ := ih (n := n + es.length) (by omega) s1
        rw [hp] at h3 h4
        refine ⟨es ++ fs, by dsimp only at he ⊢; rw [hf, he, List.append_assoc], fun r hr => g.end (h3 r hr), fun h => ?_⟩
        obtain ⟨g', gl'⟩ := h4 h
        exact ⟨g.append g', by rw [List.length_append, gl, gl']; omega⟩

/-- The calls of a reset whose receive took the capture `c`. -/
def resetCalls (s : State) (c : Capture) : List Event :=
  [.flush, .setIdle s.params.tIdleRst, .transmit (resetTrain s.params) s.drive .ok]
    ++ [.receive s.params.tToReset (.capture c)]

/-- A walk of a search that used the bus: the first call that stops it gives its end (R305), or all 325 calls were made, and
then the bounds of what it leaves (10_state.md R36, 43_search.md R300, R301) and the calls themselves (R313). -/
theorem searchBus_cases {s u : State} {r : SearchEnd} (h : searchBus s = (r, u)) :
    ∃ es, u.events = s.events ++ es
      ∧ (CallsEnd s.params 0 es r
        ∨ CallsGoOn s.params 0 es ∧ es.length = 325
          ∧ r = (if romByte u.search.romNo 0 = 0x00#8 then .notFound else .found)
          ∧ u.search.ld.toNat ≤ 64 ∧ (s.search.lfd.toNat ≤ 8 → u.search.lfd.toNat ≤ 8)
          ∧ (s.search.ldf = false → (u.search.ldf = true ↔ u.search.ld = 0#7))
          ∧ ∃ presence caps, decodePresence s.params presence = true
            ∧ (s.drive = false → es = walkEvents s.params presence caps u.search.romNo)) := by
  have hb := resetP_busRun s
  simp only [searchBus] at h
  obtain ⟨es, he, hc⟩ := receiveP_calls 0 s.params.tIdleRst s.params.tToReset (resetTrain s.params)
    (fun c => .ok (decodePresence s.params c)) s
  have hd1 : resetP s = receiveP s.params.tIdleRst s.params.tToReset (resetTrain s.params)
    (fun c => .ok (decodePresence s.params c)) s := rfl
  rw [← hd1] at he hc
  split at h <;> rename_i e <;> rw [e] at hb he hc
  · rename_i k s1
    simp only [Prod.mk.injEq] at h
    obtain ⟨rfl, rfl⟩ := h
    refine ⟨es, he, .inl ?_⟩
    rcases hc with ⟨a, hc⟩ | ⟨a, hc⟩ | ⟨c, a, -⟩
    · cases a; exact hc
    · cases a; exact hc
    · cases a
  all_goals
    obtain ⟨c, a, rfl⟩ : ∃ c, decodePresence s.params c = _ ∧ es = resetCalls s c := by
      rcases hc with ⟨a, -⟩ | ⟨a, -⟩ | ⟨c, a, hc⟩
      · cases a
      · cases a
      · simp only [Res.ok.injEq] at a; exact ⟨c, a.symm, hc⟩
    have hgb := callsGoOn_before s.params 0 s.params.tIdleRst (resetTrain s.params) s.drive
  · simp only [Prod.mk.injEq] at h
    obtain ⟨rfl, rfl⟩ := h
    exact ⟨_, he, .inl ⟨_, _, rfl, hgb, by simp [searchStop, a]⟩⟩
  · rename_i s1
    dsimp only at hb he
    have hgo : CallsGoOn s.params 0 (resetCalls s c) :=
      hgb.append (by simp [callsGoOn_cons, callsGoOn_nil, searchStop, a])
    obtain ⟨fs, hf, h5, h6⟩ := writeP_calls 4 (m := 8) (by decide) cmdSearchRom s1
    rw [hb.params] at h5 h6
    have hg := writeBurst_busRun cmdSearchRom (n := 8) (by omega) false s1
    have hev := writeBurst_events cmdSearchRom 8 false s1
    rw [writeP_run (n := 8) (by decide)] at h hf h5 h6
    cases ht : txNow s1 with
    | err us =>
      rw [ht] at h h5
      simp only [txResult, Prod.mk.injEq] at h
      obtain ⟨rfl, rfl⟩ := h
      exact ⟨_, by rw [hf, he, List.append_assoc], .inl (hgo.stop (h5 _ rfl))⟩
    | ok =>
      rw [ht] at h h6 hev
      obtain ⟨g, gl⟩ := h6 rfl
      simp only [txResult, searchTree] at h
      have hp1 : (setLocals SearchLocals.start (writeBurst cmdSearchRom 8 false s1)).params = s.params :=
        hg.params.trans hb.params
      obtain ⟨gs, hgs, h7, h8⟩ := searchWalk_calls romBits (n := 5) (by omega)
        (setLocals SearchLocals.start (writeBurst cmdSearchRom 8 false s1))
      rw [hp1] at h7 h8
      have hgo5 := hgo.append (fs := fs) g
      have hlen : (resetCalls s c ++ fs).length = 5 := by rw [List.length_append, gl]; rfl
      have hall : (searchWalk romBits (setLocals SearchLocals.start (writeBurst cmdSearchRom 8 false s1))).2.events
          = s.events ++ (resetCalls s c ++ fs ++ gs) := by
        rw [hgs, show (setLocals SearchLocals.start (writeBurst cmdSearchRom 8 false s1)).events
          = (writeBurst cmdSearchRom 8 false s1).events from rfl, hf, he]
        simp only [List.append_assoc]
      split at h <;> rename_i e2 <;> rw [e2] at h7 h8 hall
      · simp only [Prod.mk.injEq] at h
        obtain ⟨rfl, rfl⟩ := h
        exact ⟨_, hall, .inl (hgo5.end (by rw [hlen]; exact h7 _ rfl))⟩
      · rename_i v
        simp only [Prod.mk.injEq] at h
        obtain ⟨rfl, rfl⟩ := h
        obtain ⟨g2, gl2⟩ := h8 rfl
        have hs : (writeBurst cmdSearchRom 8 false s1).search = s.search := hg.search.trans hb.search
        have w0 : InWalk (s.search.lfd.toNat ≤ 8) 0 (setLocals SearchLocals.start
          (writeBurst cmdSearchRom 8 false s1)) :=
          ⟨rfl, rfl, rfl, Nat.le_refl 0, fun hl => by
            show (writeBurst cmdSearchRom 8 false s1).search.lfd.toNat ≤ 8; rw [hs]; exact hl⟩
        obtain ⟨⟨-, -, -, w2, w3⟩, w4, -, -, caps, ev⟩ := searchWalk_inWalk romBits (by rfl) e2 w0
        refine ⟨_, hall, .inr ⟨hgo5.append (by rw [hlen]; exact g2), by rw [List.length_append, hlen, gl2]; rfl, rfl, ?_,
          w3, fun hld0 => ?_, c, caps, a, fun hd => ?_⟩⟩
        · show (BitVec.ofNat 7 v.seq.search.lastZero).toNat ≤ 64; simp; omega
        · have hld : v.search.ldf = false := by
            rw [w4]; show (writeBurst cmdSearchRom 8 false s1).search.ldf = false; rw [hs]; exact hld0
          show (if v.seq.search.lastZero = 0 then true else v.search.ldf) = true ↔ BitVec.ofNat 7 v.seq.search.lastZero
            = 0#7
          rw [hld, BitVec.toNat_inj.symm]
          simp only [BitVec.toNat_ofNat, Nat.mod_eq_of_lt (show v.seq.search.lastZero < 2 ^ 7 by omega)]
          by_cases h : v.seq.search.lastZero = 0 <;> simp [h]
        · obtain ⟨-, ev2⟩ := ev (hg.driveOff (hb.driveOff hd))
          rw [e2] at hgs
          have hg2 := hgs.symm.trans ev2
          rw [List.append_cancel_left_eq] at hg2
          have hf2 := hf.symm.trans hev
          rw [List.append_cancel_left_eq] at hf2
          rw [hg2, hf2, hp1, hb.params, hb.driveOff hd]
          simp only [walkEvents, resetCalls, receiveEvents, hd, Nat.zero_add, List.cons_append,
            List.nil_append, Bool.false_eq_true, if_false]
          rfl

/-- A search that finds a device: the bounds of what it leaves (10_state.md R36, 43_search.md R300, R301), and the
calls it made (R313). -/
theorem searchBus_found {s u : State} (h : searchBus s = (.found, u)) (hf : s.search.ldf = false) :
    u.search.ld.toNat ≤ 64 ∧ (s.search.lfd.toNat ≤ 8 → u.search.lfd.toNat ≤ 8)
      ∧ (u.search.ldf = true ↔ u.search.ld = 0#7) ∧ romByte u.search.romNo 0 ≠ 0x00#8
      ∧ ∃ presence caps, decodePresence s.params presence = true
        ∧ (s.drive = false → u.events = s.events ++ walkEvents s.params presence caps u.search.romNo) := by
  obtain ⟨es, he, hc | ⟨-, -, hr, h1, h2, h3, presence, caps, hp, h4⟩⟩ := searchBus_cases h
  · exact hc.elim
  · refine ⟨h1, h2, h3 hf, fun h0 => ?_, presence, caps, hp, fun hd => by rw [he, h4 hd]⟩
    rw [if_pos h0] at hr; cases hr

end Sys2Proof.Machine
end

