-- ==== Sys2Proof/Laws/Step.lean ====
section
/-! SUPPORT. What a step does, by the Host's next access. -/

namespace Sys2Proof.Machine

/-- A step takes the Host's next access. -/
theorem step_access {s : State} {a : HostAccess} {rest : List HostAccess} (h : s.host = a :: rest) :
    step s = hostAccess a { s with host := rest } := by
  simp only [step, hostStep, h]

/-- With no access to come, a step changes nothing. -/
theorem step_none {s : State} (h : s.host = []) : step s = .next s := by simp only [step, hostStep, h]

theorem hostAccess_write {offset : Nat} (h : offset % 4 = 0) (h' : offset < 0x40) (v : Word) (s : State) :
    hostAccess (.regWrite offset 4 v) s = regWrite offset v s := by
  simp [hostAccess, accessOk, h, h']

theorem hostAccess_read {offset : Nat} (h : offset % 4 = 0) (h' : offset < 0x40) (s : State) :
    hostAccess (.regRead offset 4) s = .next (regRead offset s) := by
  simp [hostAccess, accessOk, h, h']

theorem regWrite_cmd (v : Word) (s : State) : regWrite 0x00 v s = runCommand v s := rfl

theorem regWrite_bufAddr (v : Word) (s : State) : regWrite 0x0C v s = .next (setBufAddr v s) := rfl

theorem regWrite_bufLen (v : Word) (s : State) : regWrite 0x10 v s = .next (setBufLen v s) := rfl

/-- What a register reads as does not depend on the Host's accesses or the record of its reads. -/
theorem regValue_hostSide (offset : Nat) (s : State) (h : List HostAccess) (r : List HostRead) :
    regValue offset { s with host := h, hostReads := r } = regValue offset s := by
  unfold regValue
  split <;> rfl

theorem regRead_idle (offset : Nat) {s : State} (h : s.busy = false) :
    regRead offset s = { s with hostReads := s.hostReads ++ [.reg offset (regValue offset s)] } := by
  simp [regRead, h, recordRead]

theorem runCommand_busy {s : State} (h : s.busy = true) (w : Word) : runCommand w s = .next s := by
  simp [runCommand, h]

theorem runCommand_op {s : State} (h : s.busy = false) {w : Word} {i : Instr} (d : decode w = .op i) :
    runCommand w s = exec i s := by simp [runCommand, h, d]

theorem runCommand_illegal {s : State} (h : s.busy = false) {w : Word} {why : IllegalWord}
    (d : decode w = .illegal why) : runCommand w s = .next (raise .illegalCommand (accept none w s)) := by
  simp [runCommand, h, d]

/-- The ways a step can answer a next state: nothing, a register or buffer access that runs no operation, or a command.
-/
theorem step_cases {s t : State} (h : step s = .next t) :
    (s.host = [] ∧ t = s)
      ∨ ∃ a rest, s.host = a :: rest ∧
        ((∃ v, a = .regWrite 0x00 4 v ∧ runCommand v { s with host := rest } = .next t)
          ∨ (∃ v, a = .regWrite 0x0C 4 v ∧ t = setBufAddr v { s with host := rest })
          ∨ (∃ v, a = .regWrite 0x10 4 v ∧ t = setBufLen v { s with host := rest })
          ∨ (∃ offset v, a = .regWrite offset 4 v ∧ t = { s with host := rest })
          ∨ (∃ offset, a = .regRead offset 4 ∧ t = regRead offset { s with host := rest })
          ∨ (∃ addr v, a = .bufWrite addr v ∧ addr < 2 ^ s.params.addrW ∧ t = memWrite addr v { s with host := rest })
          ∨ (∃ addr, a = .bufRead addr
              ∧ t = recordRead (.buf addr (s.mem.read addr)) { s with host := rest })
          ∨ (a = .blockReset ∧ t = blockReset { s with host := rest })) := by
  cases hh : s.host with
  | nil => rw [step_none hh] at h; cases h; exact .inl ⟨rfl, rfl⟩
  | cons a rest =>
    rw [step_access hh] at h
    refine .inr ⟨a, rest, rfl, ?_⟩
    cases a with
    | regWrite offset size v =>
      simp only [hostAccess] at h
      split at h
      · rename_i ok
        simp only [accessOk, Bool.and_eq_true, decide_eq_true_eq] at ok
        obtain ⟨⟨rfl, -⟩, -⟩ := ok
        unfold regWrite at h
        split at h
        · exact .inl ⟨v, rfl, h⟩
        · cases h; exact .inr (.inl ⟨v, rfl, rfl⟩)
        · cases h; exact .inr (.inr (.inl ⟨v, rfl, rfl⟩))
        · cases h; exact .inr (.inr (.inr (.inl ⟨_, v, rfl, rfl⟩)))
      · cases h
    | regRead offset size =>
      simp only [hostAccess] at h
      split at h
      · rename_i ok
        simp only [accessOk, Bool.and_eq_true, decide_eq_true_eq] at ok
        obtain ⟨⟨rfl, -⟩, -⟩ := ok
        cases h
        exact .inr (.inr (.inr (.inr (.inl ⟨offset, rfl, rfl⟩))))
      · cases h
    | bufWrite addr v =>
      simp only [hostAccess] at h
      split at h
      · rename_i ok
        cases h
        exact .inr (.inr (.inr (.inr (.inr (.inl ⟨addr, v, rfl, (admitted_iff _ _).1 ok, rfl⟩)))))
      · cases h
    | bufRead addr =>
      simp only [hostAccess] at h
      split at h
      · cases h; exact .inr (.inr (.inr (.inr (.inr (.inr (.inl ⟨addr, rfl, rfl⟩))))))
      · cases h
    | blockReset => cases h; exact .inr (.inr (.inr (.inr (.inr (.inr (.inr ⟨rfl, rfl⟩))))))

/-- A command that answers a next state: ignored while busy, an operation, or an illegal word. -/
theorem runCommand_cases {s t : State} {w : Word} (h : runCommand w s = .next t) :
    (s.busy = true ∧ t = s)
      ∨ (s.busy = false ∧ ((∃ i, decode w = .op i ∧ exec i s = .next t)
        ∨ ((∃ why, decode w = .illegal why) ∧ t = raise .illegalCommand (accept none w s)))) := by
  cases hb : s.busy with
  | true => rw [runCommand_busy hb] at h; cases h; exact .inl ⟨rfl, rfl⟩
  | false =>
    refine .inr ⟨rfl, ?_⟩
    cases hd : decode w with
    | op i => rw [runCommand_op hb hd] at h; exact .inl ⟨i, rfl, h⟩
    | illegal why => rw [runCommand_illegal hb hd] at h; cases h; exact .inr ⟨⟨why, rfl⟩, rfl⟩

/-- What an address register keeps of a word, bit by bit (10_state.md R44). -/
theorem maskAddr_getLsbD (p : Params) (v : Word) {j : Nat} (hj : j < 32) :
    (maskAddr p v).getLsbD j = (decide (j < p.addrW) && v.getLsbD j) := by
  simp only [maskAddr, BitVec.getLsbD_ofNat, hj, decide_true, Bool.true_and, Nat.testBit_mod_two_pow,
    BitVec.testBit_toNat]

end Sys2Proof.Machine
end

