-- ==== Sys2Proof/Laws/Tree.lean ====
section
/-! SUPPORT. The order of the search tree: ROM codes as numbers with position 1 first,
  and the forks of a set of codes. -/

namespace Sys2Proof.Machine

/-- The number a list of bits reads as, after a number read before. -/
theorem foldl_bits (l : List Bool) (n : Nat) :
    l.foldl (fun n b => 2 * n + b.toNat) n = n * 2 ^ l.length + l.foldl (fun n b => 2 * n + b.toNat) 0 := by
  induction l generalizing n with
  | nil => simp
  | cons b l ih =>
    rw [List.foldl_cons, List.foldl_cons, ih, ih (2 * 0 + b.toNat), List.length_cons, Nat.pow_succ]
    ring

theorem foldl_bits_lt (l : List Bool) : l.foldl (fun n b => 2 * n + b.toNat) 0 < 2 ^ l.length := by
  induction l with
  | nil => simp
  | cons b l ih =>
    rw [List.foldl_cons, foldl_bits, List.length_cons, Nat.pow_succ]
    cases b <;> simp <;> omega

/-- A code that first differs from another by a 0 comes before it. -/
theorem romKey_lt {r d : Vector Byte 8} {p : Nat} (h1 : 1 ≤ p) (h64 : p ≤ 64) (ha : agreesBefore r d p = true)
    (hr : romBit r p = false) (hd : romBit d p = true) : romKey r < romKey d := by
  have hlen : ∀ x, (romBitList x).length = 64 := fun x => by simp [romBitList, romBits]
  have hget : ∀ x i, (h : i < 64) → (romBitList x)[i]'(by rw [hlen]; exact h) = romBit x (i + 1) := by
    intro x i h; simp [romBitList]
  have split : ∀ x, romBitList x = (romBitList x).take (p - 1) ++ romBit x p :: (romBitList x).drop p := by
    intro x
    have h2 : p - 1 < (romBitList x).length := by rw [hlen]; omega
    have := List.take_append_drop (p - 1) (romBitList x)
    rw [← List.cons_getElem_drop_succ (h := h2), hget x (p - 1) (by omega), show p - 1 + 1 = p by omega] at this
    exact this.symm
  have htake : (romBitList r).take (p - 1) = (romBitList d).take (p - 1) := by
    apply List.ext_getElem
    · simp [hlen]
    · intro i h2 h3
      have hi : i < p - 1 := by simp at h2; omega
      rw [List.getElem_take, List.getElem_take, hget r i (by omega), hget d i (by omega)]
      exact ((agrees_iff _ _ _).1 ha (i + 1) (by omega) (by omega)).symm
  have hl : ∀ x, ((romBitList x).drop p).length = 64 - p := by intro x; simp [hlen]
  rw [romKey, romKey, split r, split d, htake, List.foldl_append, List.foldl_append, List.foldl_cons, List.foldl_cons,
    hr, hd,
    foldl_bits _ (2 * _ + _), foldl_bits ((romBitList d).drop p), hl, hl]
  have := foldl_bits_lt ((romBitList r).drop p)
  rw [hl] at this
  have e : ∀ a : Nat, (2 * a + true.toNat) * 2 ^ (64 - p) = (2 * a + false.toNat) * 2 ^ (64 - p) + 2 ^ (64 - p) := by
    intro a; simp; ring
  rw [e]
  omega

/-- Two different codes have a first difference. -/
theorem first_difference {r d : Vector Byte 8} (h : r ≠ d) :
    ∃ p, 1 ≤ p ∧ p ≤ 64 ∧ agreesBefore r d p = true ∧ romBit r p ≠ romBit d p := by
  by_contra hc
  refine h (rom_ext fun q => ?_)
  induction q using Nat.strong_induction_on with
  | _ q ih =>
    intro h1 h64
    by_contra hq
    exact hc ⟨q, h1, h64, (agrees_iff _ _ _).2 fun j hj hjq => (ih j hjq hj (by omega)).symm, hq⟩

/-- A code before another first differs from it by a 0. -/
theorem romKey_difference {r d : Vector Byte 8} (h : romKey r < romKey d) :
    ∃ p, 1 ≤ p ∧ p ≤ 64 ∧ agreesBefore r d p = true ∧ romBit r p = false ∧ romBit d p = true := by
  have hne : r ≠ d := by rintro rfl; exact lt_irrefl _ h
  obtain ⟨p, h1, h64, ha, hp⟩ := first_difference hne
  refine ⟨p, h1, h64, ha, ?_⟩
  cases hr : romBit r p <;> cases hd : romBit d p
  · rw [hr, hd] at hp; exact absurd rfl hp
  · exact ⟨rfl, rfl⟩
  · have ha' : agreesBefore d r p = true := (agrees_iff _ _ _).2 fun q a b => ((agrees_iff _ _ _).1 ha q a b).symm
    exact absurd h (not_lt.2 (romKey_lt h1 h64 ha' hd hr).le)
  · rw [hr, hd] at hp; exact absurd rfl hp

/-- A fork has a code on each side. -/
theorem forksAt_iff (ds : List (Vector Byte 8)) (r : Vector Byte 8) (p : Nat) :
    forksAt ds r p = true ↔ ∀ v, ∃ d ∈ ds, agreesBefore r d p = true ∧ romBit d p = v := by
  simp only [forksAt, idAnswer, complementAnswer, Bool.and_eq_true, Bool.not_eq_true', ← Bool.not_eq_true,
    List.all_eq_true]
  push Not
  constructor
  · rintro ⟨⟨d, hd, h⟩, e, he, g⟩ v
    simp at h g
    cases v
    · exact ⟨d, hd, h⟩
    · exact ⟨e, he, g⟩
  · intro h
    obtain ⟨d, hd, a, b⟩ := h false
    obtain ⟨e, he, a', b'⟩ := h true
    exact ⟨⟨d, hd, by simp [a, b]⟩, e, he, by simp [a', b']⟩

/-- The last zero fork, when there is one, is a zero fork, and none lies after it. -/
theorem lastZeroFork_spec (ds : List (Vector Byte 8)) (r : Vector Byte 8) (n : Nat) :
    (lastZeroFork ds r n ≠ 0 → 1 ≤ lastZeroFork ds r n ∧ lastZeroFork ds r n ≤ n
        ∧ forksAt ds r (lastZeroFork ds r n) = true ∧ romBit r (lastZeroFork ds r n) = false)
      ∧ ∀ q, lastZeroFork ds r n < q → q ≤ n → forksAt ds r q = true → romBit r q = true := by
  induction n with
  | zero => exact ⟨fun h => absurd rfl h, fun q h1 h2 => by omega⟩
  | succ n ih =>
    simp only [lastZeroFork]
    split
    · rename_i h
      simp only [Bool.and_eq_true, Bool.not_eq_true'] at h
      exact ⟨fun _ => ⟨by omega, le_refl _, h.1, h.2⟩, fun q h1 h2 => by omega⟩
    · rename_i h
      refine ⟨fun h0 => ?_, fun q h1 h2 hf => ?_⟩
      · obtain ⟨a, b, c⟩ := ih.1 h0; exact ⟨a, by omega, c⟩
      · by_cases hq : q = n + 1
        · subst hq
          simp only [hf, Bool.true_and, Bool.not_eq_true', Bool.not_eq_false] at h
          simpa using h
        · exact ih.2 q h1 (by omega) hf

/-- Forks depend on which codes are there, not on their order. -/
theorem forksAt_congr {ds es : List (Vector Byte 8)} (h : ∀ d, d ∈ ds ↔ d ∈ es) (r : Vector Byte 8) (p : Nat) :
    forksAt ds r p = forksAt es r p := by
  rw [Bool.eq_iff_iff, forksAt_iff, forksAt_iff]
  simp only [h]

theorem lastZeroFork_congr {ds es : List (Vector Byte 8)} (h : ∀ d, d ∈ ds ↔ d ∈ es) (r : Vector Byte 8) (n : Nat) :
    lastZeroFork ds r n = lastZeroFork es r n := by
  induction n with
  | zero => rfl
  | succ n ih => simp only [lastZeroFork, forksAt_congr h, ih]

/-- A list of codes in tree order: later means greater. -/
theorem romKey_mono {roms : List (Vector Byte 8)} (hs : roms.Pairwise fun x y => romKey x < romKey y)
    {i j : Nat} (hj : j < roms.length) (h : i < j) : romKey roms[i] < romKey roms[j] :=
  List.pairwise_iff_getElem.1 hs i j (by omega) hj h

theorem romKey_le {roms : List (Vector Byte 8)} (hs : roms.Pairwise fun x y => romKey x < romKey y)
    {i j : Nat} (hj : j < roms.length) (h : i ≤ j) : romKey roms[i] ≤ romKey roms[j] := by
  rcases Nat.lt_or_eq_of_le h with h | rfl
  · exact (romKey_mono hs hj h).le
  · exact le_refl _

/-- Nothing lies between a code and the next. -/
theorem no_between {roms : List (Vector Byte 8)} (hs : roms.Pairwise fun x y => romKey x < romKey y)
    {k : Nat} (hk : k + 1 < roms.length) {d : Vector Byte 8} (hd : d ∈ roms) (h1 : romKey roms[k] < romKey d)
      (h2 : romKey d < romKey roms[k+1]) : False := by
  obtain ⟨j, hj, rfl⟩ := List.getElem_of_mem hd
  rcases Nat.lt_or_ge k j with h | h
  · have := romKey_le hs hj (show k + 1 ≤ j from h); omega
  · have := romKey_le hs (show k < roms.length by omega) h; omega

/-- The first code takes 0 at every fork. -/
theorem first_rule {roms : List (Vector Byte 8)} (hs : roms.Pairwise fun x y => romKey x < romKey y)
    (h0 : 0 < roms.length) (q : Nat) (h1 : 1 ≤ q) (h64 : q ≤ 64) (hf : forksAt roms roms[0] q
      = true) : romBit roms[0] q = false := by
  obtain ⟨d, hd, ha, hb⟩ := (forksAt_iff _ _ _).1 hf false
  by_contra hc
  have ha' : agreesBefore d roms[0] q = true := (agrees_iff _ _ _).2 fun i a b => ((agrees_iff _ _ _).1 ha i a b).symm
  have := romKey_lt h1 h64 ha' hb (by simpa using hc)
  obtain ⟨j, hj, rfl⟩ := List.getElem_of_mem hd
  have := romKey_le hs hj (Nat.zero_le j); omega

/-- The last code has no zero fork. -/
theorem last_none {roms : List (Vector Byte 8)} (hs : roms.Pairwise fun x y => romKey x < romKey y)
    {k : Nat} (hk : k < roms.length) (hl : k + 1 = roms.length) : lastZeroFork roms roms[k] 64 = 0 := by
  by_contra hc
  obtain ⟨a, b, c, d⟩ := (lastZeroFork_spec roms roms[k] 64).1 hc
  obtain ⟨e, he, ha, hb⟩ := (forksAt_iff _ _ _).1 c true
  have := romKey_lt a b ha d hb
  obtain ⟨j, hj, rfl⟩ := List.getElem_of_mem he
  have := romKey_le hs (show k < roms.length from hk) (show j ≤ k by omega); omega

/-- The last zero fork of a code is its first difference with the next. -/
theorem successor {roms : List (Vector Byte 8)} (hs : roms.Pairwise fun x y => romKey x < romKey y)
    {k : Nat} (hk : k + 1 < roms.length) : ∃ p, lastZeroFork roms roms[k] 64 = p ∧ 1 ≤ p ∧ p ≤ 64
      ∧ agreesBefore roms[k] roms[k+1] p = true ∧ romBit roms[k] p = false ∧ romBit roms[k+1] p = true := by
  obtain ⟨p, h1, h64, ha, hr, hd⟩ := romKey_difference (romKey_mono hs hk (Nat.lt_succ_self k))
  have hf : forksAt roms roms[k] p = true := (forksAt_iff _ _ _).2 fun v => by
    cases v
    · exact ⟨roms[k], List.getElem_mem _, (agrees_iff _ _ _).2 fun _ _ _ => rfl, hr⟩
    · exact ⟨roms[k+1], List.getElem_mem _, ha, hd⟩
  obtain ⟨s1, s2⟩ := lastZeroFork_spec roms roms[k] 64
  have hge : p ≤ lastZeroFork roms roms[k] 64 := by
    by_contra hc
    have := s2 p (by omega) h64 hf
    rw [hr] at this; simp at this
  obtain ⟨a, b, c, d⟩ := s1 (by omega)
  refine ⟨p, ?_, h1, h64, ha, hr, hd⟩
  by_contra hne
  obtain ⟨e, he, hae, hbe⟩ := (forksAt_iff _ _ _).1 c true
  have k1 := romKey_lt a b hae d hbe
  have hep : romBit e p = false := by rw [(agrees_iff _ _ _).1 hae p h1 (by omega), hr]
  have ha2 : agreesBefore e roms[k+1] p = true := (agrees_iff _ _ _).2 fun i x y => by
    rw [(agrees_iff _ _ _).1 ha i x y, (agrees_iff _ _ _).1 hae i x (by omega)]
  exact no_between hs hk he k1 (romKey_lt h1 h64 ha2 hep hd)

/-- The next code is the one the direction rule leads to from a code and its last zero fork (43_search.md R295, R310).
-/
theorem successor_rule {roms : List (Vector Byte 8)} (hs : roms.Pairwise fun x y => romKey x < romKey y)
    {k : Nat} (hk : k + 1 < roms.length) (q : Nat) (h1 : 1 ≤ q) (h64 : q ≤ 64) (hf : forksAt roms roms[k+1] q = true) :
    romBit roms[k+1] q = if q < lastZeroFork roms roms[k] 64 then romBit roms[k] q else decide (q
      = lastZeroFork roms roms[k] 64) := by
  obtain ⟨p, e, p1, p64, ha, hr, hd⟩ := successor hs hk
  rw [e]
  rcases Nat.lt_trichotomy q p with h | h | h
  · rw [if_pos h]; exact (agrees_iff _ _ _).1 ha q h1 h
  · subst h; simp [hd]
  · rw [if_neg (by omega)]
    simp only [show ¬ q = p by omega, decide_false]
    by_contra hc
    obtain ⟨d, hdm, hda, hdb⟩ := (forksAt_iff _ _ _).1 hf false
    have ha' : agreesBefore d roms[k+1] q = true := (agrees_iff _ _ _).2 fun i a b =>
      ((agrees_iff _ _ _).1 hda i a b).symm
    have k1 := romKey_lt h1 h64 ha' hdb (by simpa using hc)
    have hdp : romBit d p = true := by rw [(agrees_iff _ _ _).1 hda p p1 h, hd]
    have ha2 : agreesBefore roms[k] d p = true := (agrees_iff _ _ _).2 fun i x y => by
      rw [(agrees_iff _ _ _).1 hda i x (by omega), (agrees_iff _ _ _).1 ha i x y]
    exact no_between hs hk hdm (romKey_lt p1 p64 ha2 hr hdp) k1

/-- Whatever the SearchState, the direction rule leads to some code of a bus that has one. -/
theorem target_exists {ds : List (Vector Byte 8)} (hne : ds ≠ []) (x : SearchState) :
    ∃ rom ∈ ds, ∀ q, 1 ≤ q → q ≤ 64 → forksAt ds rom q = true →
      romBit rom q = if q < x.ld.toNat then romBit x.romNo q else decide (q = x.ld.toNat) := by
  have key : ∀ n, ∃ rom ∈ ds, ∀ q, 1 ≤ q → q ≤ n → forksAt ds rom q = true →
      romBit rom q = if q < x.ld.toNat then romBit x.romNo q else decide (q = x.ld.toNat) := by
    intro n
    induction n with
    | zero =>
      obtain ⟨d, es, rfl⟩ := List.exists_cons_of_ne_nil hne
      exact ⟨d, by simp, fun q h1 h2 => by omega⟩
    | succ n ih =>
      obtain ⟨rom, hr, h⟩ := ih
      by_cases hf : forksAt ds rom (n + 1) = true
      · obtain ⟨d, hd, ha, hb⟩ := (forksAt_iff _ _ _).1 hf
          (if n + 1 < x.ld.toNat then romBit x.romNo (n + 1) else decide (n + 1 = x.ld.toNat))
        refine ⟨d, hd, fun q h1 h2 hq => ?_⟩
        by_cases he : q = n + 1
        · subst he; exact hb
        · rw [(agrees_iff _ _ _).1 ha q h1 (by omega)]
          refine h q h1 (by omega) ((forksAt_iff _ _ _).2 fun v => ?_)
          obtain ⟨e, he', hae, hbe⟩ := (forksAt_iff _ _ _).1 hq v
          refine ⟨e, he', (agrees_iff _ _ _).2 fun i a b => ?_, hbe⟩
          rw [(agrees_iff _ _ _).1 hae i a b, (agrees_iff _ _ _).1 ha i a (by omega)]
      · refine ⟨rom, hr, fun q h1 h2 hq => ?_⟩
        by_cases he : q = n + 1
        · subst he; exact absurd hq hf
        · exact h q h1 (by omega) hq
  exact key 64

end Sys2Proof.Machine
end

