-- ==== Sys2Proof/Tests/Slice0.lean ====
section
/-! SUPPORT. The model's own tests, their expected results from spec/95_test_vectors.md and the rules, and for every
obligation with hypotheses a witness that meets them. -/

namespace Sys2Proof.Tests

open Sys2Proof.Machine

/-! ### Helpers -/

/-- The nominal figures of 00_scope.md R13, with values inside their bounds for the parameters the spec leaves open. -/
def demoParams : Params := ⟨TimingTable.nominal, 2, 100, 600, 100000, 5000, 32⟩

/-- A constructed controller with answers of the Environment to come. -/
def demo (txs : List TxAnswer) (rxs : List RxAnswer) : State :=
  { State.construct demoParams with txAnswers := txs, rxAnswers := rxs }

/-- The same with Host accesses to come. -/
def hosted (as : List HostAccess) : State := { State.construct demoParams with host := as }

/-- The same with a buffer operand. -/
def buffered (a : Word) (l : BitVec 16) (m : Memory) (s : State) : State := { s with bufAddr := a, bufLen := l, mem := m }

/-- What a next state shows, none for a stop. -/
def look {α : Type} (f : State → α) : Answer → Option α
  | .next t => some (f t)
  | .fault _ => none
  | .refused _ => none

/-- How an answer stops. -/
def faultOf : Answer → Option Fault
  | .next _ => none
  | .fault f => some f
  | .refused _ => none

/-- How an answer is refused. -/
def refusalOf : Answer → Option Refusal
  | .next _ => none
  | .fault _ => none
  | .refused r => some r

/-- A look that holds names a next state. -/
theorem completes_of_look {o : Answer} {f : State → Bool} (h : look f o = some true) :
    Completes o fun t => f t = true := by
  cases o with
  | next t => exact ⟨t, rfl, by simpa [look] using h⟩
  | fault _ => simp [look] at h
  | refused _ => simp [look] at h

/-- A segment, low or high, as the spec writes it: level 0 or 1. -/
def seg (l d : Nat) : Segment := ⟨if l = 0 then .low else .high, d⟩

/-- The presence capture of the reference bus with a device (95_test_vectors.md). -/
def presence : Capture := [seg 0 480, seg 1 30, seg 0 120]

/-- The capture of a pair read, by its two bits (V-B5 to V-B8). -/
def pairCapture (a b : Bool) : Capture :=
  [seg 0 (if a then 2 else 30), seg 1 (if a then 73 else 45), seg 0 (if b then 2 else 30)]

/-- The ROM codes A, B, C and Z of 95_test_vectors.md. -/
def romA : Vector Byte 8 := #v[0x10#8, 0x02#8, 0#8, 0#8, 0#8, 0#8, 0#8, 0#8]
def romB : Vector Byte 8 := #v[0x10#8, 0x03#8, 0#8, 0#8, 0#8, 0#8, 0#8, 0#8]
def romC : Vector Byte 8 := #v[0x28#8, 0x01#8, 0#8, 0#8, 0#8, 0#8, 0#8, 0#8]

/-- V-B12, the capture of byte 0x91. -/
def capture91 : Capture :=
  [seg 0 2, seg 1 73, seg 0 30, seg 1 45, seg 0 30, seg 1 45, seg 0 30, seg 1 45, seg 0 2, seg 1 73, seg 0 30, seg 1 45,
    seg 0 30, seg 1 45, seg 0 2]

/-! ### Encoding -/

/-- V-E1 to V-E10. -/
theorem test_decode_writes :
    decode 0x00000001#32 = .op .reset ∧ decode 0x00000002#32 = .op (.writeBit false)
      ∧ decode 0x00010002#32 = .op (.writeBit true) ∧ decode 0x00050033#32 = .op (.writeBits 0x05#8 3 false)
      ∧ decode 0x00440183#32 = .op (.writeBits 0x44#8 8 true) ∧ decode 0x00000093#32 = .op (.writeBits 0x00#8 9 false)
      ∧ decode 0x00FF0003#32 = .op (.writeBits 0xFF#8 0 false) ∧ decode 0x00A50004#32 = .op (.writeByte 0xA5#8)
      ∧ decode 0x00000005#32 = .op (.writeBytes false) ∧ decode 0x00000105#32 = .op (.writeBytes true) := by decide

/-- V-E11 to V-E20. -/
theorem test_decode_reads_rom_search :
    decode 0x00000006#32 = .op .readBit ∧ decode 0x00000027#32 = .op (.readBits 2)
      ∧ decode 0x00000087#32 = .op (.readBits 8) ∧ decode 0x00000008#32 = .op .readByte
      ∧ decode 0x00000009#32 = .op .readBytes ∧ decode 0x0000000A#32 = .op .select ∧ decode 0x0000000B#32 = .op .skip
      ∧ decode 0x0000000C#32 = .op .resetSearch ∧ decode 0x0028000D#32 = .op (.targetSearch 0x28#8)
      ∧ decode 0x0000000E#32 = .op .search := by decide

/-- V-E21 to V-E31. -/
theorem test_decode_illegal :
    decode 0x00000000#32 = .illegal .reservedOpcode ∧ decode 0x0000000F#32 = .illegal .reservedOpcode
      ∧ [0x00000011#32, 0x00020002#32, 0x00440104#32, 0x01000004#32, 0x00000015#32, 0x00000205#32, 0x00000107#32,
          0x00010006#32, 0x0000001E#32].all (fun w => decode w == .illegal .mustBeZero) = true := by decide

/-- The masks and match values of spec/opcode_table.json, in its order. -/
theorem test_table_of_the_spec :
    opcodeTable.map (fun r => (r.mask, r.value))
      = [(0xFFFFFFFF#32, 1#32), (0xFFFEFFFF#32, 2#32), (0xFF00FE0F#32, 3#32), (0xFF00FFFF#32, 4#32), (0xFFFFFEFF#32, 5#32),
          (0xFFFFFFFF#32, 6#32), (0xFFFFFF0F#32, 7#32), (0xFFFFFFFF#32, 8#32), (0xFFFFFFFF#32, 9#32),
          (0xFFFFFFFF#32, 10#32), (0xFFFFFFFF#32, 11#32), (0xFFFFFFFF#32, 12#32), (0xFF00FFFF#32, 13#32),
          (0xFFFFFFFF#32, 14#32)] := by decide

/-- The encoder writes the words of V-E4, V-E5, V-E10, V-E12 and V-E19. -/
theorem test_encode :
    encode (.writeBits 0x05#8 3 false) = 0x00050033#32 ∧ encode (.writeBits 0x44#8 8 true) = 0x00440183#32
      ∧ encode (.writeBytes true) = 0x00000105#32 ∧ encode (.readBits 2) = 0x00000027#32
      ∧ encode (.targetSearch 0x28#8) = 0x0028000D#32 := by decide

/-- A count that the field `N` cannot hold is ill formed (R103, R110), and 15 is well formed. -/
theorem test_ill_formed :
    ¬Instr.WellFormed (.writeBits 0x00#8 16 false) ∧ ¬Instr.WellFormed (.readBits 16)
      ∧ Instr.WellFormed (.writeBits 0xFF#8 15 true) ∧ Instr.WellFormed (.readBits 15) := by decide

/-- Assembly lines as text: V-E5, a comment, `set`, `get`, and what an assembler refuses (R110, R111). -/
theorem test_assembler_text :
    (parseLine "write_bits 0x44, 8, power".toList).bind assemble = some (.regWrite 0x00 4 0x00440183#32)
      ∧ (parseLine "  search ; find one".toList).bind assemble = some (.regWrite 0x00 4 0x0000000E#32)
      ∧ (parseLine "set BUF_ADDR, 0x100".toList).bind assemble = some (.regWrite 0x0C 4 0x00000100#32)
      ∧ (parseLine "get STATUS".toList).bind assemble = some (.regRead 0x04 4)
      ∧ (parseLine "write_bit 2".toList).bind assemble = none
      ∧ (parseLine "write_byte 0x100".toList).bind assemble = none
      ∧ (parseLine "read_bits 16".toList).bind assemble = none := by decide

/-! ### The wire -/

/-- V-W1 to V-W3, and V-W4 as its bits. -/
theorem test_trains :
    slot demoParams true = [.pulse (seg 0 2), .pulse (seg 1 73)]
      ∧ slot demoParams false = [.pulse (seg 0 65), .pulse (seg 1 10)]
      ∧ resetTrain demoParams = [.pulse (seg 0 480), .endMark]
      ∧ groupBits 0x55#8 8 = [true, false, true, false, true, false, true, false]
      ∧ groupBits cmdSkipRom 8 = [false, false, true, true, false, false, true, true]
      ∧ groupBits cmdSearchRom 8 = [false, false, false, false, true, true, true, true] := by decide

/-- V-P1 to V-P8 (R170). -/
theorem test_presence :
    decodePresence demoParams presence = true ∧ decodePresence demoParams [seg 0 478, seg 1 30, seg 0 120] = true
      ∧ decodePresence demoParams [seg 0 477, seg 1 30, seg 0 120] = false
      ∧ decodePresence demoParams [seg 0 480] = false
      ∧ decodePresence demoParams [seg 0 480, seg 0 5, seg 0 120] = false
      ∧ decodePresence demoParams [seg 1 5, seg 0 480, seg 1 30, seg 0 120] = false
      ∧ decodePresence demoParams [seg 0 480, seg 1 30, seg 0 120, seg 1 50, seg 0 9] = true := by decide

/-- V-B1 to V-B14 (R171). -/
theorem test_bit_decode :
    decodeBits demoParams [seg 0 12] 1 = .ok 1#8 ∧ decodeBits demoParams [seg 0 13] 1 = .ok 0#8
      ∧ decodeBits demoParams [seg 0 2, seg 1 73, seg 0 30] 2 = .ok 1#8
      ∧ decodeBits demoParams [seg 0 30, seg 1 45, seg 0 2] 2 = .ok 2#8
      ∧ decodeBits demoParams [seg 0 2] 2 = .fail .channelError ∧ decodeBits demoParams [] 1 = .fail .channelError
      ∧ decodeBits demoParams [seg 1 5, seg 0 2, seg 1 73, seg 0 30] 2 = .ok 1#8
      ∧ decodeBits demoParams capture91 8 = .ok 0x91#8
      ∧ decodeBits demoParams (List.replicate 8 (seg 0 2)) 8 = .ok 0xFF#8 := by decide

/-- A controller whose channel has this idle threshold. -/
def listening (idle : Nat) : State := { demo [] [] with idleThreshold := idle }

/-- R155, on the pair of V-B6: a high shorter than the threshold is inside the capture, one as long ends it and the next
falling edge begins another; the reset low ends nothing, and a presence that begins after the threshold comes too late. -/
theorem test_receiver :
    hears (listening 74) [seg 0 2, seg 1 73, seg 0 30, seg 1 45] = [[seg 0 2, seg 1 73, seg 0 30]]
      ∧ hears (listening 73) [seg 0 2, seg 1 73, seg 0 30, seg 1 45] = [[seg 0 2], [seg 0 30]]
      ∧ hears (listening 31) [seg 0 480, seg 1 30, seg 0 120] = [presence]
      ∧ hears (listening 30) [seg 0 480, seg 1 30, seg 0 120] = [[seg 0 480], [seg 0 120]]
      ∧ hears (listening 74) [] = [] ∧ hears (listening 74) [seg 1 500, seg 0 40, seg 0 2] = [[seg 0 42]] := by decide

/-- A read of a byte on a bus of selected devices with these output streams. -/
def readByteOn (b : RefBus) : RefBus := busTransmit demoParams .vectors (readTrain demoParams 8) { b with reading := true }

/-- A device that was selected, with an output stream. -/
def sender (rom : Vector Byte 8) (bytes : List Byte) : Device := ⟨rom, .selected, bytes, 0⟩

/-- The captures of the next three bytes read. -/
def threeReads (ds : List Device) : List Capture :=
  (readByteOn (readByteOn (readByteOn (RefBus.attach ds (listening 100))))).queue

/-- R187 with the streams of V-O21 and V-R5: `[0x91, 0x01]` is sent LSB first, byte by byte (V-B12, and the capture of 0x01),
then reads 1s (V-B14); of two senders either's 0 reads 0. -/
theorem test_output_stream :
    (threeReads [sender romC [0x91#8, 0x01#8]]).map (fun c => decodeBits demoParams c 8)
        = [.ok 0x91#8, .ok 0x01#8, .ok 0xFF#8]
      ∧ (threeReads [sender romC [0x91#8, 0x01#8]]).head? = some capture91
      ∧ (threeReads [sender romA [0x0F#8], sender romC [0xF0#8]]).map (fun c => decodeBits demoParams c 8)
        = [.ok 0x00#8, .ok 0xFF#8, .ok 0xFF#8] := by decide +kernel

/-! ### Operations -/

/-- V-P1 (presence) and V-P4 (`[(0,480)]`), through `STATUS`. -/
theorem test_reset :
    look statusWord (exec .reset (demo [.ok] [.capture presence])) = some 0x00000002#32
      ∧ look statusWord (exec .reset (demo [.ok] [.capture [seg 0 480]])) = some 0x00000000#32 := by decide

/-- V-P9 to V-P11. -/
theorem test_reset_failures :
    look statusWord (exec .reset (demo [.ok] [.timeout])) = some 0x00000008#32
      ∧ look statusWord (exec .reset (demo [.err 7] [])) = some 0x00000004#32
      ∧ look statusWord (exec .reset (demo [.ok] [.err])) = some 0x00000004#32 := by decide

/-- V-O1 and V-O2. -/
theorem test_write_bit :
    look (fun t => (statusWord t, t.events)) (exec (.writeBit true) (demo [.ok] []))
        = some (0x00000002#32, [.transmit [.pulse (seg 0 2), .pulse (seg 1 73), .endMark] false .ok])
      ∧ look statusWord (exec (.writeBit false) (demo [.err 0] [])) = some 0x00000004#32 := by decide

/-- V-O4: strong pull during the burst only. -/
theorem test_write_bits_powered :
    look (fun t => (statusWord t, lineWord t, t.events.map fun e => match e with
        | .transmit _ d _ => some d
        | .flush => none
        | .setIdle _ => none
        | .receive _ _ => none)) (exec (.writeBits 0x44#8 8 true) (demo [.ok] []))
      = some (0x00000002#32, 0x00000000#32, [some true]) := by decide

/-- V-O6 and V-O7. -/
theorem test_write_bits_protocol :
    look (fun t => (statusWord t, t.events)) (exec (.writeBits 0x00#8 9 false) (demo [.err 0] [])) = some (0x0000000C#32, [])
      ∧ look statusWord (exec (.writeBits 0xFF#8 0 false) (demo [.ok] [])) = some 0x0000000C#32 := by decide

/-- V-O8: V-W7 is the train of 0xA5. -/
theorem test_write_byte :
    look (fun t => t.events) (exec (.writeByte 0xA5#8) (demo [.ok] []))
      = some [.transmit ([true, false, true, false, false, true, false, true].flatMap (slot demoParams) ++ [.endMark]) false
          .ok] := by decide

/-- V-O10 and V-O11: two powered bytes, and an err on the first. -/
theorem test_write_bytes :
    look (fun t => (statusWord t, t.events))
        (exec (.writeBytes true) (buffered 0x100#32 2#16 [(0x100, 0xCC#8), (0x101, 0x44#8)] (demo [.ok, .ok] [])))
        = some (0x00000002#32, [.transmit (bitsTrain demoParams 0xCC#8 8) true .ok,
            .transmit (bitsTrain demoParams 0x44#8 8) true .ok])
      ∧ look (fun t => (statusWord t, t.events.length))
        (exec (.writeBytes false) (buffered 0x100#32 2#16 [(0x100, 0xCC#8), (0x101, 0x44#8)] (demo [.err 3, .ok] [])))
        = some (0x00000004#32, 1) := by decide

/-- V-O13 and V-O14. -/
theorem test_read_bit :
    look (fun t => (statusWord t, rdataWord t)) (exec .readBit (demo [.ok] [.capture [seg 0 2]]))
        = some (0x00000002#32, 0x00000001#32)
      ∧ look (fun t => (statusWord t, rdataWord t)) (exec .readBit (demo [.ok] [.capture [seg 0 30]]))
        = some (0x00000002#32, 0x00000000#32) := by decide

/-- V-O16 and V-O17. -/
theorem test_read_bits :
    look (fun t => (statusWord t, rdataWord t)) (exec (.readBits 2) (demo [.ok] [.capture [seg 0 30, seg 1 45, seg 0 2]]))
        = some (0x00000002#32, 0x00000002#32)
      ∧ look statusWord (exec (.readBits 9) (demo [.ok] [])) = some 0x0000000C#32 := by decide

/-- V-O18 and V-O19. -/
theorem test_read_byte :
    look rdataWord (exec .readByte (demo [.ok] [.capture capture91])) = some 0x00000091#32
      ∧ look statusWord (exec .readByte (demo [.ok] [.capture [seg 0 2, seg 1 73, seg 0 2]])) = some 0x00000004#32 := by
  decide

/-- V-O22: the first byte is stored, the second group times out. -/
theorem test_read_bytes :
    look (fun t => (statusWord t, t.mem.read 0x100, rdataWord t))
      (exec .readBytes (buffered 0x100#32 2#16 [(0x101, 0x77#8)] (demo [.ok, .ok] [.capture capture91, .timeout])))
      = some (0x00000008#32, 0x91#8, 0x00000000#32) := by decide

/-- V-R1 and V-R2. -/
theorem test_select :
    look (fun t => (statusWord t, t.events))
        (exec .select (buffered 0x300#32 0#16 [(0x300, 0x28#8), (0x301, 0x01#8)] (demo (List.replicate 9 .ok) [])))
        = some (0x00000002#32, [0x55#8, 0x28#8, 0x01#8, 0#8, 0#8, 0#8, 0#8, 0#8, 0#8].map fun b =>
            .transmit (bitsTrain demoParams b 8) false .ok)
      ∧ look (fun t => (statusWord t, t.events.length))
        (exec .select (buffered 0x300#32 0#16 [(0x300, 0x28#8), (0x301, 0x01#8)] (demo [.ok, .ok, .err 9] [])))
        = some (0x00000004#32, 3) := by decide

/-- V-R3. -/
theorem test_skip :
    look (fun t => (statusWord t, t.events)) (exec .skip (demo [.ok] []))
      = some (0x00000002#32, [.transmit (bitsTrain demoParams 0xCC#8 8) false .ok]) := by decide

/-- V-S15. -/
theorem test_reset_search :
    look (fun t => (sstateWord t, romLoWord t, romHiWord t, statusWord t, t.events))
      (exec .resetSearch { demo [] [] with search := ⟨romA, 9#7, 4#4, false⟩ })
      = some (0#32, 0#32, 0#32, 0x00000002#32, []) := by decide

/-- V-T1, the seed. -/
theorem test_target_search :
    look (fun t => (sstateWord t, romLoWord t, statusWord t)) (exec (.targetSearch 0x28#8) (demo [] []))
      = some (0x00000040#32, 0x00000028#32, 0x00000002#32) := by decide

/-- The captures the devices `ds` give a search that follows `rom`, after the presence capture. -/
def searchAnswers (ds : List (Vector Byte 8)) (rom : Vector Byte 8) : List RxAnswer :=
  .capture presence :: (List.range 64).map fun i =>
    .capture (pairCapture (idAnswer ds rom (i + 1)) (complementAnswer ds rom (i + 1)))

/-- A search of the devices `ds` that is to follow `rom`, from a SearchState. -/
def searching (ds : List (Vector Byte 8)) (rom : Vector Byte 8) (x : SearchState) : State :=
  { demo (List.replicate 130 .ok) (searchAnswers ds rom) with search := x, bufAddr := 0x200#32 }

/-- V-S1: the first of three devices. -/
theorem test_search_first :
    look (fun t => (statusWord t, sstateWord t, romLoWord t, t.mem)) (exec .search (searching [romA, romB, romC] romA .zero))
      = some (0x00000002#32, 0x00000409#32, 0x00000210#32, [(0x200, 0x10#8), (0x201, 0x02#8)]) := by decide +kernel

/-- V-S3, and V-S4 after it. -/
theorem test_search_last :
    look (fun t => (sstateWord t, romLoWord t))
        (exec .search (searching [romA, romB, romC] romC ⟨romB, 4#7, 4#4, false⟩))
        = some (0x00010400#32, 0x00000128#32)
      ∧ look (fun t => (statusWord t, sstateWord t, t.events))
        (exec .search (searching [romA, romB, romC] romC ⟨romC, 0#7, 4#4, true⟩))
        = some (0x00000000#32, 0x00010400#32, []) := by decide +kernel

/-! ### The Host's side -/

/-- V-Z1. -/
theorem test_reset_registers :
    (List.range 16).all (fun k => regValue (4 * k) State.reset == 0#32) = true := by decide

/-- V-X5 through `step`, and a command placed for the next step. -/
theorem test_step_commands :
    look (fun t => (statusWord t, t.events)) (step (hosted [.regWrite 0x00 4 0x00440104#32])) = some (0x00000010#32, [])
      ∧ look statusWord (step (State.reset.withFetchWord 32 0x0000000C)) = some 0x00000002#32
      ∧ decodeTableWord 32 0x0000000F = none := by decide

/-- The word of every row, its operands 0, runs as the first command after reset, whatever the free answers are. -/
theorem test_rows_run_from_reset :
    [0x1, 0x2, 0x3, 0x4, 0x5, 0x6, 0x7, 0x8, 0x9, 0xA, 0xB, 0xC, 0xD, 0xE].all (fun w =>
      look (fun _ => true) (step (State.reset.withFetchWord 32 w)) == some true && (decodeTableWord 32 w).isSome) = true := by
  decide

/-- The byte lanes of `ROM_LO` and `ROM_HI` (20_memory.md R82). -/
theorem test_rom_lanes :
    regValue 0x18 { hosted [] with search := ⟨#v[1#8, 2#8, 3#8, 4#8, 5#8, 6#8, 7#8, 8#8], 0#7, 0#4, false⟩ } = 0x04030201#32
      ∧ regValue 0x1C { hosted [] with search := ⟨#v[1#8, 2#8, 3#8, 4#8, 5#8, 6#8, 7#8, 8#8], 0#7, 0#4, false⟩ }
        = 0x08070605#32 := by decide

/-- A refused buffer access at the top of the address space (R76, R77), and a register access that is refused (R72). -/
theorem test_stops :
    faultOf (exec .select (buffered 0xFFFFFFFC#32 0#16 [] (demo [] []))) = some (.bufferNotAdmitted (2 ^ 32))
      ∧ refusalOf (step (hosted [.regRead 0x04 1])) = some (.registerAccess 0x04 1)
      ∧ refusalOf (step (hosted [.regWrite 0x40 4 0#32])) = some (.registerAccess 0x40 4) := by decide


/-! ### Witnesses: for every obligation with hypotheses, concrete values that meet all of them together -/

/-- The next state an answer names, or the state given. -/
def after (o : Answer) (s : State) : State :=
  match o with
  | .next t => t
  | .fault _ => s
  | .refused _ => s

/-- Whether an answer is a next state. -/
def runs (o : Answer) : Bool := look (fun _ => true) o == some true

theorem next_of_runs {o : Answer} {s : State} (h : runs o = true) : o = .next (after o s) := by
  cases o with
  | next t => rfl
  | fault _ => simp [runs, look] at h
  | refused _ => simp [runs, look] at h

/-- An operation that runs names a next state. -/
theorem exists_next {o : Answer} (h : runs o = true) : ∃ t, o = .next t := ⟨_, next_of_runs (s := State.reset) h⟩

theorem demo_valid : demoParams.Valid := by constructor <;> decide

theorem witness_DecodeOfEncode :
    Instr.WellFormed (.writeBits 0xFF#8 15 true) ∧ Instr.WellFormed (.readBits 0) := by decide

theorem witness_EncodeOfDecode :
    decode 0x00FF01F3#32 = .op (.writeBits 0xFF#8 15 true) ∧ decode 0x00FF000D#32 = .op (.targetSearch 0xFF#8) := by decide

theorem witness_DecodeByTheTable :
    (∃ r ∈ opcodeTable, (0x00FF01F3#32 &&& r.mask) = r.value) ∧ ∀ r ∈ opcodeTable, (0x0000001E#32 &&& r.mask) ≠ r.value := by
  decide

theorem witness_MustBeZeroBits :
    (∃ r ∈ opcodeTable, opcField 0x00440104#32 = opcField r.value)
      ∧ ∃ r ∈ opcodeTable, opcField 0x0000000E#32 = opcField r.value := by decide

/-- The last operands in range and the first out of it. -/
theorem witness_AssemblerRule :
    assemble (.writeBits 0xFF 15 true) = some (.regWrite 0x00 4 0x00FF01F3#32)
      ∧ assemble (.writeBits 0x100 0 false) = none ∧ assemble (.writeBits 0xFF 16 false) = none
      ∧ assemble (.writeBit 1) = some (.regWrite 0x00 4 0x00010002#32) ∧ assemble (.writeBit 2) = none
      ∧ assemble (.targetSearch 0x100) = none ∧ assemble (.readBits 15) = some (.regWrite 0x00 4 0x000000F7#32)
      ∧ assemble (.readBits 16) = none
      ∧ assemble (.set .bufAddr 0xFFFFFFFF) = some (.regWrite 0x0C 4 0xFFFFFFFF#32)
      ∧ (2 ^ 32 ≤ 0x100000000 ∧ assemble (.set .bufLen 0x100000000) = none)
      ∧ (RegName.status ≠ .bufAddr ∧ RegName.status ≠ .bufLen) ∧ assemble (.set .status 1) = none := by decide

theorem witness_StepRunsDecodedCommand :
    (hosted [.regWrite 0x00 4 0x0000000C#32]).busy = false
      ∧ (hosted [.regWrite 0x00 4 0x0000000C#32]).host = .regWrite 0x00 4 0x0000000C#32 :: []
      ∧ decode 0x0000000C#32 = .op .resetSearch
      ∧ decodeTableWord 32 0x00FF01F3 = some (.writeBits 0xFF#8 15 true) := by decide

/-- One word for each of R105's reasons. -/
theorem witness_IllegalWordEndsAtOnce :
    opcField 0x00000000#32 = 0x0#4 ∧ opcField 0xFFFFFFFF#32 = 0xF#4
      ∧ (∃ r ∈ opcodeTable, opcField 0x01000004#32 = opcField r.value ∧ (0x01000004#32 &&& r.mask &&& 0xFFFFFFF0#32) ≠ 0#32)
      ∧ (hosted [.regWrite 0x00 4 0#32]).busy = false ∧ (hosted [.regWrite 0x00 4 0#32]).host = .regWrite 0x00 4 0#32 :: [] := by
  decide

theorem witness_IgnoredWrites :
    [0x00, 0x0C, 0x10].all (fun o =>
        ({ hosted [.regWrite o 4 1#32] with busy := true }).busy
          && ({ hosted [.regWrite o 4 1#32] with busy := true }).host == [.regWrite o 4 1#32]) = true
      ∧ [0x04, 0x08, 0x14, 0x20, 0x24, 0x3C].all (fun o =>
        o % 4 == 0 && decide (o < 0x40) && decide (o ≠ 0x00 ∧ o ≠ 0x0C ∧ o ≠ 0x10)
          && (hosted [.regWrite o 4 1#32]).host == [.regWrite o 4 1#32]) = true := by decide

theorem witness_BufferRegistersStore :
    (hosted [.regWrite 0x0C 4 0xFFFFFFFF#32]).busy = false
      ∧ (hosted [.regWrite 0x0C 4 0xFFFFFFFF#32]).host = .regWrite 0x0C 4 0xFFFFFFFF#32 :: []
      ∧ (hosted [.regWrite 0x10 4 0x00010000#32]).host = .regWrite 0x10 4 0x00010000#32 :: [] := by decide

/-- Offset 0x0C reads `ADDR` and 0x10 reads `LEN` (R40, R44, R45), and a bit at `ADDR_W` and above reads 0. -/
theorem test_buffer_registers_read :
    regValue 0x0C (buffered 0xFFFF0100#32 0x8002#16 [] (demo [] [])) = 0xFFFF0100#32
      ∧ regValue 0x10 (buffered 0xFFFF0100#32 0x8002#16 [] (demo [] [])) = 0x00008002#32
      ∧ regValue 0x0C { buffered 0xFFFF0100#32 0#16 [] (demo [] []) with params := { demoParams with addrW := 16 } }
        = 0x00000100#32 := by decide

theorem witness_RegisterReadsHaveNoEffect :
    [0x00, 0x04, 0x20, 0x3C].all (fun o =>
      !(hosted [.regRead o 4]).busy && o % 4 == 0 && decide (o < 0x40) && (hosted [.regRead o 4]).host == [.regRead o 4])
      = true := by decide

/-- A read of the last reserved offset, a state with `BUSY` = 1, and the bits and offsets at the ends of their ranges. -/
theorem witness_RegisterLayouts :
    (0x3C % 4 = 0 ∧ 0x3C < 0x40 ∧ (hosted [.regRead 0x3C 4]).host = .regRead 0x3C 4 :: [])
      ∧ ({ hosted [] with busy := true }).busy = true ∧ (hosted []).busy = false ∧ 0 < 32 ∧ 31 < 32
      ∧ ((0x24 : Nat) = 0x00 ∨ (0x24 ≤ 0x24 ∧ 0x24 < 0x40)) ∧ ((0x3C : Nat) = 0x00 ∨ (0x24 ≤ 0x3C ∧ 0x3C < 0x40)) := by
  decide

theorem witness_RomRegisterLanes : (hosted []).busy = false ∧ 0 < 4 ∧ 3 < 4 := by decide

/-- One access for each reason, and both kinds of access. -/
theorem witness_OtherRegisterAccessRefused :
    (1 ≠ 4 ∨ 0x00 % 4 ≠ 0 ∨ 0x40 ≤ 0x00) ∧ (4 ≠ 4 ∨ 0x3E % 4 ≠ 0 ∨ 0x40 ≤ 0x3E) ∧ (4 ≠ 4 ∨ 0x40 % 4 ≠ 0 ∨ 0x40 ≤ 0x40)
      ∧ (hosted [.regWrite 0x40 4 0#32]).host = .regWrite 0x40 4 0#32 :: []
      ∧ (hosted [.regRead 0x00 1]).host = .regRead 0x00 1 :: [] := by decide

theorem witness_BlockResetState : (hosted [.blockReset]).host = .blockReset :: [] := by decide

theorem witness_GroupTrains :
    demoParams.Valid ∧ (1 ≤ 1 ∧ 1 ≤ 8) ∧ (1 ≤ 8 ∧ 8 ≤ 8)
      ∧ demoParams.timing.tW1h < (listening 74).idleThreshold ∧ demoParams.timing.tW0h < (listening 74).idleThreshold :=
  ⟨demo_valid, by decide⟩

theorem witness_PresenceDecoder : demoParams.Valid ∧ 0 < 30 ∧ 0 < 120 := ⟨demo_valid, by decide⟩

theorem witness_LoopbackRecoversValue :
    demoParams.Valid ∧ (1 ≤ 1 ∧ 1 ≤ 8 ∧ (1#8).toNat < 2 ^ 1) ∧ 1 ≤ 8 ∧ 8 ≤ 8 ∧ (0xFF#8).toNat < 2 ^ 8 :=
  ⟨demo_valid, by decide⟩

theorem witness_BitDecoder :
    (1 ≤ 1 ∧ (lows []).length < 1) ∧ (8 ≤ 8 ∧ 8 ≤ (lows capture91).length)
      ∧ (1 ≤ 1 ∧ 1 ≤ (lows [seg 0 13]).length) := by decide

theorem witness_ResetReportsPresence :
    (demo [.ok] [.capture presence]).drive = false ∧ txNow (demo [.ok] [.capture presence]) = .ok
      ∧ rxNow (usedTx (demo [.ok] [.capture presence])) = .capture presence := by decide

theorem witness_ResetFailureReadsFalse :
    txNow (demo [.err 0] []) = .err 0
      ∧ (txNow (demo [.ok] [.timeout]) = .ok ∧ rxNow (usedTx (demo [.ok] [.timeout])) = .timeout)
      ∧ txNow (demo [.ok] [.err]) = .ok ∧ rxNow (usedTx (demo [.ok] [.err])) = .err := by decide

theorem witness_WriteGroupSends :
    (demo [.ok] []).drive = false ∧ txNow (demo [.ok] []) = .ok ∧ (1 ≤ 1 ∧ 1 ≤ 8) ∧ 1 ≤ 8 ∧ 8 ≤ 8 := by decide

theorem witness_WriteGroupFails :
    (demo [.err 7] []).drive = false ∧ txNow (demo [.err 7] []) = .err 7 ∧ (1 ≤ 1 ∧ 1 ≤ 8) ∧ 1 ≤ 8 ∧ 8 ≤ 8 := by decide

theorem witness_GroupCountRejected : (0 = 0 ∨ 8 < 0) ∧ (9 = 0 ∨ 8 < 9) := by decide

theorem witness_ReadGroupReads :
    (demo [.ok] [.capture capture91]).drive = false ∧ txNow (demo [.ok] [.capture capture91]) = .ok
      ∧ rxNow (usedTx (demo [.ok] [.capture capture91])) = .capture capture91
      ∧ 1 ≤ (lows capture91).length ∧ 8 ≤ (lows capture91).length := by decide

/-- The failing transmit, receive and captures, with each read's instruction and count. -/
theorem witness_ReadGroupFails :
    (Instr.readBits 8 = .readBit ∧ 8 = 1 ∨ Instr.readBits 8 = .readBits 8 ∧ 1 ≤ 8 ∧ 8 ≤ 8 ∨ Instr.readBits 8 = .readByte ∧ 8 = 8)
      ∧ (Instr.readBit = .readBit ∧ 1 = 1) ∧ txNow (demo [.err 3] []) = .err 3
      ∧ (txNow (demo [.ok] [.timeout]) = .ok ∧ rxNow (usedTx (demo [.ok] [.timeout])) = .timeout)
      ∧ (txNow (demo [.ok] [.err]) = .ok ∧ rxNow (usedTx (demo [.ok] [.err])) = .err)
      ∧ rxNow (usedTx (demo [.ok] [.capture [seg 0 2]])) = .capture [seg 0 2]
      ∧ (lows [seg 0 2]).length < 8 ∧ (lows []).length < 1 := by decide

/-- Two bytes that end at the top of the address space. -/
def topBuffer (txs : List TxAnswer) (rxs : List RxAnswer) : State := buffered 0xFFFFFFFE#32 2#16 [] (demo txs rxs)

theorem witness_WriteBytesSendsUntilFailure :
    (topBuffer [.ok, .err 0] []).drive = false
      ∧ bufferA (topBuffer [.ok, .err 0] []) + bufferL (topBuffer [.ok, .err 0] []) ≤ 2 ^ 32
      ∧ (topBuffer [.ok, .err 0] []).params.addrW = 32 := by decide

theorem witness_WriteBytesCompletes :
    (topBuffer [.ok, .ok] []).drive = false
      ∧ bufferA (topBuffer [.ok, .ok] []) + bufferL (topBuffer [.ok, .ok] []) ≤ 2 ^ (topBuffer [.ok, .ok] []).params.addrW
      ∧ (topBuffer [.ok, .ok] []).txAnswers = List.replicate (bufferL (topBuffer [.ok, .ok] [])) .ok ++ [] := by decide

/-- Both bytes read, and a timeout after the first. -/
theorem witness_ReadBytes :
    (topBuffer [.ok, .ok] []).mem.wf = true ∧ (topBuffer [.ok, .ok] []).drive = false
      ∧ bufferA (topBuffer [.ok, .ok] []) + bufferL (topBuffer [.ok, .ok] []) ≤ 2 ^ (topBuffer [.ok, .ok] []).params.addrW
      ∧ [capture91, capture91].length = bufferL (topBuffer [.ok, .ok] [])
      ∧ (∀ c ∈ [capture91, capture91], 8 ≤ (lows c).length)
      ∧ (topBuffer [.ok, .ok] []).txAnswers = List.replicate (bufferL (topBuffer [.ok, .ok] [])) .ok ++ []
      ∧ (topBuffer [.ok, .ok] [.capture capture91, .capture capture91]).rxAnswers
        = [capture91, capture91].map .capture ++ [] := by decide

/-- The second byte's group with each failure: a timeout, a failed receive, a capture of three lows, a failed transmit. -/
theorem witness_ReadBytesStopsAtFailingByte :
    (topBuffer [] []).mem.wf = true ∧ [capture91].length < bufferL (topBuffer [.ok, .ok] [])
      ∧ (∀ c ∈ [capture91], 8 ≤ (lows c).length)
      ∧ bufferA (topBuffer [.ok, .ok] []) + bufferL (topBuffer [.ok, .ok] []) ≤ 2 ^ (topBuffer [.ok, .ok] []).params.addrW
      ∧ (topBuffer [.ok, .ok] []).txAnswers = List.replicate ([capture91].length + 1) .ok ++ []
      ∧ (topBuffer [.ok, .ok] [.capture capture91, .timeout]).rxAnswers = [capture91].map .capture ++ .timeout :: []
      ∧ (topBuffer [.ok, .ok] [.capture capture91, .err]).rxAnswers = [capture91].map .capture ++ .err :: []
      ∧ (lows (pairCapture true true)).length < 8
      ∧ (topBuffer [.ok, .ok] [.capture capture91, .capture (pairCapture true true)]).rxAnswers
        = [capture91].map .capture ++ .capture (pairCapture true true) :: []
      ∧ (topBuffer [.ok, .err 9] []).txAnswers = List.replicate [capture91].length .ok ++ .err 9 :: []
      ∧ (topBuffer [.ok, .err 9] [.capture capture91]).rxAnswers = [capture91].map .capture ++ [] := by
  decide

theorem witness_ZeroLengthCompletes : bufferL (demo [] []) = 0 := by decide

/-- The eight ROM bytes at the top of the address space. -/
def topRom (txs : List TxAnswer) : State := buffered 0xFFFFFFF8#32 0#16 [] (demo txs [])

theorem witness_SelectSendsRom :
    (topRom (List.replicate 9 .ok)).drive = false
      ∧ bufferA (topRom (List.replicate 9 .ok)) + 8 ≤ 2 ^ (topRom (List.replicate 9 .ok)).params.addrW
      ∧ (topRom (List.replicate 9 .ok)).txAnswers = List.replicate 9 .ok ++ [] := by decide

theorem witness_SelectStopsAtFailure :
    bufferA (topRom [.err 5]) + 8 ≤ 2 ^ (topRom [.err 5]).params.addrW
      ∧ (0 < 9 ∧ (topRom [.err 5]).txAnswers = List.replicate 0 .ok ++ .err 5 :: [])
      ∧ 8 < 9 ∧ (topRom (List.replicate 8 .ok ++ [.err 5])).txAnswers = List.replicate 8 .ok ++ .err 5 :: [] := by decide

theorem witness_SkipSendsOneByte : (demo [.ok] []).drive = false ∧ txNow (demo [.ok] []) = .ok := by decide

/-- A buffer of two bytes of which the second has no place. -/
def overTop (txs : List TxAnswer) (rxs : List RxAnswer) : State := buffered 0xFFFFFFFF#32 2#16 [] (demo txs rxs)

theorem witness_RefusedBufferAccessSticks :
    (2 ^ (overTop [] []).params.addrW < bufferA (buffered 0xFFFFFFF9#32 0#16 [] (demo [] [])) + 8)
      ∧ (bufferA (overTop [] []) + 1 = 2 ^ (overTop [] []).params.addrW ∧ 1 < bufferL (overTop [] []))
      ∧ (overTop [.ok] []).txAnswers = List.replicate 1 .ok ++ []
      ∧ bufferA (overTop [] []) + [capture91].length = 2 ^ (overTop [] []).params.addrW
      ∧ [capture91].length < bufferL (overTop [] []) ∧ (∀ c ∈ [capture91], 8 ≤ (lows c).length)
      ∧ (overTop [.ok] [.capture capture91]).rxAnswers = [capture91].map .capture ++ [] := by decide

theorem witness_SearchAfterLastDevice :
    (searching [romC] romC ⟨romC, 0#7, 4#4, true⟩).search.ldf = true := by decide

/-- How a search of these answers ends. -/
def searchEnds (txs : List TxAnswer) (rxs : List RxAnswer) : Option (Bool × BitVec 3) :=
  look (fun t => (t.result, t.err)) (exec .search (demo txs rxs))

/-- A code with family byte 0 (V-S9). -/
def romZ : Vector Byte 8 := #v[0#8, 0x01#8, 0#8, 0#8, 0#8, 0#8, 0#8, 0#8]

/-- The premises; then one search for each clause (R305, with the causes of V-S8, V-S9 and V-S11 to V-S14): a failed transmit
of the reset, of SEARCH ROM and of a direction, a failed receive and a pair of one low are `CHANNEL`, a timeout of the reset
and of a pair `TIMEOUT`, no presence and a (1,1) pair `NONE`; and all 325 calls with family byte 0 and with another. -/
theorem witness_SearchOutcomes :
    ((searching [romC] romC .zero).mem.wf = true ∧ (searching [romC] romC .zero).search.ldf = false
      ∧ bufferA (searching [romC] romC .zero) + 8 ≤ 2 ^ (searching [romC] romC .zero).params.addrW)
      ∧ [searchEnds [.err 5] [], searchEnds [.ok, .err 5] [.capture presence],
          searchEnds [.ok, .ok, .ok, .err 5] [.capture presence, .capture (pairCapture false true)],
          searchEnds [.ok] [.err], searchEnds [.ok, .ok, .ok] [.capture presence, .capture [seg 0 2]],
          searchEnds [.ok] [.timeout], searchEnds [.ok, .ok, .ok] [.capture presence, .timeout],
          searchEnds [.ok] [.capture [seg 0 480]],
          searchEnds [.ok, .ok, .ok] [.capture presence, .capture (pairCapture true true)]]
        = [1#3, 1#3, 1#3, 1#3, 1#3, 2#3, 2#3, 0#3, 0#3].map (fun e => some (false, e))
      ∧ [romZ, romC].map (fun r => look (fun t => (t.result, t.err, t.events.length)) (exec .search (searching [r] r .zero)))
        = [some (false, 0#3, 325), some (true, 0#3, 325)] := by decide +kernel

theorem witness_SearchWithoutPresence :
    (demo [.ok] [.capture [seg 0 480]]).drive = false ∧ (demo [.ok] [.capture [seg 0 480]]).search.ldf = false
      ∧ bufferA (demo [.ok] [.capture [seg 0 480]]) + 8 ≤ 2 ^ (demo [.ok] [.capture [seg 0 480]]).params.addrW
      ∧ txNow (demo [.ok] [.capture [seg 0 480]]) = .ok
      ∧ rxNow (usedTx (demo [.ok] [.capture [seg 0 480]])) = .capture [seg 0 480]
      ∧ decodePresence (demo [.ok] [.capture [seg 0 480]]).params [seg 0 480] = false := by decide

/-- The search of the one device C from a zeroed SearchState (V-S7). -/
def loneSearch : State := searching [romC] romC .zero

/-- Where that search ends. -/
def loneFound : State := after (exec .search loneSearch) loneSearch

theorem loneSearch_runs : exec .search loneSearch = .next loneFound :=
  next_of_runs (by decide +kernel)

theorem witness_SearchTraffic :
    loneSearch.drive = false ∧ exec .search loneSearch = .next loneFound ∧ loneFound.result = true
      ∧ loneSearch.params.Valid :=
  ⟨by decide, loneSearch_runs, by decide +kernel, demo_valid⟩

/-- The search of the one device C whose ROM's last byte has no place. -/
def topSearch : State := { loneSearch with bufAddr := 0xFFFFFFF9#32 }

/-- The walk finds the device, and the search is stuck; on an empty bus it finds none. -/
theorem witness_RefusedBufferAccessSticks_search :
    2 ^ topSearch.params.addrW < bufferA topSearch + 8 ∧ topSearch.search.ldf = false
      ∧ (searchBus (start .search topSearch)).1 = .found
      ∧ faultOf (exec .search topSearch) = some (.bufferNotAdmitted (2 ^ 32))
      ∧ (searchBus (start .search { demo [.ok] [.capture [seg 0 480]] with bufAddr := 0xFFFFFFF9#32 })).1 ≠ .found := by
  decide +kernel

/-- The tree premise at every position, for A from a zeroed SearchState, B after it and C after both (V-S1 to V-S3). -/
theorem followed_paths :
    (∀ p < 65, forksAt [romA, romB, romC] romA p = true → romBit romA p = decide (p = 0))
      ∧ (∀ p < 65, forksAt [romA, romB, romC] romB p = true →
        romBit romB p = if p < 9 then romBit romA p else decide (p = 9))
      ∧ ∀ p < 65, forksAt [romA, romB, romC] romC p = true →
        romBit romC p = if p < 4 then romBit romB p else decide (p = 4) := by decide +kernel

/-- The answers a search is given. -/
theorem searching_answers (ds : List (Vector Byte 8)) (rom : Vector Byte 8) (x : SearchState) :
    (searching ds rom x).txAnswers = List.replicate 130 .ok ++ [] ∧ (searching ds rom x).rxAnswers = searchAnswers ds rom ++ [] := by
  unfold searching demo
  exact ⟨(List.append_nil _).symm, (List.append_nil _).symm⟩

/-- The search for B after A was found (V-S2). -/
def secondSearch : State := searching [romA, romB, romC] romB ⟨romA, 9#7, 4#4, false⟩

/-- Its answers are those the tree gives, and both kinds of premise are in play. -/
theorem witness_SearchFollowsTheTree :
    (secondSearch.mem.wf = true ∧ secondSearch.search.ldf = false ∧ bufferA secondSearch + 8 ≤ 2 ^ secondSearch.params.addrW
      ∧ romB ∈ [romA, romB, romC] ∧ (∀ d ∈ [romA, romB, romC], romByte d 0 ≠ 0x00#8)
      ∧ decodePresence secondSearch.params presence = true
      ∧ (∀ a b, decodeBits secondSearch.params (pairCapture a b) 2 = .ok (packBits [a, b])))
      ∧ (∀ p, 1 ≤ p → p ≤ 64 → forksAt [romA, romB, romC] romB p = true →
        romBit romB p = if p < secondSearch.search.ld.toNat then romBit secondSearch.search.romNo p
          else decide (p = secondSearch.search.ld.toNat))
      ∧ secondSearch.txAnswers = List.replicate 130 .ok ++ []
      ∧ secondSearch.rxAnswers = searchAnswers [romA, romB, romC] romB ++ [] := by
  refine ⟨⟨by decide, by decide, by decide, .tail _ (.head _),
    by simp only [List.forall_mem_cons]; exact ⟨by decide, by decide, by decide, nofun⟩, by decide, by decide⟩,
    fun p _ h => followed_paths.2.1 p (by omega), ?_, ?_⟩
  · exact (searching_answers _ _ _).1
  · exact (searching_answers _ _ _).2

/-- The reference bus with the one device C. -/
def loneBus : RefBus := RefBus.attach [⟨romC, .inactive, [], 0⟩] loneSearch

/-- The search after the last device, from where the first ended. -/
def lastSearch : State := { demo [] [] with search := loneFound.search }

/-- Where that search ends. -/
def lastFound : State := after (exec .search lastSearch) lastSearch

theorem lastSearch_runs : exec .search lastSearch = .next lastFound :=
  next_of_runs (by decide +kernel)

theorem vectors_valid : BusTiming.vectors.Valid demoParams ∧ BusTiming.vectors.tD0 < demoParams.timing.tSlot := by
  refine ⟨⟨by decide, ?_, by decide⟩, by decide⟩
  decide

theorem loneSearch_onBus :
    (busRun demoParams .vectors loneBus (newEvents loneSearch loneFound)).isSome = true := by decide +kernel

theorem lastSearch_onBus :
    (busRun demoParams .vectors loneBus (newEvents lastSearch lastFound)).isSome = true := by decide +kernel

/-- Two searches of a bus with one device: both are runs of the reference bus. -/
theorem witness_RepeatedSearchEnumerates :
    demoParams.Valid ∧ BusTiming.vectors.Valid demoParams ∧ BusTiming.vectors.tD0 < demoParams.timing.tSlot
      ∧ [romC].Pairwise (fun x y => romKey x < romKey y) ∧ (∀ x ∈ [romC], romByte x 0 ≠ 0x00#8)
      ∧ loneSearch.search = SearchState.zero ∧ lastSearch.search = loneFound.search
      ∧ (loneSearch.params = demoParams ∧ loneSearch.mem.wf = true ∧ (loneBus.devices.map Device.rom).Perm [romC]
        ∧ exec .search loneSearch = .next loneFound
        ∧ ∃ b, busRun demoParams .vectors loneBus (newEvents loneSearch loneFound) = some b)
      ∧ lastSearch.params = demoParams ∧ lastSearch.mem.wf = true ∧ exec .search lastSearch = .next lastFound
        ∧ ∃ b, busRun demoParams .vectors loneBus (newEvents lastSearch lastFound) = some b :=
  ⟨demo_valid, vectors_valid.1, vectors_valid.2, by decide,
    by simp only [List.forall_mem_cons]; exact ⟨by decide, nofun⟩, by decide, by simp only [lastSearch],
    ⟨rfl, by decide, List.Perm.refl _, loneSearch_runs, Option.isSome_iff_exists.mp loneSearch_onBus⟩,
    rfl, rfl, lastSearch_runs, Option.isSome_iff_exists.mp lastSearch_onBus⟩

/-- The empty bus (V-S8). -/
def emptySearch : State := demo [.ok] [.capture [seg 0 480]]

theorem witness_RepeatedSearch_empty :
    emptySearch.search = SearchState.zero ∧ (∃ t, exec .search emptySearch = .next t)
      ∧ ∃ b, busRun demoParams .vectors (RefBus.attach [] emptySearch)
        (newEvents emptySearch (after (exec .search emptySearch) emptySearch)) = some b :=
  ⟨by decide, exists_next (by decide +kernel), Option.isSome_iff_exists.mp (by decide +kernel)⟩

/-- The search of the one device C after `TARGET_SEARCH 0x28`. -/
def seededSearch : State := searching [romC] romC (targetSeed 0x28#8)

theorem witness_TargetedSearchFindsFamily :
    (∃ s₁, exec (.targetSearch 0x28#8) (demo [] []) = .next s₁ ∧ seededSearch.search = s₁.search)
      ∧ seededSearch.params = demoParams ∧ loneBus.devices ≠ [] ∧ (∀ d ∈ loneBus.devices, romByte d.rom 0 ≠ 0x00#8)
      ∧ (∃ t, exec .search seededSearch = .next t)
      ∧ (∃ b, busRun demoParams .vectors loneBus
          (newEvents seededSearch (after (exec .search seededSearch) seededSearch)) = some b)
      ∧ ∃ d ∈ loneBus.devices, romByte d.rom 0 = 0x28#8 :=
  ⟨⟨_, rfl, rfl⟩, rfl, by decide, by decide, exists_next (by decide +kernel),
    Option.isSome_iff_exists.mp (by decide +kernel), by decide⟩

/-- Locals at position `p` with a pair read. -/
def localsAt (p : Nat) (a b dir : Bool) : SearchLocals :=
  ⟨p, 0, a, b, dir, (p - 1) / 8, 1#8 <<< ((p - 1) % 8)⟩

/-- Agreement, then a discrepancy below, at and above `LD` = 9. -/
theorem witness_DirectionRule :
    (localsAt 1 true false false).idBit ≠ (localsAt 1 true false false).cmpIdBit
      ∧ (localsAt 8 false false false).idBitNumber < (⟨romA, 9#7, 4#4, false⟩ : SearchState).ld.toNat
      ∧ (localsAt 9 false false false).idBitNumber = (⟨romA, 9#7, 4#4, false⟩ : SearchState).ld.toNat
      ∧ (⟨romA, 9#7, 4#4, false⟩ : SearchState).ld.toNat < (localsAt 10 false false false).idBitNumber
      ∧ (localsAt 8 false false false).idBit = (localsAt 8 false false false).cmpIdBit := by decide

/-- A zero branch at positions 8 and 9, a one branch, and no discrepancy. -/
theorem witness_ZeroBranchRecorded :
    ((localsAt 8 false false false).idBit = (localsAt 8 false false false).cmpIdBit
        ∧ (localsAt 8 false false false).direction = false ∧ (localsAt 8 false false false).idBitNumber < 9)
      ∧ 9 ≤ (localsAt 9 false false false).idBitNumber ∧ (localsAt 9 false false true).direction = true
      ∧ (localsAt 9 false true false).idBit ≠ (localsAt 9 false true false).cmpIdBit := by decide

theorem witness_PairNamesPosition :
    [1, 8, 9, 64].all (fun p =>
      decide (1 ≤ (localsAt p true false true).idBitNumber) && decide ((localsAt p true false true).idBitNumber ≤ 64)
        && (localsAt p true false true).romByteNumber == ((localsAt p true false true).idBitNumber - 1) / 8
        && (localsAt p true false true).romByteMask == 1#8 <<< (((localsAt p true false true).idBitNumber - 1) % 8)) = true := by
  decide

/-- Every operation of `WritesFrame` and `WritesNeverReceive` has a next state. -/
theorem witness_WritesFrame :
    [Instr.writeBit true, .writeBits 0x05#8 3 true, .writeByte 0xA5#8, .writeBytes true, .select, .skip, .resetSearch,
      .targetSearch 0x28#8].all (fun i => runs (exec i (topRom (List.replicate 9 .ok)))) = true
      ∧ runs (exec .reset (demo [.ok] [.capture presence])) = true := by decide

/-- Every operation of `ReadsFrame`, and `READ_BYTES`, has a next state. -/
theorem witness_ReadsFrame :
    [Instr.readBit, .readBits 2, .readByte].all (fun i => runs (exec i (demo [.ok] [.capture capture91]))) = true
      ∧ runs (exec .readBytes (topBuffer [.ok, .ok] [.capture capture91, .timeout])) = true := by decide

/-- A search that finds, one that does not, and the two state operations. -/
theorem witness_SearchFrame :
    runs (exec .search loneSearch) = true ∧ runs (exec .search emptySearch) = true
      ∧ (after (exec .search emptySearch) emptySearch).result = false
      ∧ [Instr.resetSearch, .targetSearch 0x00#8].all (fun i => runs (exec i (demo [] []))) = true := by decide +kernel

theorem witness_SearchStateWriters :
    ∃ t, exec (.targetSearch 0x28#8) (demo [] []) = .next t ∧ t.search ≠ (demo [] []).search :=
  ⟨_, rfl, by decide⟩

/-- A state that meets the invariant and steps. -/
theorem witness_StepKeepsInvariant :
    (hosted [.regWrite 0x00 4 0x0028000D#32]).Inv ∧ runs (step (hosted [.regWrite 0x00 4 0x0028000D#32])) = true :=
  ⟨by constructor <;> decide, by decide⟩

/-- A step that puts a slot on the line. -/
theorem witness_HistoryOnlyGrows :
    ∃ t, step { demo [.ok] [] with host := [.regWrite 0x00 4 0x00010002#32] } = .next t ∧ t.events.length = 1 :=
  ⟨_, next_of_runs (s := State.reset) (by decide), by decide⟩

/-- A powered write with a train in its history. -/
theorem witness_BurstsFitAndPowerIsAskedFor :
    (demo [.ok] []).drive = false ∧ ∃ t, exec (.writeBits 0x44#8 8 true) (demo [.ok] []) = .next t
      ∧ Event.transmit (bitsTrain demoParams 0x44#8 8) true .ok ∈ t.events :=
  ⟨by decide, _, rfl, by decide⟩

/-- One end of each kind, by its code. -/
theorem witness_ErrorKindsPerOperation :
    look (fun t => (t.result, t.err)) (exec .skip (demo [.ok] [])) = some (true, 0#3)
      ∧ look (fun t => (t.result, t.err)) (exec .reset (demo [.ok] [.capture [seg 0 480]])) = some (false, 0#3)
      ∧ look (fun t => (t.result, t.err)) (exec .skip (demo [.err 0] [])) = some (false, 1#3)
      ∧ look (fun t => (t.result, t.err)) (exec .readByte (demo [.ok] [.timeout])) = some (false, 2#3)
      ∧ look (fun t => (t.result, t.err)) (exec (.readBits 9) (demo [] [])) = some (false, 3#3) := by decide

end Sys2Proof.Tests
end

section
/-! PROOFS. The state: what every operation leaves behind, the invariant of every step, the registers the Host sees, and
the state after construction (spec 10_state.md). -/

namespace Sys2Proof.Machine

/-! ### How every operation ends -/

/-- A state an operation ended in: through `complete` (60_exceptions.md R336) or through `raise` (R335). -/
def EndState (t : State) : Prop := (∃ r m, t = complete r m) ∨ ∃ k m, t = raise k m

theorem complete_endState (r : Bool) (m : State) : EndState (complete r m) := .inl ⟨r, m, rfl⟩

theorem raise_endState (k : ErrKind) (m : State) : EndState (raise k m) := .inr ⟨k, m, rfl⟩

theorem errCode_le (k : ErrKind) : (errCode k).toNat ≤ 4 := by cases k <;> decide

theorem EndState.err_le {t : State} (h : EndState t) : t.err.toNat ≤ 4 := by
  rcases h with ⟨r, m, rfl⟩ | ⟨k, m, rfl⟩
  · rw [complete_err]; decide
  · exact errCode_le k

theorem EndState.err_of_result {t : State} (h : EndState t) (hr : t.result = true) : t.err = errNone := by
  rcases h with ⟨r, m, rfl⟩ | ⟨k, m, rfl⟩
  · rfl
  · cases hr

theorem EndState.ended {t : State} (h : EndState t) : Ended t.result t.err t := by
  rcases h with ⟨r, m, rfl⟩ | ⟨k, m, rfl⟩
  · exact complete_ended r m
  · exact raise_ended k m

theorem endWrite_endState (r : Res Unit × State) : EndState (endWrite r) := by
  rcases endWrite_cases r with ⟨-, e⟩ | ⟨k, -, e⟩ <;> rw [e]
  · exact complete_endState _ _
  · exact raise_endState _ _

theorem endRead_endState (r : Res Byte × State) : EndState (endRead r) := by
  rcases endRead_cases r with ⟨v, -, e⟩ | ⟨k, -, e⟩ <;> rw [e]
  · exact complete_endState _ _
  · exact raise_endState _ _

theorem endPresence_endState (r : Res Bool × State) : EndState (endPresence r) := by
  rcases endPresence_cases r with ⟨b, -, e⟩ | ⟨k, -, e⟩ <;> rw [e]
  · exact complete_endState _ _
  · exact raise_endState _ _

theorem endSearch_endState (r : SearchEnd × State) : EndState (endSearch r) := by
  obtain ⟨_ | _ | k, m⟩ := r
  · exact complete_endState _ _
  · exact complete_endState _ _
  · exact raise_endState _ _

theorem writeBytesLoop_endState {pwr : Bool} {k : Nat} {s t : State} (h : writeBytesLoop pwr k s = .next t) :
    EndState t := by
  induction k generalizing s with
  | zero => cases h; exact complete_endState _ _
  | succ k ih =>
    simp only [writeBytesLoop] at h
    split at h
    · split at h
      · exact ih h
      · cases h; exact raise_endState _ _
    · cases h

theorem readBytesLoop_endState {k : Nat} {s t : State} (h : readBytesLoop k s = .next t) : EndState t := by
  induction k generalizing s with
  | zero => cases h; exact complete_endState _ _
  | succ k ih =>
    simp only [readBytesLoop] at h
    split at h <;> split at h
    · exact ih h
    · cases h
    · cases h; exact raise_endState _ _
    · cases h

theorem execSelect_endState {s t : State} (h : execSelect s = .next t) : EndState t := by
  simp only [execSelect] at h
  split at h
  · cases h; exact endWrite_endState _
  · cases h

theorem execSearch_endState {s t : State} (h : execSearch s = .next t) : EndState t := by
  rcases execSearch_cases h with ⟨-, rfl⟩ | ⟨-, rfl, -⟩
  · exact complete_endState _ _
  · exact endSearch_endState _

/-- Every operation that answers a next state ends through `complete` or `raise`: there is no third way (R334). -/
theorem exec_endState {i : Instr} {s t : State} (h : exec i s = .next t) : EndState t := by
  cases i with
  | reset => cases h; exact endPresence_endState _
  | writeBit v => cases h; exact endWrite_endState _
  | writeBits d n pwr => cases h; exact endWrite_endState _
  | writeByte d => cases h; exact endWrite_endState _
  | writeBytes pwr => exact writeBytesLoop_endState h
  | readBit => cases h; exact endRead_endState _
  | readBits n => cases h; exact endRead_endState _
  | readByte => cases h; exact endRead_endState _
  | readBytes => exact readBytesLoop_endState h
  | select => exact execSelect_endState h
  | skip => cases h; exact endWrite_endState _
  | resetSearch => cases h; exact complete_endState _ _
  | targetSearch f => cases h; exact complete_endState _ _
  | search => exact execSearch_endState h

/-! ### The SearchState -/

/-- An operation that is none of the three search operations keeps the SearchState (10_state.md R32). -/
theorem exec_search_same {i : Instr} {s t : State} (h : exec i s = .next t) :
    (i = .search ∨ i = .resetSearch ∨ ∃ f, i = .targetSearch f) ∨ t.search = s.search := by
  cases i with
  | reset => exact .inr (execReset_quiet h).search
  | writeBit v => exact .inr (execWriteBit_quiet h).search
  | writeBits d n pwr => exact .inr (execWriteBits_quiet h).search
  | writeByte d => exact .inr (execWriteByte_quiet h).search
  | writeBytes pwr => exact .inr (execWriteBytes_quiet h).search
  | readBit => exact .inr (execReadBit_ran h).search
  | readBits n => exact .inr (execReadBits_ran h).search
  | readByte => exact .inr (execReadByte_ran h).search
  | readBytes => exact .inr (execReadBytes_ran h).1.search
  | select => exact .inr (execSelect_quiet h).search
  | skip => exact .inr (execSkip_quiet h).search
  | resetSearch => exact .inl (.inr (.inl rfl))
  | targetSearch f => exact .inl (.inr (.inr ⟨f, rfl⟩))
  | search => exact .inl (.inl rfl)

/-- `LD` in [0,64] and `LFD` in [0,8] (R36). -/
def SearchState.Bounded (x : SearchState) : Prop := x.ld.toNat ≤ 64 ∧ x.lfd.toNat ≤ 8

theorem SearchState.zero_bounded : SearchState.zero.Bounded := by constructor <;> decide

theorem targetSeed_bounded (f : Byte) : (targetSeed f).Bounded := ⟨Nat.le_refl 64, Nat.zero_le 8⟩

theorem searchClear_bounded (s : State) : (searchClear s).search.Bounded := ⟨Nat.zero_le 64, Nat.zero_le 8⟩

@[simp] theorem memWriteList_search (a : Nat) (bs : List Byte) (s : State) :
    (memWriteList a bs s).search = s.search := by rw [memWriteList_eq]

@[simp] theorem memWriteList_params (a : Nat) (bs : List Byte) (s : State) :
    (memWriteList a bs s).params = s.params := by rw [memWriteList_eq]

/-- A search leaves bounds: those of the walk when it finds a device, zeros on the failure path (43_search.md R302). -/
theorem execSearch_bounded {s t : State} (h : execSearch s = .next t) (hs : s.search.Bounded) : t.search.Bounded := by
  rcases execSearch_cases h with ⟨-, rfl⟩ | ⟨hf, rfl, -⟩
  · exact hs
  · rcases e : searchBus (start .search s) with ⟨r, u⟩
    cases r with
    | found =>
      obtain ⟨hld, hlfd, -⟩ := searchBus_found e hf
      simp only [endSearch, complete_search, memWriteList_search]
      exact ⟨hld, hlfd hs.2⟩
    | notFound => exact searchClear_bounded u
    | failed k => exact searchClear_bounded u

/-- Every operation keeps `LD` and `LFD` in their ranges. -/
theorem exec_bounded {i : Instr} {s t : State} (h : exec i s = .next t) (hs : s.search.Bounded) :
    t.search.Bounded := by
  rcases exec_search_same h with (rfl | rfl | ⟨f, rfl⟩) | e
  · exact execSearch_bounded h hs
  · cases h; exact SearchState.zero_bounded
  · cases h; exact targetSeed_bounded f
  · exact e ▸ hs

/-! ### The memory's form -/

/-- The memory is in canonical form, inside the address space. -/
def State.MemOk (s : State) : Prop := s.mem.wf = true ∧ s.mem.below s.params.addrW = true

theorem State.MemOk.of_eq {s t : State} (hs : s.MemOk) (hm : t.mem = s.mem) (hp : t.params = s.params) : t.MemOk := by
  rw [State.MemOk, hm, hp]; exact hs

theorem State.MemOk.memWrite {s : State} (hs : s.MemOk) {a : Nat} (ha : a < 2 ^ s.params.addrW) (v : Byte) :
    (memWrite a v s).MemOk := ⟨write_wf hs.1 a v, write_below hs.2 ha v⟩

theorem State.MemOk.memWriteList {s : State} (hs : s.MemOk) (bs : List Byte) {a : Nat}
    (ha : a + bs.length ≤ 2 ^ s.params.addrW) : (memWriteList a bs s).MemOk :=
  ⟨memWriteList_wf bs a s hs.1, by rw [memWriteList_params]; exact memWriteList_below bs a _ s hs.2 ha⟩

/-- The eight bytes a found ROM is stored in are admitted, so a search keeps the memory's form. -/
theorem execSearch_memOk {s t : State} (h : execSearch s = .next t) (hs : s.MemOk) : t.MemOk := by
  rcases execSearch_cases h with ⟨-, rfl⟩ | ⟨-, rfl, ha⟩
  · exact hs
  · have w := searchBus_walk (start .search s)
    rcases e : searchBus (start .search s) with ⟨r, u⟩
    rw [e] at w ha
    have hu : u.MemOk := hs.of_eq w.mem w.params
    cases r with
    | found =>
      have hA : operandA u = bufferA s := by rw [operandA, w.snap]; rfl
      refine State.MemOk.memWriteList hu u.search.romNo.toList ?_
      rw [hA, w.params, Vector.length_toList]
      exact ha rfl
    | notFound => exact hu
    | failed k => exact hu

/-- Every operation keeps the memory's form. -/
theorem exec_memOk {i : Instr} {s t : State} (h : exec i s = .next t) (hs : s.MemOk) : t.MemOk := by
  have hp := (exec_ran h).host.params
  cases i with
  | reset => exact hs.of_eq (execReset_quiet h).mem hp
  | writeBit v => exact hs.of_eq (execWriteBit_quiet h).mem hp
  | writeBits d n pwr => exact hs.of_eq (execWriteBits_quiet h).mem hp
  | writeByte d => exact hs.of_eq (execWriteByte_quiet h).mem hp
  | writeBytes pwr => exact hs.of_eq (execWriteBytes_quiet h).mem hp
  | readBit => exact hs.of_eq (execReadBit_ran h).mem hp
  | readBits n => exact hs.of_eq (execReadBits_ran h).mem hp
  | readByte => exact hs.of_eq (execReadByte_ran h).mem hp
  | readBytes =>
    have l := (execReadBytes_ran h).1
    exact ⟨l.wf hs.1, by rw [hp]; exact l.below hs.2⟩
  | select => exact hs.of_eq (execSelect_quiet h).mem hp
  | skip => exact hs.of_eq (execSkip_quiet h).mem hp
  | resetSearch => cases h; exact hs
  | targetSearch f => cases h; exact hs
  | search => exact execSearch_memOk h hs

/-! ### The invariant -/

/-- An operation's end meets the invariant when what outlives the operation does. -/
theorem EndState.inv {t : State} (h : EndState t) (hx : t.search.Bounded)
    (ha : t.bufAddr.toNat < 2 ^ t.params.addrW) (hm : t.MemOk) : t.Inv where
  idle := ⟨h.ended.busy, h.ended.seq⟩
  drive := h.ended.drive
  ld := hx.1
  lfd := hx.2
  err := h.err_le
  result := h.err_of_result
  bufAddr := ha
  mem := hm

theorem State.Inv.bounded {s : State} (hs : s.Inv) : s.search.Bounded := ⟨hs.ld, hs.lfd⟩

theorem State.Inv.memOk {s : State} (hs : s.Inv) : s.MemOk := hs.mem

/-- The invariant does not speak of the Host's accesses, nor of the record of its reads. -/
theorem State.Inv.hostSide {s : State} (hs : s.Inv) (h : List HostAccess) (r : List HostRead) :
    State.Inv { s with host := h, hostReads := r } :=
  ⟨hs.idle, hs.drive, hs.ld, hs.lfd, hs.err, hs.result, hs.bufAddr, hs.mem⟩

theorem exec_inv {i : Instr} {s t : State} (h : exec i s = .next t) (hs : s.Inv) : t.Inv := by
  have hh := (exec_ran h).host
  refine (exec_endState h).inv (exec_bounded h hs.bounded) ?_ (exec_memOk h hs.memOk)
  rw [hh.bufAddr, hh.params]
  exact hs.bufAddr

theorem runCommand_inv {w : Word} {s t : State} (h : runCommand w s = .next t) (hs : s.Inv) : t.Inv := by
  rcases runCommand_cases h with ⟨-, rfl⟩ | ⟨-, ⟨i, -, he⟩ | ⟨-, rfl⟩⟩
  · exact hs
  · exact exec_inv he hs
  · exact (raise_endState _ _).inv hs.bounded hs.bufAddr hs.memOk

theorem maskAddr_toNat_lt (p : Params) (v : Word) : (maskAddr p v).toNat < 2 ^ p.addrW := by
  rw [maskAddr, BitVec.toNat_ofNat]
  exact (Nat.mod_le _ _).trans_lt (Nat.mod_lt _ (Nat.two_pow_pos _))

theorem setBufAddr_inv (v : Word) {s : State} (hs : s.Inv) : (setBufAddr v s).Inv := by
  rw [setBufAddr_idle v s hs.idle.1]
  exact ⟨hs.idle, hs.drive, hs.ld, hs.lfd, hs.err, hs.result, maskAddr_toNat_lt s.params v, hs.mem⟩

theorem setBufLen_inv (v : Word) {s : State} (hs : s.Inv) : (setBufLen v s).Inv := by
  rw [setBufLen_idle v s hs.idle.1]
  exact ⟨hs.idle, hs.drive, hs.ld, hs.lfd, hs.err, hs.result, hs.bufAddr, hs.mem⟩

theorem regRead_inv (offset : Nat) {s : State} (hs : s.Inv) : (regRead offset s).Inv := by
  rw [regRead_idle offset hs.idle.1]
  exact hs.hostSide s.host _

theorem memWrite_inv {a : Nat} (v : Byte) {s : State} (hs : s.Inv) (ha : a < 2 ^ s.params.addrW) :
    (memWrite a v s).Inv :=
  ⟨hs.idle, hs.drive, hs.ld, hs.lfd, hs.err, hs.result, hs.bufAddr, hs.memOk.memWrite ha v⟩

theorem construct_inv (p : Params) : (State.construct p).Inv where
  idle := ⟨rfl, rfl⟩
  drive := rfl
  ld := SearchState.zero_bounded.1
  lfd := SearchState.zero_bounded.2
  err := Nat.zero_le 4
  result := fun h => by cases h
  bufAddr := Nat.two_pow_pos _
  mem := ⟨rfl, rfl⟩

/-- Block reset puts the block at its construction values and keeps the Host's memory (70_reset_and_hazards.md R370). -/
theorem blockReset_inv {s : State} (hs : s.Inv) : (blockReset s).Inv :=
  have c := construct_inv s.params
  ⟨c.idle, c.drive, c.ld, c.lfd, c.err, c.result, c.bufAddr, hs.mem⟩

/-- Settles O57, by the Host's next access: a command keeps the invariant because its operation ends through `complete`
or `raise` (`exec_endState`), keeps `LD` and `LFD` in range and stores only at admitted addresses. -/
theorem stepKeepsInvariant : Obligations.StepKeepsInvariant := by
  intro s t hs h
  rcases step_cases h with ⟨-, rfl⟩ | ⟨a, rest, -, hc⟩
  · exact hs
  · have hr : State.Inv { s with host := rest } := hs.hostSide rest s.hostReads
    rcases hc with ⟨v, -, hc⟩ | ⟨v, -, rfl⟩ | ⟨v, -, rfl⟩ | ⟨offset, v, -, rfl⟩ | ⟨offset, -, rfl⟩
      | ⟨addr, v, -, ha, rfl⟩ | ⟨addr, -, rfl⟩ | ⟨-, rfl⟩
    · exact runCommand_inv hc hr
    · exact setBufAddr_inv v hr
    · exact setBufLen_inv v hr
    · exact hr
    · exact regRead_inv offset hr
    · exact memWrite_inv v hr ha
    · exact hs.hostSide rest _
    · exact blockReset_inv hr

/-- Settles O56: every field has its reset value, whatever the table. -/
theorem constructionMeetsInvariant : Obligations.ConstructionMeetsInvariant := construct_inv

/-- Settles O55, by `exec_search_same`. -/
theorem searchStateWriters : Obligations.SearchStateWriters := by
  intro s t i h hne
  exact (exec_search_same h).resolve_right hne

end Sys2Proof.Machine
end

section
/-! PROOFS. The registers the Host sees (spec 10_state.md R40 to R51), and the state after construction (R58). -/

namespace Sys2Proof.Machine

/-! ### Register words, bit by bit -/

theorem boolBit_getLsbD (b : Bool) {j : Nat} (hj : j < 32) : (boolBit b).getLsbD j = (decide (j = 0) && b) := by
  rw [boolBit, BitVec.getLsbD_setWidth, BitVec.getLsbD_ofBool, decide_eq_true hj, Bool.true_and]

/-- `STATUS` (R42). -/
theorem statusWord_getLsbD (s : State) {j : Nat} (hj : j < 32) : (statusWord s).getLsbD j
    = (if j = 0 then s.busy else if j = 1 then s.result else decide (j < 5) && s.err.getLsbD (j - 2)) := by
  have hresult : j - 1 < 32 := by omega
  simp only [statusWord, BitVec.getLsbD_or, BitVec.getLsbD_shiftLeft, BitVec.getLsbD_setWidth, boolBit_getLsbD _ hj,
    boolBit_getLsbD _ hresult]
  obtain rfl | rfl | h | h : j = 0 ∨ j = 1 ∨ (2 ≤ j ∧ j < 5) ∨ 5 ≤ j := by omega
  · simp
  · simp
  · have : ¬ j < 2 := by omega
    have : j ≠ 0 ∧ j ≠ 1 ∧ j - 1 ≠ 0 ∧ j - 2 < 32 := by omega
    simp [*]
  · have : j ≠ 0 ∧ j ≠ 1 ∧ j - 1 ≠ 0 ∧ ¬ j < 5 := by omega
    simp [*, BitVec.getLsbD_of_ge s.err (j - 2) (by omega)]

/-- `BUF_ADDR` (R44). -/
theorem bufAddrWord_getLsbD (s : State) {j : Nat} (hj : j < 32) :
    (bufAddrWord s).getLsbD j = (decide (j < s.params.addrW) && s.bufAddr.getLsbD j) := maskAddr_getLsbD _ _ hj

/-- A narrower field in the low bits of a register word. -/
theorem field_getLsbD {n : Nat} (v : BitVec n) {j : Nat} (hj : j < 32) :
    (v.setWidth 32).getLsbD j = (decide (j < n) && v.getLsbD j) := by
  rw [BitVec.getLsbD_setWidth, decide_eq_true hj, Bool.true_and]
  by_cases h : j < n
  · simp [h]
  · simp [h, BitVec.getLsbD_of_ge v j (by omega)]

/-- The length a register read shows is the operand the operations take (R45, R57). -/
theorem bufLenWord_toNat (s : State) : (bufLenWord s).toNat = bufferL s := BitVec.toNat_setWidth_of_le (by decide)

/-- `SSTATE` (R46). -/
theorem sstateWord_getLsbD (s : State) {j : Nat} (hj : j < 32) : (sstateWord s).getLsbD j
    = (if j < 7 then s.search.ld.getLsbD j
      else if 8 ≤ j ∧ j < 12 then s.search.lfd.getLsbD (j - 8) else decide (j = 16) && s.search.ldf) := by
  have hlfd : j - 8 < 32 := by omega
  have hldf : j - 16 < 32 := by omega
  simp only [sstateWord, BitVec.getLsbD_or, BitVec.getLsbD_shiftLeft, field_getLsbD _ hj, field_getLsbD _ hlfd,
    boolBit_getLsbD _ hldf]
  obtain h | h | h | h | h : j < 7 ∨ j = 7 ∨ (8 ≤ j ∧ j < 12) ∨ (12 ≤ j ∧ j < 16) ∨ 16 ≤ j := by omega
  · have : j < 8 ∧ j < 16 := by omega
    simp [*]
  · subst h; simp
  · have : ¬ j < 7 ∧ ¬ j < 8 ∧ j < 16 ∧ j - 8 < 4 ∧ j ≠ 16 := by omega
    simp [*]
  · have : ¬ j < 7 ∧ ¬ j < 12 ∧ j < 16 ∧ ¬ j - 8 < 4 ∧ j ≠ 16 := by omega
    simp [*]
  · have : ¬ j < 7 ∧ ¬ j < 12 ∧ ¬ j < 16 ∧ ¬ j - 8 < 4 ∧ (j - 16 = 0 ↔ j = 16) := by omega
    simp [*]

theorem whenIdle_idle {s : State} (h : s.busy = false) (v : Word) : whenIdle s v = v := by simp [whenIdle, h]

/-- `CMD` and the reserved offsets read 0 (R41, R51). -/
theorem regValue_reserved {offset : Nat} (h : offset = 0x00 ∨ (0x24 ≤ offset ∧ offset < 0x40)) (s : State) :
    regValue offset s = 0#32 := by
  unfold regValue
  split <;> try omega
  rfl

/-- Byte lane `j` of a word made of four bytes (20_memory.md R82). -/
theorem lane_of_bytes (b0 b1 b2 b3 : Byte) {j : Nat} (hj : j < 4) :
    (b3 ++ b2 ++ b1 ++ b0).extractLsb' (8 * j) 8 = [b0, b1, b2, b3].getD j 0x00#8 := by
  interval_cases j
  · exact BitVec.extractLsb'_append_eq_right
  · rw [BitVec.extractLsb'_append_eq_of_le (by decide)]
    exact BitVec.extractLsb'_append_eq_right
  · rw [BitVec.extractLsb'_append_eq_of_le (by decide), BitVec.extractLsb'_append_eq_of_le (by decide)]
    exact BitVec.extractLsb'_append_eq_right
  · rw [BitVec.extractLsb'_append_eq_of_le (by decide), BitVec.extractLsb'_append_eq_of_le (by decide),
      BitVec.extractLsb'_append_eq_of_le (by decide)]
    exact BitVec.extractLsb'_eq_self

theorem regValue_rdata {s : State} (h : s.busy = false) : regValue 0x08 s = rdataWord s := whenIdle_idle h _

theorem regValue_sstate {s : State} (h : s.busy = false) : regValue 0x14 s = sstateWord s := whenIdle_idle h _

theorem regValue_line {s : State} (h : s.busy = false) : regValue 0x20 s = lineWord s := whenIdle_idle h _

theorem regValue_romLo {s : State} (h : s.busy = false) : regValue 0x18 s = romLoWord s := whenIdle_idle h _

theorem regValue_romHi {s : State} (h : s.busy = false) : regValue 0x1C s = romHiWord s := whenIdle_idle h _

theorem romByte_getElem (rom : Vector Byte 8) {k : Nat} (hk : k < 8) : romByte rom k = rom[k] := by
  simp [romByte, hk]

/-- `ROM_LO` holds `ROM_NO[0..3]` (10_state.md R47). -/
theorem romLoWord_lane (s : State) {j : Nat} (hj : j < 4) :
    (romLoWord s).extractLsb' (8 * j) 8 = romByte s.search.romNo j := by
  rw [romLoWord, lane_of_bytes _ _ _ _ hj, romByte_getElem _ (by omega)]
  interval_cases j <;> rfl

/-- `ROM_HI` holds `ROM_NO[4..7]` (R48). -/
theorem romHiWord_lane (s : State) {j : Nat} (hj : j < 4) :
    (romHiWord s).extractLsb' (8 * j) 8 = romByte s.search.romNo (4 + j) := by
  rw [romHiWord, lane_of_bytes _ _ _ _ hj, romByte_getElem _ (by omega)]
  interval_cases j <;> rfl

/-! ### The registers of a constructed controller -/

@[simp] theorem whenIdle_construct (p : Params) (v : Word) : whenIdle (State.construct p) v = v := whenIdle_idle rfl v

/-- Every offset reads 0 after construction, whatever the table. -/
theorem regValue_construct (offset : Nat) (p : Params) : regValue offset (State.construct p) = 0#32 := by
  unfold regValue
  split
  · simp [statusWord, boolBit]
  · simp [rdataWord]
  · simp [bufAddrWord, maskAddr]
  · simp [bufLenWord]
  · simp [sstateWord, SearchState.zero, boolBit]
  · simp [romLoWord, SearchState.zero]
  · simp [romHiWord, SearchState.zero]
  · simp [lineWord, boolBit]
  · rfl

theorem romByte_zero {k : Nat} (hk : k < 8) : romByte SearchState.zero.romNo k = 0x00#8 := by
  interval_cases k <;> rfl

/-! ### Writes and reads of the Host -/

/-- A register other than `CMD`, `BUF_ADDR` and `BUF_LEN` ignores a write (R40, R51). -/
theorem regWrite_other {offset : Nat} (hcmd : offset ≠ 0x00) (haddr : offset ≠ 0x0C) (hlen : offset ≠ 0x10) (v : Word)
    (s : State) : regWrite offset v s = .next s := by
  unfold regWrite
  split
  · contradiction
  · contradiction
  · contradiction
  · rfl

/-- `CMD`, `BUF_ADDR` and `BUF_LEN` ignore a write while an operation runs (R41, R44, R45). -/
theorem regWrite_busy {s : State} (hb : s.busy = true) {offset : Nat}
    (ho : offset = 0x00 ∨ offset = 0x0C ∨ offset = 0x10) (v : Word) : regWrite offset v s = .next s := by
  rcases ho with rfl | rfl | rfl
  · exact runCommand_busy hb v
  · rw [regWrite_bufAddr, setBufAddr, if_pos hb]
  · rw [regWrite_bufLen, setBufLen, if_pos hb]

/-- A register write at an offset of the register space, as a step. -/
theorem step_regWrite {s : State} {rest : List HostAccess} {offset : Nat} {v : Word}
    (h : s.host = .regWrite offset 4 v :: rest) (ho : offset % 4 = 0) (ho' : offset < 0x40) :
    step s = regWrite offset v { s with host := rest } := by
  rw [step_access h, hostAccess_write ho ho']

/-- A register read at an offset of the register space, as a step. -/
theorem step_regRead {s : State} {rest : List HostAccess} {offset : Nat} (h : s.host = .regRead offset 4 :: rest)
    (ho : offset % 4 = 0) (ho' : offset < 0x40) : step s = .next (regRead offset { s with host := rest }) := by
  rw [step_access h, hostAccess_read ho ho']

@[simp] theorem regRead_hostReads (offset : Nat) (s : State) :
    (regRead offset s).hostReads = s.hostReads ++ [.reg offset (regValue offset s)] := by
  unfold regRead
  split <;> rfl

/-! ### The obligations about registers -/

/-- Settles O9: `regWrite_busy` while an operation runs, `regWrite_other` at any time. -/
theorem ignoredWrites : Obligations.IgnoredWrites := by
  intro s rest offset v h
  refine ⟨fun hb ho => ?_, fun hal hlt hcmd haddr hlen => ?_⟩
  · rw [step_regWrite h (by omega) (by omega)]
    exact regWrite_busy (s := { s with host := rest }) hb ho v
  · rw [step_regWrite h hal hlt]
    exact regWrite_other hcmd haddr hlen v _

/-- Settles O10: the registers keep the masked word, and masking again when it is read changes no bit. -/
theorem bufferRegistersStore : Obligations.BufferRegistersStore := by
  intro s rest v hb
  refine ⟨fun h => ⟨{ s with host := rest, bufAddr := maskAddr s.params v }, ?_, rfl, fun j hj => ?_, rfl⟩,
    fun h => ⟨{ s with host := rest, bufLen := v.setWidth 16 }, ?_, rfl, fun j hj => ?_, (bufLenWord_toNat _).symm⟩⟩
  · rw [step_regWrite h (by decide) (by decide), regWrite_bufAddr, setBufAddr_idle v { s with host := rest } hb]
  · refine (bufAddrWord_getLsbD _ hj).trans ?_
    rw [maskAddr_getLsbD _ _ hj, ← Bool.and_assoc, Bool.and_self]
  · rw [step_regWrite h (by decide) (by decide), regWrite_bufLen, setBufLen_idle v { s with host := rest } hb]
  · refine (field_getLsbD _ hj).trans ?_
    rw [BitVec.getLsbD_setWidth, ← Bool.and_assoc, Bool.and_self]

/-- Settles O11: an idle read appends to the record of reads, on which no register depends. -/
theorem registerReadsHaveNoEffect : Obligations.RegisterReadsHaveNoEffect := by
  intro s rest offset hb hal hlt h
  have hread := regRead_idle offset (s := { s with host := rest }) hb
  rw [regValue_hostSide offset s rest s.hostReads] at hread
  refine ⟨_, step_regRead h hal hlt, hread, ?_⟩
  rw [hread]
  exact regValue_hostSide offset s rest _

/-- Settles O12, register by register. -/
theorem registerLayouts : Obligations.RegisterLayouts := by
  intro s
  refine ⟨fun rest offset hal hlt h => ⟨_, step_regRead h hal hlt, ?_⟩, fun j hj => statusWord_getLsbD s hj,
    fun j hj => ⟨bufAddrWord_getLsbD s hj, field_getLsbD s.bufLen hj⟩, fun offset ho => regValue_reserved ho s,
    fun hb j hj => ⟨?_, ?_, ?_⟩⟩
  · show (regRead offset _).hostReads = _
    rw [regRead_hostReads, regValue_hostSide offset s rest s.hostReads]
  · rw [regValue_rdata hb]; exact field_getLsbD s.rdata hj
  · rw [regValue_sstate hb]; exact sstateWord_getLsbD s hj
  · rw [regValue_line hb]; exact boolBit_getLsbD s.drive hj

/-- Settles O13, by the lanes of a word of four bytes. -/
theorem romRegisterLanes : Obligations.RomRegisterLanes := by
  intro s j hb hj
  rw [regValue_romLo hb, regValue_romHi hb]
  exact ⟨romLoWord_lane s hj, romHiWord_lane s hj⟩

/-- Settles O15: each field by definition, and the register words of zero fields are 0. -/
theorem constructionState : Obligations.ConstructionState := fun p =>
  ⟨fun _ hk => romByte_zero hk, rfl, rfl, rfl, rfl, rfl, rfl, rfl, rfl, rfl, rfl, rfl,
    fun offset => regValue_construct offset p⟩

end Sys2Proof.Machine
end

section
/-! PROOFS. The search locals (spec 10_state.md R54) and what an operation puts on the line (R50, R55). -/

namespace Sys2Proof.Machine

/-- Settles O49: the pair moves on with the position (`advance_pair`), and its mask selects and sets one bit. -/
theorem pairNamesPosition : Obligations.PairNamesPosition := by
  intro l x h1 h64 hk hm
  obtain ⟨hpos, hbyte, hmask⟩ := advance_pair l h1 hk hm
  exact ⟨hpos, hbyte, hmask, masked_romBit x.romNo l hk hm,
    fun q hq _ => set_bit x.romNo l l.direction h1 h64 hk hm q hq⟩

/-- Only `WRITE_BITS` and `WRITE_BYTES` with the power flag ask for strong pull (10_state.md R50). -/
theorem powered_cases {i : Instr} (h : powered i = true) : (∃ d n, i = .writeBits d n true) ∨ i = .writeBytes true := by
  cases i with
  | writeBits d n pwr => cases h; exact .inl ⟨d, n, rfl⟩
  | writeBytes pwr => cases h; exact .inr rfl
  | _ => cases h

/-- Settles O59: the events an operation adds are those `Ran` admits. -/
theorem burstsFitAndPowerIsAskedFor : Obligations.BurstsFitAndPowerIsAskedFor := by
  intro s t i hd h
  have hran := exec_ran h
  obtain ⟨es, he, hok⟩ := hran.history
  refine ⟨es, he, hran.threshold es he, fun train drive a hmem => ?_⟩
  obtain ⟨hfits, hpower⟩ : EventOk (powered i) (.transmit train drive a) := hok hd _ hmem
  exact ⟨hfits, fun hdrive => powered_cases (hpower hdrive)⟩

end Sys2Proof.Machine
end

section
/-! PROOFS. The address spaces (spec 20_memory.md): register accesses the block refuses (R72), buffer accesses past the
top of the address space (R76, R77), and what no step takes back (R91). -/

namespace Sys2Proof.Machine

/-! ### Refused register accesses -/

/-- A register access that is not a whole aligned word inside the register space is none the block gives a meaning. -/
theorem accessOk_eq_false {offset size : Nat} (h : size ≠ 4 ∨ offset % 4 ≠ 0 ∨ 0x40 ≤ offset) :
    accessOk offset size = false := by
  rw [← Bool.not_eq_true, accessOk, Bool.and_eq_true, Bool.and_eq_true, decide_eq_true_eq, decide_eq_true_eq,
    decide_eq_true_eq]
  omega

theorem hostAccess_write_refused {offset size : Nat} (h : accessOk offset size = false) (v : Word) (s : State) :
    hostAccess (.regWrite offset size v) s = .refused (.registerAccess offset size) := by simp [hostAccess, h]

theorem hostAccess_read_refused {offset size : Nat} (h : accessOk offset size = false) (s : State) :
    hostAccess (.regRead offset size) s = .refused (.registerAccess offset size) := by simp [hostAccess, h]

/-- Settles O14: `accessOk` fails for each of the three reasons, and the access is refused before it has any effect. -/
theorem otherRegisterAccessRefused : Obligations.OtherRegisterAccessRefused := by
  intro s rest offset size v h
  have hno := accessOk_eq_false h
  refine ⟨fun hw => ?_, fun hr => ?_⟩
  · rw [step_access hw, hostAccess_write_refused hno]
  · rw [step_access hr, hostAccess_read_refused hno]

/-! ### Buffer accesses past the top of the address space -/

/-- The address operand exists, so a range from it that leaves the address space is refused first at the top. -/
theorem firstRefused_start (i : Instr) (s : State) : firstRefused (start i s) (bufferA s) = 2 ^ s.params.addrW :=
  max_eq_right (bufferA_lt s).le

/-- A loop over the buffer begins at its first byte (10_state.md R39). -/
theorem start_index (i : Instr) (s : State) : (start i s).seq.index = 0 := rfl

theorem admitted_top {s : State} {a : Nat} (h : a = 2 ^ s.params.addrW) : admitted s a = false := by
  rw [← Bool.not_eq_true, admitted_iff]; omega

/-- An operation's eight buffer addresses are not all admitted when the last of them is past the top. -/
theorem rangeAdmitted_start (i : Instr) {s : State} (h : 2 ^ s.params.addrW < bufferA s + 8) :
    rangeAdmitted (start i s) (bufferA s) romBytes = false := by
  rw [← Bool.not_eq_true, rangeAdmitted_iff]; exact Nat.not_le.2 h

/-- `SELECT` makes no transmit when one of its eight bytes has no place (42_rom_commands.md R260). -/
theorem execSelect_refused {s : State} (h : 2 ^ s.params.addrW < bufferA s + 8) :
    execSelect s = .fault (.bufferNotAdmitted (2 ^ s.params.addrW)) := by
  simp [execSelect, rangeAdmitted_start .select h, firstRefused_start]

/-- The loop of `WRITE_BYTES` is stuck where its next byte is at the top. -/
theorem writeBytesLoop_refused {s : State} (h : operandA s + s.seq.index = 2 ^ s.params.addrW) (pwr : Bool) (k : Nat) :
    writeBytesLoop pwr (k + 1) s = .fault (.bufferNotAdmitted (2 ^ s.params.addrW)) := by
  simp [writeBytesLoop, h, admitted_top]

/-- The loop of `READ_BYTES` is stuck where its next byte is at the top, whether the group that reads that byte succeeds
or fails: both store a value there (41_bit_byte_ops.md R208, R250). -/
theorem readBytesLoop_refused {s : State} (h : operandA s + s.seq.index = 2 ^ s.params.addrW) (k : Nat) :
    readBytesLoop (k + 1) s = .fault (.bufferNotAdmitted (2 ^ s.params.addrW)) := by
  have hb := readP_busRun 8 s
  rcases hr : readP 8 s with ⟨r, u⟩
  rw [hr] at hb
  have hu : operandA u + u.seq.index = 2 ^ s.params.addrW := by rw [operandA, hb.snap, hb.index]; exact h
  have ha : admitted u (2 ^ s.params.addrW) = false := admitted_top (by rw [hb.params])
  cases r with
  | ok v => simp [readBytesLoop, hr, hu, ha]
  | fail e => simp [readBytesLoop, hr, hu, ha]

/-- `WRITE_BYTES` whose first `k` groups succeed is stuck at byte `k` when that byte is at the top. -/
theorem execWriteBytes_refused {pwr : Bool} {s : State} {k : Nat} {rest : List TxAnswer}
    (htop : bufferA s + k = 2 ^ s.params.addrW) (hk : k < bufferL s) (hx : s.txAnswers = List.replicate k .ok ++ rest) :
    execWriteBytes pwr s = .fault (.bufferNotAdmitted (2 ^ s.params.addrW)) := by
  obtain ⟨r, hr⟩ : ∃ r, bufferL s = k + (r + 1) := ⟨bufferL s - k - 1, by omega⟩
  obtain ⟨u, hloop, -, hA, hI, hp, -⟩ := writeBytesLoop_ok pwr k (start (.writeBytes pwr) s) rest htop.le hx (r + 1)
  have hu : operandA u + u.seq.index = 2 ^ u.params.addrW := by
    rw [hA, hI, hp, operandA_start, start_index, Nat.zero_add, htop, start_params]
  rw [execWriteBytes, operandL_start, hr, hloop, writeBytesLoop_refused hu, hp, start_params]

/-- `READ_BYTES` whose first groups read the captures `caps` is stuck at the next byte when that byte is at the top. -/
theorem execReadBytes_refused {s : State} {caps : List Capture} {txs : List TxAnswer} {rxs : List RxAnswer}
    (htop : bufferA s + caps.length = 2 ^ s.params.addrW) (hl : caps.length < bufferL s)
    (hc : ∀ c ∈ caps, 8 ≤ (lows c).length) (hx : s.txAnswers = List.replicate caps.length .ok ++ txs)
    (hr : s.rxAnswers = caps.map .capture ++ rxs) :
    execReadBytes s = .fault (.bufferNotAdmitted (2 ^ s.params.addrW)) := by
  obtain ⟨r, hL⟩ : ∃ r, bufferL s = caps.length + (r + 1) := ⟨bufferL s - caps.length - 1, by omega⟩
  obtain ⟨u, hloop, -, -, hA, hI, hp, -⟩ :=
    readBytesLoop_ok caps (start .readBytes s) txs rxs (r + 1) htop.le hc hx hr
  have hu : operandA u + u.seq.index = 2 ^ u.params.addrW := by
    rw [hA, hI, hp, operandA_start, start_index, Nat.zero_add, htop, start_params]
  rw [execReadBytes, operandL_start, hL, hloop, readBytesLoop_refused hu, hp, start_params]

/-- A search that finds a device whose ROM has no place is stuck (43_search.md R303). -/
theorem execSearch_refused {s : State} (h : 2 ^ s.params.addrW < bufferA s + 8) (hl : s.search.ldf = false)
    (hf : (searchBus (start .search s)).1 = .found) :
    execSearch s = .fault (.bufferNotAdmitted (2 ^ s.params.addrW)) := by
  rcases e : searchBus (start .search s) with ⟨r, u⟩
  obtain rfl : r = .found := by rw [e] at hf; exact hf
  simp [execSearch, hl, rangeAdmitted_start .search h, e, firstRefused_start]

/-- A search after the last device completes at once (R290). -/
theorem execSearch_lastDevice {s : State} (hl : s.search.ldf = true) :
    execSearch s = .next (complete false (start .search s)) := by simp [execSearch, hl]

/-- A search that finds no device needs no buffer: it ends as its walk did (R302). -/
theorem execSearch_notFound {s : State} (hl : s.search.ldf = false) (hf : (searchBus (start .search s)).1 ≠ .found) :
    execSearch s = .next (endSearch (searchBus (start .search s))) := by
  rcases e : searchBus (start .search s) with ⟨r, u⟩
  rw [e] at hf
  cases r with
  | found => exact absurd rfl hf
  | notFound => simp [execSearch, hl, e]
  | failed k => simp [execSearch, hl, e]

/-- A search that finds no device completes with `RESULT` = 0 and stores nothing, wherever its buffer is (R290,
R302). -/
theorem execSearch_storesNothing {s : State}
    (h : s.search.ldf = true ∨ (searchBus (start .search s)).1 ≠ .found) :
    Completes (execSearch s) fun t => t.result = false ∧ t.mem = s.mem := by
  cases hl : s.search.ldf with
  | true => exact ⟨_, execSearch_lastDevice hl, rfl, rfl⟩
  | false =>
    have hf := h.resolve_left (by simp [hl])
    refine ⟨_, execSearch_notFound hl hf, ?_, ?_⟩
    · rw [← Bool.not_eq_true, endSearch_result]; exact hf
    · rw [endSearch_mem hf, (searchBus_walk _).mem, start_mem]

/-- Settles O37, operation by operation: each loop reaches the top with its earlier groups done, and is stuck there. -/
theorem refusedBufferAccessSticks : Obligations.RefusedBufferAccessSticks := fun _ =>
  ⟨execSelect_refused, fun _ _ _ => execWriteBytes_refused, fun _ _ _ => execReadBytes_refused,
    execSearch_refused, fun _ => execSearch_storesNothing⟩

/-! ### What no step takes back -/

/-- The parameters are as they were, and the history has only grown. -/
def HistoryGrows (s t : State) : Prop := t.params = s.params ∧ ∃ es, t.events = s.events ++ es

theorem HistoryGrows.of_eq {s t : State} (hp : t.params = s.params) (he : t.events = s.events) : HistoryGrows s t :=
  ⟨hp, [], by rw [he, List.append_nil]⟩

theorem exec_historyGrows {i : Instr} {s t : State} (h : exec i s = .next t) : HistoryGrows s t := by
  have hran := exec_ran h
  obtain ⟨es, he, -⟩ := hran.history
  exact ⟨hran.host.params, es, he⟩

/-- A command makes the calls of its operation, or none. -/
theorem runCommand_historyGrows {w : Word} {s t : State} (h : runCommand w s = .next t) : HistoryGrows s t := by
  rcases runCommand_cases h with ⟨-, rfl⟩ | ⟨-, ⟨i, -, he⟩ | ⟨-, rfl⟩⟩
  · exact .of_eq rfl rfl
  · exact exec_historyGrows he
  · exact .of_eq rfl rfl

theorem setBufAddr_historyGrows (v : Word) (s : State) : HistoryGrows s (setBufAddr v s) := by
  unfold setBufAddr
  split <;> exact .of_eq rfl rfl

theorem setBufLen_historyGrows (v : Word) (s : State) : HistoryGrows s (setBufLen v s) := by
  unfold setBufLen
  split <;> exact .of_eq rfl rfl

theorem regRead_historyGrows (offset : Nat) (s : State) : HistoryGrows s (regRead offset s) := by
  unfold regRead
  split <;> exact .of_eq rfl rfl

/-- Only a command reaches the channel; block reset keeps what was put on the line (70_reset_and_hazards.md R371). -/
theorem step_historyGrows {s t : State} (h : step s = .next t) : HistoryGrows s t := by
  rcases step_cases h with ⟨-, rfl⟩ | ⟨a, rest, -, hc⟩
  · exact .of_eq rfl rfl
  · rcases hc with ⟨v, -, hc⟩ | ⟨v, -, rfl⟩ | ⟨v, -, rfl⟩ | ⟨offset, v, -, rfl⟩ | ⟨offset, -, rfl⟩
      | ⟨addr, v, -, -, rfl⟩ | ⟨addr, -, rfl⟩ | ⟨-, rfl⟩
    · exact (runCommand_historyGrows hc : HistoryGrows { s with host := rest } t)
    · exact setBufAddr_historyGrows v { s with host := rest }
    · exact setBufLen_historyGrows v { s with host := rest }
    · exact .of_eq rfl rfl
    · exact regRead_historyGrows offset { s with host := rest }
    · exact .of_eq rfl rfl
    · exact .of_eq rfl rfl
    · exact .of_eq rfl rfl

/-- What two runs of calls put on the line comes one after the other. -/
theorem lineHistory_append (es fs : List Event) : lineHistory (es ++ fs) = lineHistory es ++ lineHistory fs :=
  List.flatMap_append

/-- Settles O58: the history a step leaves begins with the one it found, and so does what the line carried. -/
theorem historyOnlyGrows : Obligations.HistoryOnlyGrows := by
  intro s t h
  obtain ⟨hp, es, he⟩ := step_historyGrows h
  exact ⟨hp, es, he, by rw [he, lineHistory_append]⟩

end Sys2Proof.Machine
end

section
/-! PROOFS. The decoder and the encoder (spec 30_encoding.md part A): a command word and its operation determine each
other, and the table's row of a word's `OPC` decides what it decodes to. -/

namespace Sys2Proof

/-! ### The row of an operation, and the row of a word -/

/-- The command word of every operation carries its opcode and matches a row of that opcode. -/
theorem encode_matchesTable (i : Instr) : Laws.MatchesTable.Statement i := by
  cases i with
  | reset => exact Laws.MatchesTable.reset
  | writeBit v => exact Laws.MatchesTable.writeBit v
  | writeBits d n pwr => exact Laws.MatchesTable.writeBits d n pwr
  | writeByte d => exact Laws.MatchesTable.writeByte d
  | writeBytes pwr => exact Laws.MatchesTable.writeBytes pwr
  | readBit => exact Laws.MatchesTable.readBit
  | readBits n => exact Laws.MatchesTable.readBits n
  | readByte => exact Laws.MatchesTable.readByte
  | readBytes => exact Laws.MatchesTable.readBytes
  | select => exact Laws.MatchesTable.select
  | skip => exact Laws.MatchesTable.skip
  | resetSearch => exact Laws.MatchesTable.resetSearch
  | targetSearch f => exact Laws.MatchesTable.targetSearch f
  | search => exact Laws.MatchesTable.search

theorem opcField_encode (i : Instr) : opcField (encode i) = opcode i := (encode_matchesTable i).1

/-- A row is named by its `OPC`. -/
theorem row_eq_of_opcField {r r' : Row} (hr : r ∈ opcodeTable) (hr' : r' ∈ opcodeTable)
    (h : opcField r.value = opcField r'.value) : r = r' := by
  refine vals_inj hr hr' ?_
  rw [← table_small r hr, ← table_small r' hr']
  exact opc_inj.1 h

/-- A word that matches a row has that row's `OPC`. -/
theorem opcField_of_match {w : Word} {r : Row} (hr : r ∈ opcodeTable) (h : (w &&& r.mask) = r.value) :
    opcField w = opcField r.value := opc_inj.2 (and_low h (table_low r hr))

/-- A word with a row's `OPC` decodes exactly when it matches that row. -/
theorem decode_op_iff {w : Word} {r : Row} (hr : r ∈ opcodeTable) (ho : opcField w = opcField r.value) :
    (∃ i, decode w = .op i) ↔ (w &&& r.mask) = r.value := by
  refine ⟨fun ⟨i, hi⟩ => ?_, fun h => ⟨r.op w, row_found hr h⟩⟩
  obtain ⟨r', hr', hm, -⟩ := decode_some hi
  obtain rfl : r' = r := row_eq_of_opcField hr' hr ((opcField_of_match hr' hm).symm.trans ho)
  exact hm

/-- The row at place `k` decodes the command word of an operation that has its opcode. -/
theorem decode_encode_of_row {i : Instr} (k : Nat) (hk : k < opcodeTable.length)
    (ho : opcField opcodeTable[k].value = opcode i) (hop : opcodeTable[k].op (encode i) = i) :
    decode (encode i) = .op i := by
  have hr := List.getElem_mem hk
  obtain ⟨-, r, hr', hm, hv⟩ := encode_matchesTable i
  obtain rfl : r = opcodeTable[k] := row_eq_of_opcField hr' hr (hv.trans ho.symm)
  rw [row_found hr hm, hop]

/-! ### The operand fields of a command word (R103) -/

theorem bitField_writeBit (v : Bool) : bitField (encode (.writeBit v)) = v := by cases v <;> rfl

theorem powerField_writeBytes (pwr : Bool) : powerField (encode (.writeBytes pwr)) = pwr := by cases pwr <;> rfl

theorem powerField_writeBits (d : Byte) (n : Nat) (pwr : Bool) : powerField (encode (.writeBits d n pwr)) = pwr := by
  simp [powerField, encode]

theorem imm8Field_writeBits (d : Byte) (n : Nat) (pwr : Bool) : imm8Field (encode (.writeBits d n pwr)) = d := by
  apply BitVec.eq_of_getLsbD_eq
  intro j hj
  interval_cases j <;> simp [imm8Field, encode]

theorem imm8Field_writeByte (d : Byte) : imm8Field (encode (.writeByte d)) = d := by
  apply BitVec.eq_of_getLsbD_eq
  intro j hj
  interval_cases j <;> simp [imm8Field, encode]

theorem imm8Field_targetSearch (f : Byte) : imm8Field (encode (.targetSearch f)) = f := by
  apply BitVec.eq_of_getLsbD_eq
  intro j hj
  interval_cases j <;> simp [imm8Field, encode]

/-- A count below 16 is read back from the nibble that holds it. -/
theorem countField_of_nibble {w : Word} {n : Nat} (hn : n < 16) (h : w.extractLsb' 4 4 = BitVec.ofNat 4 n) :
    countField w = n := by
  rw [countField, h, BitVec.toNat_ofNat]
  exact Nat.mod_eq_of_lt hn

theorem countField_writeBits (d : Byte) {n : Nat} (hn : n < 16) (pwr : Bool) :
    countField (encode (.writeBits d n pwr)) = n := by
  refine countField_of_nibble hn (BitVec.eq_of_getLsbD_eq fun j hj => ?_)
  interval_cases j <;> simp [encode]

theorem countField_readBits {n : Nat} (hn : n < 16) : countField (encode (.readBits n)) = n := by
  refine countField_of_nibble hn (BitVec.eq_of_getLsbD_eq fun j hj => ?_)
  interval_cases j <;> simp [encode]

/-- Settles O2: the row of the operation's opcode is the one that decodes its word, and it reads every operand back from
its field. -/
theorem decodeOfEncode : Obligations.DecodeOfEncode := by
  intro i hi
  cases i with
  | reset => exact decode_encode_of_row 0 (by decide) rfl rfl
  | writeBit v => exact decode_encode_of_row 1 (by decide) rfl (congrArg Instr.writeBit (bitField_writeBit v))
  | writeBits d n pwr =>
    have hn : n < 16 := of_decide_eq_true hi
    refine decode_encode_of_row 2 (by decide) rfl ?_
    show Instr.writeBits (imm8Field _) (countField _) (powerField _) = _
    rw [imm8Field_writeBits, countField_writeBits d hn, powerField_writeBits]
  | writeByte d => exact decode_encode_of_row 3 (by decide) rfl (congrArg Instr.writeByte (imm8Field_writeByte d))
  | writeBytes pwr =>
    exact decode_encode_of_row 4 (by decide) rfl (congrArg Instr.writeBytes (powerField_writeBytes pwr))
  | readBit => exact decode_encode_of_row 5 (by decide) rfl rfl
  | readBits n =>
    have hn : n < 16 := of_decide_eq_true hi
    exact decode_encode_of_row 6 (by decide) rfl (congrArg Instr.readBits (countField_readBits hn))
  | readByte => exact decode_encode_of_row 7 (by decide) rfl rfl
  | readBytes => exact decode_encode_of_row 8 (by decide) rfl rfl
  | select => exact decode_encode_of_row 9 (by decide) rfl rfl
  | skip => exact decode_encode_of_row 10 (by decide) rfl rfl
  | resetSearch => exact decode_encode_of_row 11 (by decide) rfl rfl
  | targetSearch f =>
    exact decode_encode_of_row 12 (by decide) rfl (congrArg Instr.targetSearch (imm8Field_targetSearch f))
  | search => exact decode_encode_of_row 13 (by decide) rfl rfl

/-! ### The word of a decoded operation -/

theorem countField_lt (w : Word) : countField w < 16 := BitVec.isLt _

/-- A field read from a word and put back where it was keeps the word's bits there. -/
theorem extract_inPlace (w : Word) (lo n : Nat) (h : lo + n ≤ 32) :
    (w.extractLsb' lo n).setWidth 32 <<< lo = w &&& ((BitVec.allOnes n).setWidth 32 <<< lo) := by
  apply BitVec.eq_of_getLsbD_eq
  intro j hj
  by_cases hlo : j < lo
  · simp [hlo]
  · have : j - lo < 32 := by omega
    have : lo + (j - lo) = j := by omega
    simp [*, Bool.and_comm]

theorem ofBool_getLsbD (w : Word) (k : Nat) : BitVec.ofBool (w.getLsbD k) = w.extractLsb' k 1 := by
  apply BitVec.eq_of_getLsbD_eq
  intro j hj
  obtain rfl : j = 0 := by omega
  simp

theorem imm8Field_inPlace (w : Word) : (imm8Field w).setWidth 32 <<< 16 = w &&& 0x00FF0000#32 :=
  extract_inPlace w 16 8 (by decide)

theorem countField_inPlace (w : Word) :
    (BitVec.ofNat 4 (countField w)).setWidth 32 <<< 4 = w &&& 0x000000F0#32 := by
  rw [countField, BitVec.ofNat_toNat, BitVec.setWidth_eq]
  exact extract_inPlace w 4 4 (by decide)

theorem powerField_inPlace (w : Word) :
    (BitVec.ofBool (powerField w)).setWidth 32 <<< 8 = w &&& 0x00000100#32 := by
  rw [powerField, ofBool_getLsbD]
  exact extract_inPlace w 8 1 (by decide)

theorem bitField_inPlace (w : Word) : (BitVec.ofBool (bitField w)).setWidth 32 <<< 16 = w &&& 0x00010000#32 := by
  rw [bitField, ofBool_getLsbD]
  exact extract_inPlace w 16 1 (by decide)

/-- What encoding writes for the operation a row reads from a word: the word's own bits where the row's mask is 0 (the
operand fields), and the row's match value. -/
theorem encode_rowOp (w : Word) : ∀ r ∈ opcodeTable, encode (r.op w) = (w &&& ~~~r.mask) ||| r.value := by
  simp [opcodeTable, encode, imm8Field_inPlace, countField_inPlace, powerField_inPlace, bitField_inPlace,
    ← BitVec.and_or_distrib_left]

theorem rowOp_wellFormed (w : Word) : ∀ r ∈ opcodeTable, (r.op w).WellFormed := by
  simp [opcodeTable, Instr.WellFormed, Instr.wellFormed, countField_lt]

/-- Settles O3: the bits under the row's mask are the match value, and encoding copies the others (`encode_rowOp`). -/
theorem encodeOfDecode : Obligations.EncodeOfDecode := by
  intro w i h
  obtain ⟨r, hr, hm, rfl⟩ := decode_some h
  refine ⟨rowOp_wellFormed w r hr, ?_⟩
  calc encode (r.op w) = (w &&& ~~~r.mask) ||| (w &&& r.mask) := by rw [encode_rowOp w r hr, hm]
    _ = w := by rw [← BitVec.and_or_distrib_left, BitVec.or_comm, BitVec.or_not_self, BitVec.and_allOnes]

/-! ### The table -/

/-- Settles O4: `row_found`, `illegal_of` and `rows_disjoint`. -/
theorem decodeByTheTable : Obligations.DecodeByTheTable :=
  ⟨fun _ _ => row_found, fun w h => ⟨illegalReason w, illegal_of h⟩, rows_disjoint⟩

/-- Every `OPC` from 0x1 to 0xE has a row. -/
theorem exists_row_of_opc : ∀ o : BitVec 4, 1 ≤ o.toNat → o.toNat ≤ 14 → ∃ r ∈ opcodeTable, o = opcField r.value := by
  decide

/-- Settles O5: only the row of the word's `OPC` can match it, and given the `OPC` its test is that of the must-be-zero
bits. -/
theorem mustBeZeroBits : Obligations.MustBeZeroBits := by
  intro w
  refine ⟨exists_row_of_opc (opcField w), fun r hr ho => ⟨?_, row_test hr ho⟩⟩
  rw [row_test hr ho]
  exact ⟨fun h => (decode_op_iff hr ho).1 ⟨_, h⟩, row_found hr⟩

/-- No row has the reserved `OPC` 0x0 or 0xF. -/
theorem table_opc : ∀ r ∈ opcodeTable, opcField r.value ≠ 0x0#4 ∧ opcField r.value ≠ 0xF#4 := by decide

/-- The two reasons of R105: a word with either matches no row. -/
theorem decode_illegal_of_reason {w : Word} (h : opcField w = 0x0#4 ∨ opcField w = 0xF#4
    ∨ ∃ r ∈ opcodeTable, opcField w = opcField r.value ∧ (w &&& r.mask &&& 0xFFFFFFF0#32) ≠ 0#32) :
    ∃ why, decode w = .illegal why := by
  cases hd : decode w with
  | illegal why => exact ⟨why, rfl⟩
  | op i =>
    obtain ⟨r', hr', hm, -⟩ := decode_some hd
    have ho := opcField_of_match hr' hm
    obtain ⟨h0, hF⟩ := table_opc r' hr'
    rcases h with h | h | ⟨r, hr, hw, hz⟩
    · exact absurd (ho.symm.trans h) h0
    · exact absurd (ho.symm.trans h) hF
    · exact absurd ((row_test hr hw).2 ((decode_op_iff hr hw).1 ⟨i, hd⟩)) hz

/-- Settles O1: the decoder run on each word. -/
theorem sampleWordsDecode : Obligations.SampleWordsDecode := by
  unfold Obligations.SampleWordsDecode
  decide

end Sys2Proof
end

section
/-! PROOFS. Command words on their way to the block: the assembler (spec 30_encoding.md R110, R111), and what the step
does with a word written to `CMD` (R105, R108). -/

namespace Sys2Proof.Machine

/-! ### The assembler -/

theorem wordIf_true {c : Bool} (h : c = true) {n : Nat} {w : Word} (hw : BitVec.ofNat 32 n = w) :
    wordIf c n = some (.regWrite 0x00 4 w) := by rw [wordIf, if_pos h, hw]

theorem wordIf_false {c : Bool} (h : ¬ c = true) (n : Nat) : wordIf c n = none := if_neg h

/-- A field an assembler shifts into place as a number is the field shifted as a word. -/
theorem ofNat_shift {n : Nat} (v : BitVec n) (k : Nat) :
    BitVec.ofNat 32 (v.toNat <<< k) = v.setWidth 32 <<< k := by
  apply BitVec.eq_of_toNat_eq
  simp [Nat.shiftLeft_eq]

theorem assemble_writeBit (v : Bool) :
    assemble (.writeBit v.toNat) = some (.regWrite 0x00 4 (encode (.writeBit v))) := by cases v <;> rfl

theorem assemble_writeBytes (pwr : Bool) :
    assemble (.writeBytes pwr) = some (.regWrite 0x00 4 (encode (.writeBytes pwr))) := by cases pwr <;> rfl

theorem byte_le (d : Byte) : decide (d.toNat ≤ 0xFF) = true := decide_eq_true (Nat.le_of_lt_succ d.isLt)

theorem assemble_writeByte (d : Byte) :
    assemble (.writeByte d.toNat) = some (.regWrite 0x00 4 (encode (.writeByte d))) :=
  wordIf_true (byte_le d) (by rw [BitVec.ofNat_or, ofNat_shift]; rfl)

theorem assemble_targetSearch (f : Byte) :
    assemble (.targetSearch f.toNat) = some (.regWrite 0x00 4 (encode (.targetSearch f))) :=
  wordIf_true (byte_le f) (by rw [BitVec.ofNat_or, ofNat_shift]; rfl)

theorem count_shift {n : Nat} (h : n ≤ 15) : BitVec.ofNat 32 (n <<< 4) = (BitVec.ofNat 4 n).setWidth 32 <<< 4 := by
  rw [← ofNat_shift, BitVec.toNat_ofNat, Nat.mod_eq_of_lt (by omega)]

theorem assemble_readBits {n : Nat} (h : n ≤ 15) :
    assemble (.readBits n) = some (.regWrite 0x00 4 (encode (.readBits n))) :=
  wordIf_true (decide_eq_true h) (by rw [BitVec.ofNat_or, count_shift h]; rfl)

theorem assemble_writeBits (d : Byte) {n : Nat} (pwr : Bool) (h : n ≤ 15) :
    assemble (.writeBits d.toNat n pwr) = some (.regWrite 0x00 4 (encode (.writeBits d n pwr))) := by
  refine wordIf_true (by rw [byte_le, decide_eq_true h]; rfl) ?_
  rw [← BitVec.toNat_ofBool, BitVec.ofNat_or, BitVec.ofNat_or, BitVec.ofNat_or, ofNat_shift, ofNat_shift, count_shift h]
  rfl

theorem assemble_set (v : Word) : assemble (.set .bufAddr v.toNat) = some (.regWrite 0x0C 4 v)
    ∧ assemble (.set .bufLen v.toNat) = some (.regWrite 0x10 4 v) := by
  have hv : v.toNat < 2 ^ 32 := v.isLt
  constructor
  · rw [assemble, if_pos hv, BitVec.ofNat_toNat, BitVec.setWidth_eq]
  · rw [assemble, if_pos hv, BitVec.ofNat_toNat, BitVec.setWidth_eq]

theorem assemble_set_refused {r : RegName} {v : Nat} (h : 2 ^ 32 ≤ v ∨ (r ≠ .bufAddr ∧ r ≠ .bufLen)) :
    assemble (.set r v) = none := by
  cases r with
  | bufAddr => exact if_neg (by simpa using h)
  | bufLen => exact if_neg (by simpa using h)
  | _ => rfl

/-- Settles O6, line by line: the number a line writes is the command word, and out of range `wordIf` gives none. -/
theorem assemblerRule : Obligations.AssemblerRule := by
  refine ⟨by decide, assemble_writeBit, fun d n pwr => assemble_writeBits d pwr, assemble_writeByte,
    assemble_writeBytes, fun n => assemble_readBits, assemble_targetSearch, fun v h => ?_, fun d n pwr h => ?_,
    fun d h => ⟨?_, ?_⟩, fun n h => ?_, assemble_set, fun r v => assemble_set_refused, by decide⟩
  all_goals exact wordIf_false (by simp; omega) _

/-! ### A word written to `CMD` -/

/-- A word written to `CMD`, as a step (10_state.md R41). -/
theorem step_command {s : State} {rest : List HostAccess} {w : Word} (h : s.host = .regWrite 0x00 4 w :: rest) :
    step s = runCommand w { s with host := rest } := by
  rw [step_regWrite h (by decide) (by decide), regWrite_cmd]

theorem decodeTableWord_some {nbits w : Nat} {i : Instr} (h : decodeTableWord nbits w = some i) :
    decode (BitVec.ofNat 32 (w % 2 ^ nbits)) = .op i := by
  unfold decodeTableWord at h
  split at h
  · next hd => rw [hd, Option.some.inj h]
  · cases h

/-- Settles O7, by `step_command`: a command placed is one the Host wrote. -/
theorem stepRunsDecodedCommand : Obligations.StepRunsDecodedCommand := by
  refine ⟨fun s w rest i hb h hd => ?_, fun s nbits w i h => ?_⟩
  · rw [step_command h]
    exact runCommand_op (s := { s with host := rest }) hb hd
  · rw [step_command (s := s.withFetchWord nbits w) rfl]
    exact runCommand_op (s := { s with busy := false }) rfl (decodeTableWord_some h)

/-- Settles O8: such a word decodes to no operation, and an accepted illegal word only raises `ILLEGAL`. -/
theorem illegalWordEndsAtOnce : Obligations.IllegalWordEndsAtOnce := by
  intro w h
  obtain ⟨why, hd⟩ := decode_illegal_of_reason h
  refine ⟨⟨why, hd⟩, fun s rest hb hh => ⟨raise .illegalCommand (accept none w { s with host := rest }), ?_,
    raise_ended .illegalCommand _, ⟨rfl, rfl, rfl, rfl, rfl⟩, ⟨rfl, rfl, rfl, rfl⟩, rfl, rfl, rfl⟩⟩
  rw [step_command hh]
  exact runCommand_illegal (s := { s with host := rest }) hb hd

end Sys2Proof.Machine
end

section
/-! PROOFS. The trains of a bit group (spec 30_encoding.md R116, R119), and the operations with the same bus effect
(R112). -/

namespace Sys2Proof.Machine

/-! ### The segments of a train of slots -/

theorem slotTrain_length (p : Params) (bs : List Bool) :
    (trainSegments (bs.flatMap (slot p) ++ [.endMark])).length = 2 * bs.length := by
  rw [trainSegments_slots, slots_length]

/-- Slots of equal length follow each other. -/
theorem slotTrain_lasts {p : Params} (hp : p.Valid) (bs : List Bool) :
    lasts (trainSegments (bs.flatMap (slot p) ++ [.endMark])) = bs.length * p.timing.tSlot := by
  rw [trainSegments_slots]
  induction bs with
  | nil => simp [lasts]
  | cons b bs ih =>
    rw [List.flatMap_cons, lasts_append, ih, slotSegs_lasts hp, List.length_cons, Nat.succ_mul, Nat.add_comm]

theorem slotSegs_pos {p : Params} (hp : p.Valid) (b : Bool) : ∀ g ∈ slotSegs p b, 0 < g.duration := by
  obtain ⟨h1l, h1h, h0l, h0h, -⟩ := hp.positive
  cases b
  · simp [slotSegs, slot, trainSegments, pulse, h0l, h0h]
  · simp [slotSegs, slot, trainSegments, pulse, h1l, h1h]

theorem slotTrain_pos {p : Params} (hp : p.Valid) (bs : List Bool) :
    ∀ g ∈ trainSegments (bs.flatMap (slot p) ++ [.endMark]), 0 < g.duration := by
  intro g hg
  rw [trainSegments_slots] at hg
  obtain ⟨b, -, hb⟩ := List.mem_flatMap.1 hg
  exact slotSegs_pos hp b g hb

theorem groupBits_length (d : Byte) (n : Nat) : (groupBits d n).length = n := by simp [groupBits]

/-- A group's first bit is bit 0 (20_memory.md R79). -/
theorem groupBits_succ (d : Byte) (n : Nat) : ∃ bs, groupBits d (n + 1) = d.getLsbD 0 :: bs := by
  rw [groupBits, List.range_succ_eq_map]
  exact ⟨_, List.map_cons ..⟩

theorem bitsTrain_take_two (p : Params) (d : Byte) {n : Nat} (h : 1 ≤ n) :
    (bitsTrain p d n).take 2 = slot p (d.getLsbD 0) := by
  obtain ⟨m, rfl⟩ := Nat.exists_eq_add_of_le' h
  obtain ⟨bs, hbs⟩ := groupBits_succ d m
  rw [bitsTrain, hbs, List.flatMap_cons]
  cases d.getLsbD 0 <;> rfl

/-- Settles O17: both trains are trains of `n` slots, one per bit, and what holds of every train of slots holds of
them. -/
theorem groupTrains : Obligations.GroupTrains := by
  intro p d n hp h1 h8
  have hr : (List.replicate n true).length = n := List.length_replicate
  have hw := groupBits_length d n
  have hitems := itemCount_readTrain p n
  have hne {bs : List Bool} (h : bs.length = n) : bs ≠ [] := by rintro rfl; simp at h; omega
  have htake := bitsTrain_take_two p d h1
  rw [readTrain_eq] at hitems ⊢
  refine ⟨?_, ?_, itemCount_bitsTrain p d n, ?_, ?_, hitems, Nat.succ_le_succ h8, fun g hg => ?_, htake,
    fun s hi1 hi0 => ⟨capturesOf_slots hp hi1 hi0 (hne hw), capturesOf_slots hp hi1 hi0 (hne hr)⟩⟩
  · exact (slotTrain_length p _).trans (by rw [hw])
  · exact (slotTrain_lasts hp _).trans (by rw [hw])
  · exact (slotTrain_length p _).trans (by rw [hr])
  · exact (slotTrain_lasts hp _).trans (by rw [hr])
  · exact (List.mem_append.1 hg).elim (slotTrain_pos hp _ g) (slotTrain_pos hp _ g)

/-! ### The same operation under another command word -/

/-- Two results a procedure gave: the same value, in states that differ only in the status and the sequencer. -/
def SameRes {α : Type} (r r' : Res α × State) : Prop := r'.1 = r.1 ∧ SameBus r.2 r'.2

theorem SameBus.writeP {s t : State} (h : SameBus s t) (d : Byte) (n : Nat) (pwr : Bool) :
    SameRes (writeP d n pwr s) (writeP d n pwr t) := by
  cases hn : groupOk n with
  | true =>
    rw [writeP_run hn, writeP_run hn, h.tx]
    exact ⟨rfl, h.writeBurst d n pwr⟩
  | false =>
    rw [writeP_reject hn, writeP_reject hn]
    exact ⟨rfl, h⟩

theorem SameBus.receiveP {α : Type} {s t : State} (h : SameBus s t) (idle timeout : Nat) (tr : Train)
    (f : Capture → Res α) : SameRes (receiveP idle timeout tr f s) (receiveP idle timeout tr f t) := by
  have hb := h.receiveBurst idle tr
  have hr : rxNow (usedTx t) = rxNow (usedTx s) := by simpa using hb.rx
  rcases receiveP_cases idle timeout tr f s with ⟨⟨us, hx⟩, e⟩ | ⟨hx, ⟨ha, e⟩ | ⟨ha, e⟩ | ⟨c, ha, e⟩⟩ <;> rw [e]
  · rw [receiveP_txErr idle timeout tr f (h.tx.trans hx)]
    exact ⟨rfl, hb⟩
  · rw [receiveP_timeout idle timeout tr f (h.tx.trans hx) (hr.trans ha)]
    exact ⟨rfl, hb.chReceive timeout⟩
  · rw [receiveP_rxErr idle timeout tr f (h.tx.trans hx) (hr.trans ha)]
    exact ⟨rfl, hb.chReceive timeout⟩
  · rw [receiveP_capture idle timeout tr f (h.tx.trans hx) (hr.trans ha)]
    exact ⟨rfl, hb.chReceive timeout⟩

theorem SameBus.readP {s t : State} (h : SameBus s t) (n : Nat) : SameRes (readP n s) (readP n t) := by
  cases hn : groupOk n with
  | true =>
    rw [readP_run hn, readP_run hn, h.params]
    exact h.receiveP ..
  | false =>
    rw [readP_reject hn, readP_reject hn]
    exact ⟨rfl, h⟩

theorem SameBus.setRdata {s t : State} (h : SameBus s t) (v : Byte) : SameBus (setRdata v s) (setRdata v t) :=
  { h with rdata := rfl }

/-- The byte drawn depends on the count of draws alone. -/
theorem SameBus.drawRdata {s t : State} (h : SameBus s t) : SameBus (drawRdata s) (drawRdata t) :=
  { h with rdata := congrArg Config.freeByte h.draws, draws := congrArg (· + 1) h.draws }

/-- `complete` and `raise` write all in which the two states differ. -/
theorem SameRes.endWrite {r r' : Res Unit × State} (h : SameRes r r') : endWrite r' = endWrite r := by
  obtain ⟨x, s⟩ := r
  obtain ⟨x', t⟩ := r'
  obtain ⟨rfl, hs⟩ := h
  cases x' with
  | ok _ => exact hs.complete true
  | fail k => exact hs.raise k

theorem SameRes.endRead {r r' : Res Byte × State} (h : SameRes r r') : endRead r' = endRead r := by
  obtain ⟨x, s⟩ := r
  obtain ⟨x', t⟩ := r'
  obtain ⟨rfl, hs⟩ := h
  cases x' with
  | ok v => exact (hs.setRdata v).complete true
  | fail k => exact hs.drawRdata.raise k

/-- One group written under two command words: the acceptance is all that tells them apart. -/
theorem sameEffect_write (i j : Instr) (d : Byte) (n : Nat) (pwr : Bool) (s : State) :
    SameEffect (.next (endWrite (writeP d n pwr (start i s)))) (.next (endWrite (writeP d n pwr (start j s)))) := by
  rw [((start_same i j s).writeP d n pwr).endWrite]
  exact ⟨_, _, rfl, rfl, rfl, rfl, rfl, rfl, rfl, rfl, fun _ => rfl⟩

/-- One group read under two command words. -/
theorem sameEffect_read (i j : Instr) (n : Nat) (s : State) :
    SameEffect (.next (endRead (readP n (start i s)))) (.next (endRead (readP n (start j s)))) := by
  rw [((start_same i j s).readP n).endRead]
  exact ⟨_, _, rfl, rfl, rfl, rfl, rfl, rfl, rfl, rfl, fun _ => rfl⟩

/-- Operations of different opcodes have different command words. -/
theorem encode_ne_of_opcode {i j : Instr} (h : opcode i ≠ opcode j) : encode i ≠ encode j := by
  intro he
  rw [← opcField_encode i, ← opcField_encode j, he] at h
  exact h rfl

/-- Settles O33: each pair runs one procedure with the same arguments (`sameEffect_write`, `sameEffect_read`), and its
opcodes differ. -/
theorem sameBusEffect : Obligations.SameBusEffect := fun s =>
  ⟨fun v => ⟨sameEffect_write _ _ (zext8 v) 1 false s, encode_ne_of_opcode (by decide : 0x2#4 ≠ 0x3#4)⟩,
    fun d => ⟨sameEffect_write _ _ d 8 false s, encode_ne_of_opcode (by decide : 0x4#4 ≠ 0x3#4)⟩,
    ⟨sameEffect_read _ _ 1 s, encode_ne_of_opcode (by decide)⟩,
    ⟨sameEffect_read _ _ 8 s, encode_ne_of_opcode (by decide)⟩,
    sameEffect_write _ _ cmdSkipRom 8 false s, encode_ne_of_opcode (by decide)⟩

end Sys2Proof.Machine
end

section
/-! PROOFS. The capture decoders (spec 40_channel.md R170 to R172). -/

namespace Sys2Proof.Machine

/-! ### The bit decoder -/

theorem decodeBits_short {p : Params} {c : Capture} {n : Nat} (h : (lows c).length < n) :
    decodeBits p c n = .fail .channelError := if_pos h

/-- Settles O20: `decodeBits_short` and `decodeBits_ok`. -/
theorem bitDecoder : Obligations.BitDecoder :=
  fun _ _ _ _ _ => ⟨decodeBits_short, decodeBits_ok⟩

/-- The sampling time tells the two slots' lows apart (R14 (c)). -/
theorem slotLow_lt_tRs {p : Params} (hp : p.Valid) (b : Bool) :
    decide ((if b then p.timing.tW1l else p.timing.tW0l) < p.timing.tRs) = b := by
  obtain ⟨hshort, hlong⟩ := hp.sample
  cases b
  · exact decide_eq_false (Nat.not_lt.2 hlong)
  · exact decide_eq_true hshort

/-- The loopback of a train of slots decodes to the bits it was made of. -/
theorem decodeBits_loopCapture {p : Params} (hp : p.Valid) (bs : List Bool) :
    decodeBits p (loopCapture (bs.flatMap (slot p) ++ [.endMark])) bs.length = .ok (packBits bs) := by
  have hlen : (bs.map fun b => if b then p.timing.tW1l else p.timing.tW0l).length = bs.length := List.length_map _
  rw [decodeBits, lows_loopCapture, if_neg (by omega), List.take_of_length_le hlen.le, List.map_map]
  congr 2
  exact (List.map_congr_left fun b _ => slotLow_lt_tRs hp b).trans (List.map_id bs)

/-- A value of `n` bits is its first `n` bits packed. -/
theorem packBits_groupBits {v : Byte} {n : Nat} (h : v.toNat < 2 ^ n) : packBits (groupBits v n) = v := by
  apply BitVec.eq_of_getLsbD_eq
  intro j hj
  rw [packBits_getLsbD _ _ hj]
  by_cases hn : j < n
  · simp [groupBits, List.getD, hn]
  · have hv : v.toNat < 2 ^ j := h.trans_le (Nat.pow_le_pow_right Nat.two_pos (by omega))
    simp [groupBits, List.getD, hn, BitVec.getLsbD, Nat.testBit_lt_two_pow hv]

/-- Settles O18: a write group is a train of slots, one per bit of the group. -/
theorem loopbackRecoversValue : Obligations.LoopbackRecoversValue := by
  intro p n v hp _ _ hv
  have h := decodeBits_loopCapture hp (groupBits v n)
  rwa [groupBits_length, packBits_groupBits hv] at h

/-! ### The presence decoder -/

theorem decodePresence_iff (p : Params) (c : Capture) : decodePresence p c = true ↔
    ∃ c0 c1 c2 rest, c = c0 :: c1 :: c2 :: rest ∧ c0.level = .low ∧ p.timing.tRstl - p.tRstTol ≤ c0.duration
      ∧ c1.level = .high ∧ c2.level = .low := by
  rcases c with _ | ⟨c0, _ | ⟨c1, _ | ⟨c2, rest⟩⟩⟩
  case cons.cons.cons => simp [decodePresence, and_assoc]
  all_goals simp [decodePresence]

theorem mergeSegments_response {r h l : Nat} (hr : 0 < r) (h0 : 0 < h) (hl : 0 < l) :
    mergeSegments [⟨.low, r⟩, ⟨.high, h⟩, ⟨.low, l⟩] = [⟨.low, r⟩, ⟨.high, h⟩, ⟨.low, l⟩] := by
  simp [mergeSegments, hr.ne', h0.ne', hl.ne']

/-- A low, a high shorter than the threshold and a low are one capture (R155). -/
theorem capturesOf_responseInTime {idle r h l : Nat} (hr : 0 < r) (h0 : 0 < h) (hl : 0 < l) (hi : h < idle) :
    capturesOf idle [⟨.low, r⟩, ⟨.high, h⟩, ⟨.low, l⟩] = [[⟨.low, r⟩, ⟨.high, h⟩, ⟨.low, l⟩]] := by
  have hm := mergeSegments_response hr h0 hl
  rw [capturesOf_one hm (by simp [hi]), hm]
  rfl

/-- A high of the threshold ends the capture: the later low is in the next one (R155). -/
theorem capturesOf_responseLate {idle r h l : Nat} (hr : 0 < r) (h0 : 0 < h) (hl : 0 < l) (hi : idle ≤ h) :
    capturesOf idle [⟨.low, r⟩, ⟨.high, h⟩, ⟨.low, l⟩] = [[⟨.low, r⟩], [⟨.low, l⟩]] := by
  rw [capturesOf, mergeSegments_response hr h0 hl]
  simp [capturesFrom, hi, dropFinalHigh]

/-- Settles O19: a response in time is in the reset's capture; a late one leaves there the reset low alone. -/
theorem presenceDecoder : Obligations.PresenceDecoder := by
  refine fun p => ⟨decodePresence_iff p, fun s h l hp h0 hl => ?_⟩
  obtain ⟨-, -, -, -, hr⟩ := hp.positive
  rw [hears]
  by_cases hi : h < s.idleThreshold
  · rw [capturesOf_responseInTime hr h0 hl hi]
    simp [decodePresence, hi]
  · rw [capturesOf_responseLate hr h0 hl (Nat.not_lt.1 hi)]
    simp [decodePresence, hi]

end Sys2Proof.Machine
end

section
/-! PROOFS. `RESET` and the operations of one bit group (spec 41_bit_byte_ops.md R203 to R225, R235 to R245). -/

namespace Sys2Proof.Machine

/-! ### What the procedures answer, and their calls from open drain -/

theorem readP_capture {n : Nat} {s : State} {c : Capture} (h : groupOk n = true) (hx : txNow s = .ok)
    (hr : rxNow (usedTx s) = .capture c) :
    readP n s = (decodeBits s.params c n, chReceive s.params.tToRead
      (receiveBurst s.params.tIdleSlot (readTrain s.params n) s)) :=
  (readP_run h s).trans (receiveP_capture _ _ _ _ hx hr)

theorem resetP_capture {s : State} {c : Capture} (hx : txNow s = .ok) (hr : rxNow (usedTx s) = .capture c) :
    resetP s = (.ok (decodePresence s.params c), chReceive s.params.tToReset
      (receiveBurst s.params.tIdleRst (resetTrain s.params) s)) :=
  receiveP_capture _ _ _ _ hx hr

/-- The four calls of a receiving procedure that took a capture (R204, R206). -/
theorem receive_events (idle timeout : Nat) (t : Train) {s : State} {c : Capture} (hd : s.drive = false)
    (hx : txNow s = .ok) (hr : rxNow (usedTx s) = .capture c) :
    (chReceive timeout (receiveBurst idle t s)).events = s.events ++ receiveEvents idle timeout t c := by
  simp [receiveEvents, hd, hx, hr]

/-- From open drain a write group's one transmit is made under strong pull exactly when it was asked for (R203). -/
theorem writeBurst_events_openDrain (d : Byte) (n : Nat) (pwr : Bool) {s : State} (hd : s.drive = false) :
    (writeBurst d n pwr s).events = s.events ++ [.transmit (bitsTrain s.params d n) pwr (txNow s)] := by
  rw [writeBurst_events, hd]
  cases pwr <;> rfl

/-- The group of `WRITE_BIT` is one slot (R215). -/
theorem bitsTrain_zext8 (p : Params) (v : Bool) : bitsTrain p (zext8 v) 1 = slot p v ++ [.endMark] := by
  cases v <;> rfl

/-! ### The ends of an operation of one procedure (R210, R332, R208) -/

theorem Completes.mono {o : Answer} {P Q : State → Prop} (h : Completes o P) (hpq : ∀ t, P t → Q t) :
    Completes o Q := by
  obtain ⟨t, ht, hp⟩ := h
  exact ⟨t, ht, hpq t hp⟩

@[simp] theorem endPresence_ok (b : Bool) (s : State) : endPresence (.ok b, s) = complete b s := rfl
@[simp] theorem endPresence_fail (k : ErrKind) (s : State) : endPresence (.fail k, s) = raise k s := rfl
@[simp] theorem endWrite_ok (s : State) : endWrite (.ok (), s) = complete true s := rfl
@[simp] theorem endWrite_fail (k : ErrKind) (s : State) : endWrite (.fail k, s) = raise k s := rfl
@[simp] theorem endRead_ok (v : Byte) (s : State) : endRead (.ok v, s) = complete true (setRdata v s) := rfl
@[simp] theorem endRead_fail (k : ErrKind) (s : State) : endRead (.fail k, s) = raise k (drawRdata s) := rfl

/-! ### `RESET` -/

theorem exec_reset (s : State) : exec .reset s = .next (endPresence (resetP (start .reset s))) := rfl

/-- Settles O21: the reset procedure answers the presence its capture decodes to, and `RESET` stores nothing else
(`execReset_quiet`). -/
theorem resetReportsPresence : Obligations.ResetReportsPresence := by
  intro s c hd hx hr
  have hq := execReset_quiet (exec_reset s)
  have hev := receive_events s.params.tIdleRst s.params.tToReset (resetTrain s.params) (s := start .reset s) hd hx hr
  rw [exec_reset]
  rw [resetP_capture (s := start .reset s) hx hr, endPresence_ok] at hq ⊢
  exact ⟨_, rfl, complete_ended _ _, hq.rdata, hq.search, hev⟩

/-- `RESET` whose procedure fails raises the failure, and changes neither `RDATA` nor the SearchState (R210). -/
theorem execReset_fails {s u : State} {k : ErrKind} (h : resetP (start .reset s) = (.fail k, u)) :
    Completes (exec .reset s) fun t =>
      Ended false (errCode k) t ∧ t.rdata = s.rdata ∧ t.search = s.search ∧ t.rxAnswers = u.rxAnswers := by
  have hq := execReset_quiet (exec_reset s)
  rw [exec_reset]
  rw [h, endPresence_fail] at hq ⊢
  exact ⟨_, rfl, raise_ended k u, hq.rdata, hq.search, rfl⟩

/-- Settles O22, by the three answers on which the reset procedure fails. -/
theorem resetFailureReadsFalse : Obligations.ResetFailureReadsFalse := by
  refine fun s => ⟨fun us hx => ?_, fun hx hr => ?_, fun hx hr => ?_⟩
  · exact (execReset_fails (receiveP_txErr _ _ _ _ hx)).mono fun t ⟨he, hd, hs, hrx⟩ =>
      ⟨he, hd, hs, hrx.trans (receiveBurst_rxAnswers _ _ _)⟩
  · exact (execReset_fails (receiveP_timeout _ _ _ _ hx hr)).mono fun t ⟨he, hd, hs, _⟩ => ⟨he, hd, hs⟩
  · exact (execReset_fails (receiveP_rxErr _ _ _ _ hx hr)).mono fun t ⟨he, hd, hs, _⟩ => ⟨he, hd, hs⟩

/-! ### One group written -/

/-- One group written after the acceptance of any operation, on a transmit that answers ok (R203). -/
theorem writeGroup_sends (i : Instr) (d : Byte) {n : Nat} (hn : groupOk n = true) (pwr : Bool) {s : State}
    (hd : s.drive = false) (hx : txNow s = .ok) :
    Completes (.next (endWrite (writeP d n pwr (start i s)))) fun t =>
      Ended true 0#3 t ∧ t.events = s.events ++ [.transmit (bitsTrain s.params d n) pwr .ok] := by
  have hev := writeBurst_events_openDrain d n pwr (s := start i s) hd
  rw [txNow_start, hx] at hev
  rw [writeP_run hn, txNow_start, hx, txResult, endWrite_ok]
  exact ⟨_, rfl, complete_ended _ _, hev⟩

/-- One group written after the acceptance of any operation, on a transmit that fails (R203). -/
theorem writeGroup_fails (i : Instr) (d : Byte) {n : Nat} (hn : groupOk n = true) (pwr : Bool) {s : State} {us : Nat}
    (hd : s.drive = false) (hx : txNow s = .err us) :
    Completes (.next (endWrite (writeP d n pwr (start i s)))) fun t =>
      Ended false 1#3 t ∧ t.events = s.events ++ [.transmit (bitsTrain s.params d n) pwr (.err us)] := by
  have hev := writeBurst_events_openDrain d n pwr (s := start i s) hd
  rw [txNow_start, hx] at hev
  rw [writeP_run hn, txNow_start, hx, txResult, endWrite_fail]
  exact ⟨_, rfl, raise_ended .channelError _, hev⟩

/-- Settles O23: each of the three writes one group (`writeGroup_sends`). -/
theorem writeGroupSends : Obligations.WriteGroupSends := by
  refine fun s hd hx => ⟨fun v => ?_, fun d n pwr h1 h8 => ?_, fun d => ?_⟩
  · rw [← bitsTrain_zext8]
    exact writeGroup_sends _ _ (by decide) _ hd hx
  · exact writeGroup_sends _ _ ((groupOk_iff n).2 ⟨h1, h8⟩) _ hd hx
  · exact writeGroup_sends _ _ (by decide) _ hd hx

/-- Settles O24: each of the four writes one group (`writeGroup_fails`). -/
theorem writeGroupFails : Obligations.WriteGroupFails := fun _ _ hd hx =>
  ⟨fun _ => writeGroup_fails _ _ (by decide) _ hd hx,
    fun _ n _ h1 h8 => writeGroup_fails _ _ ((groupOk_iff n).2 ⟨h1, h8⟩) _ hd hx,
    fun _ => writeGroup_fails _ _ (by decide) _ hd hx,
    writeGroup_fails _ _ (by decide) _ hd hx⟩

/-! ### One group read -/

/-- One group read after the acceptance of any operation, from a capture with enough lows (R204, R171). -/
theorem readGroup_reads (i : Instr) {n : Nat} (hn : groupOk n = true) {s : State} {c : Capture} (hd : s.drive = false)
    (hx : txNow s = .ok) (hr : rxNow (usedTx s) = .capture c) (hl : n ≤ (lows c).length) :
    Completes (.next (endRead (readP n (start i s)))) fun t =>
      Ended true 0#3 t
        ∧ (∀ j < 8, t.rdata.getLsbD j = (decide (j < n) && decide ((lows c).getD j 0 < s.params.timing.tRs)))
        ∧ t.events = s.events ++ receiveEvents s.params.tIdleSlot s.params.tToRead (readTrain s.params n) c := by
  obtain ⟨v, hv, hbits⟩ := decodeBits_ok (p := s.params) hl
  have hev := receive_events s.params.tIdleSlot s.params.tToRead (readTrain s.params n) (s := start i s) hd hx hr
  rw [readP_capture (s := start i s) hn hx hr, start_params, hv, endRead_ok]
  exact ⟨_, rfl, complete_ended _ _, hbits, hev⟩

/-- Settles O26: each of the three reads one group (`readGroup_reads`). -/
theorem readGroupReads : Obligations.ReadGroupReads := by
  refine fun s c n hd hx hr hl => ⟨fun h1 => ?_, fun h1 h8 => ?_, fun h8 => ?_⟩
  · subst h1
    exact readGroup_reads _ (by decide) hd hx hr hl
  · exact readGroup_reads _ ((groupOk_iff n).2 ⟨h1, h8⟩) hd hx hr hl
  · subst h8
    exact readGroup_reads _ (by decide) hd hx hr hl

/-- The three reads into `RDATA` each read one group and end on what it answers (R235, R240, R245). -/
theorem exec_readGroup {i : Instr} {n : Nat}
    (h : i = .readBit ∧ n = 1 ∨ i = .readBits n ∧ 1 ≤ n ∧ n ≤ 8 ∨ i = .readByte ∧ n = 8) (s : State) :
    groupOk n = true ∧ exec i s = .next (endRead (readP n (start i s))) := by
  rcases h with ⟨rfl, rfl⟩ | ⟨rfl, h1, h8⟩ | ⟨rfl, rfl⟩
  · exact ⟨rfl, rfl⟩
  · exact ⟨(groupOk_iff n).2 ⟨h1, h8⟩, rfl⟩
  · exact ⟨rfl, rfl⟩

/-- A read whose group fails raises the failure (R208). -/
theorem endRead_raises {r : Res Byte × State} {u : State} {k : ErrKind} (h : r = (.fail k, u)) :
    Completes (.next (endRead r)) fun t => Ended false (errCode k) t ∧ t.rxAnswers = u.rxAnswers := by
  rw [h, endRead_fail]
  exact ⟨_, rfl, raise_ended k _, rfl⟩

/-- Settles O27, by the answers on which the read procedure fails. -/
theorem readGroupFails : Obligations.ReadGroupFails := by
  intro s n i hi
  obtain ⟨hn, he⟩ := exec_readGroup hi s
  rw [he]
  have hp := readP_run hn (start i s)
  refine ⟨fun us hx => ?_, fun hx hr => ?_, fun hx hr => ?_, fun c hx hr hl => ?_⟩
  · exact (endRead_raises (hp.trans (receiveP_txErr _ _ _ _ hx))).mono fun t ⟨he, hrx⟩ =>
      ⟨he, hrx.trans (receiveBurst_rxAnswers _ _ _)⟩
  · exact (endRead_raises (hp.trans (receiveP_timeout _ _ _ _ hx hr))).mono fun t ⟨he, _⟩ => he
  · exact (endRead_raises (hp.trans (receiveP_rxErr _ _ _ _ hx hr))).mono fun t ⟨he, _⟩ => he
  · have hc := readP_capture (s := start i s) hn hx hr
    rw [decodeBits_short hl] at hc
    exact (endRead_raises hc).mono fun t ⟨he, _⟩ => he

/-! ### Bit counts outside 1 to 8 -/

theorem exec_writeBits (d : Byte) (n : Nat) (pwr : Bool) (s : State) :
    exec (.writeBits d n pwr) s = .next (endWrite (writeP d n pwr (start (.writeBits d n pwr) s))) := rfl

theorem exec_readBits (n : Nat) (s : State) :
    exec (.readBits n) s = .next (endRead (readP n (start (.readBits n) s))) := rfl

/-- Settles O25: both procedures reject the count, so the operations raise it in the state they started in. -/
theorem groupCountRejected : Obligations.GroupCountRejected := by
  intro s n h
  have hn := (groupOk_false_iff n).2 h
  refine ⟨fun d pwr => writeP_reject hn d pwr s, readP_reject hn s, fun d pwr => ?_, ?_⟩
  · rw [exec_writeBits, writeP_reject hn, endWrite_fail]
    exact ⟨_, rfl, raise_ended .protocolViolation _, ⟨rfl, rfl, rfl, rfl⟩⟩
  · rw [exec_readBits, readP_reject hn, endRead_fail]
    exact ⟨_, rfl, raise_ended .protocolViolation _, ⟨rfl, rfl, rfl, rfl⟩⟩

end Sys2Proof.Machine
end

section
/-! PROOFS. `WRITE_BYTES` and `READ_BYTES` (spec 41_bit_byte_ops.md R230, R250). -/

namespace Sys2Proof.Machine

theorem exec_writeBytes (pwr : Bool) (s : State) :
    exec (.writeBytes pwr) s = writeBytesLoop pwr (bufferL s) (start (.writeBytes pwr) s) := rfl

theorem exec_readBytes (s : State) : exec .readBytes s = readBytesLoop (bufferL s) (start .readBytes s) := rfl

/-- Settles O28: the loop starts at index 0 of the buffer (`writeBytesLoop_sends`). -/
theorem writeBytesSendsUntilFailure : Obligations.WriteBytesSendsUntilFailure := fun s pwr hd ha =>
  writeBytesLoop_sends pwr (bufferL s) (start (.writeBytes pwr) s) hd ha

/-- Settles O29: after `L` groups (`writeBytesLoop_ok`) no byte is left, and the loop completes. -/
theorem writeBytesCompletes : Obligations.WriteBytesCompletes := by
  intro s pwr rest hd ha hx
  obtain ⟨u, hloop, htx, -, -, -, -, hev⟩ :=
    writeBytesLoop_ok pwr (bufferL s) (start (.writeBytes pwr) s) rest ha hx 0
  exact ⟨complete true u, hloop, complete_ended true u, htx, hev hd⟩

/-- Settles O30: after the `L` groups of `caps` (`readBytesLoop_ok`) no byte is left, and the loop completes. -/
theorem readBytesCompletes : Obligations.ReadBytesCompletes := by
  intro s caps txs rxs hm hd ha hl hc hx hr
  rw [← hl] at ha hx ⊢
  obtain ⟨u, hloop, -, -, -, -, -, hrd, hval, hout, hev⟩ :=
    readBytesLoop_ok caps (start .readBytes s) txs rxs 0 ha hc hx hr
  refine ⟨complete true u, ?_, complete_ended true u, hrd, (hval hm).2, hout, (hev hd).2⟩
  rw [exec_readBytes, ← hl]
  exact hloop

/-- One more ok answer comes after those before it. -/
theorem replicate_ok_succ (k : Nat) (txs : List TxAnswer) :
    List.replicate (k + 1) .ok ++ txs = List.replicate k .ok ++ .ok :: txs := by
  rw [List.replicate_succ', List.append_assoc]
  rfl

/-- Settles O31: `execReadBytes_stops` on each way the failing group can fail. -/
theorem readBytesStopsAtFailingByte : Obligations.ReadBytesStopsAtFailingByte := by
  intro s caps txs rxs hm ha hl hc
  refine ⟨fun hx => ?_, fun us hx hr => ?_⟩
  · rw [replicate_ok_succ] at hx
    refine ⟨fun hr => ?_, fun hr => ?_, fun c hshort hr => ?_⟩
    · exact execReadBytes_stops (k := .timeout) hm ha hl hc hx hr fun u htx hrx => readP_timeout htx hrx
    · exact execReadBytes_stops (k := .channelError) hm ha hl hc hx hr fun u htx hrx => readP_rxErr htx hrx
    · exact execReadBytes_stops (k := .channelError) hm ha hl hc hx hr fun u htx hrx => readP_short hshort htx hrx
  · refine execReadBytes_stops (k := .channelError) hm ha hl hc hx hr fun u htx hrx => ?_
    rw [← hrx]
    exact readP_txErr htx

/-- Settles O32: with no byte to send or to read both loops complete at once. -/
theorem zeroLengthCompletes : Obligations.ZeroLengthCompletes := by
  intro s pwr h
  rw [exec_writeBytes, exec_readBytes, h]
  exact ⟨⟨_, rfl, complete_ended _ _, ⟨rfl, rfl, rfl, rfl⟩, rfl⟩, _, rfl, complete_ended _ _, ⟨rfl, rfl, rfl, rfl⟩, rfl⟩

end Sys2Proof.Machine
end

section
/-! PROOFS. What the bit and byte operations and the ROM addressing leave unchanged (spec 41_bit_byte_ops.md R200,
R203). -/

namespace Sys2Proof.Machine

/-! ### Registers and memory -/

theorem SameBytes.of_mem {s t : State} (h : t.mem = s.mem) : SameBytes s t := fun a => congrArg (Memory.read · a) h

theorem Quiet.frame {pwr : Bool} {s t : State} (h : Quiet pwr s t) :
    SameHost s t ∧ t.search = s.search ∧ t.rdata = s.rdata ∧ SameBytes s t :=
  ⟨h.ran.host, h.search, h.rdata, .of_mem h.mem⟩

theorem ReadRan.frame {s t : State} (h : ReadRan s t) : SameHost s t ∧ t.search = s.search ∧ SameBytes s t :=
  ⟨h.ran.host, h.search, .of_mem h.mem⟩

/-- Settles O50: each of them is quiet. -/
theorem writesFrame : Obligations.WritesFrame := by
  intro s t i hi h
  rcases hi with rfl | ⟨v, rfl⟩ | ⟨d, n, pwr, rfl⟩ | ⟨d, rfl⟩ | ⟨pwr, rfl⟩ | rfl | rfl
  · exact (execReset_quiet h).frame
  · exact (execWriteBit_quiet h).frame
  · exact (execWriteBits_quiet h).frame
  · exact (execWriteByte_quiet h).frame
  · exact (execWriteBytes_quiet h).frame
  · exact (execSelect_quiet h).frame
  · exact (execSkip_quiet h).frame

/-- Settles O52, by what a read into `RDATA` did. -/
theorem readsFrame : Obligations.ReadsFrame := by
  intro s t i hi h
  rcases hi with rfl | ⟨n, rfl⟩ | rfl
  · exact (execReadBit_ran h).frame
  · exact (execReadBits_ran h).frame
  · exact (execReadByte_ran h).frame

/-- Settles O53: the loop of `READ_BYTES` stores from its place on, and it starts at the first byte of the buffer. -/
theorem readBytesFrame : Obligations.ReadBytesFrame := by
  intro s t h
  obtain ⟨hl, hran⟩ := execReadBytes_ran h
  exact ⟨hran.host, hl.search, hl.rdata, hl.outside⟩

/-! ### The channel's receiving side -/

/-- Every call from `s` to `t` was a transmit: the threshold and the receive answers are as they were. -/
structure OnlyTransmits (s t : State) : Prop where
  idleThreshold : t.idleThreshold = s.idleThreshold
  rxAnswers : t.rxAnswers = s.rxAnswers
  history : ∃ es, t.events = s.events ++ es ∧ ∀ e ∈ es, isTransmit e = true

/-- No call at all. -/
theorem OnlyTransmits.of_eq {s t : State} (hi : t.idleThreshold = s.idleThreshold) (hr : t.rxAnswers = s.rxAnswers)
    (he : t.events = s.events) : OnlyTransmits s t := ⟨hi, hr, [], by rw [he, List.append_nil], by simp⟩

theorem OnlyTransmits.trans {s t u : State} (h : OnlyTransmits s t) (g : OnlyTransmits t u) : OnlyTransmits s u := by
  obtain ⟨es, he, hes⟩ := h.history
  obtain ⟨fs, hf, hfs⟩ := g.history
  refine ⟨g.idleThreshold.trans h.idleThreshold, g.rxAnswers.trans h.rxAnswers, es ++ fs,
    by rw [hf, he, List.append_assoc], fun e hm => ?_⟩
  rcases List.mem_append.1 hm with hm | hm
  · exact hes e hm
  · exact hfs e hm

theorem start_onlyTransmits (i : Instr) (s : State) : OnlyTransmits s (start i s) := .of_eq rfl rfl rfl

theorem nextIndex_onlyTransmits (s : State) : OnlyTransmits s (nextIndex s) := .of_eq rfl rfl rfl

theorem writeBurst_onlyTransmits (d : Byte) (n : Nat) (pwr : Bool) (s : State) :
    OnlyTransmits s (writeBurst d n pwr s) :=
  ⟨writeBurst_idleThreshold d n pwr s, writeBurst_rxAnswers d n pwr s, _, writeBurst_events d n pwr s,
    fun _ he => by rw [List.mem_singleton.1 he]; rfl⟩

theorem writeP_onlyTransmits (d : Byte) (n : Nat) (pwr : Bool) (s : State) :
    OnlyTransmits s (writeP d n pwr s).2 := by
  cases hn : groupOk n with
  | true => rw [writeP_run hn]; exact writeBurst_onlyTransmits d n pwr s
  | false => rw [writeP_reject hn]; exact .of_eq rfl rfl rfl

theorem writeList_onlyTransmits (bs : List Byte) (s : State) : OnlyTransmits s (writeList bs s).2 := by
  induction bs generalizing s with
  | nil => exact .of_eq rfl rfl rfl
  | cons b bs ih =>
    have hw := writeP_onlyTransmits b 8 false s
    rcases e : writeP b 8 false s with ⟨_ | k, u⟩ <;> rw [e] at hw <;> simp only [writeList, e]
    · exact hw.trans (ih u)
    · exact hw

/-- A write operation's end makes no call. -/
theorem endWrite_onlyTransmits {i : Instr} {s : State} {r : Res Unit × State} (h : OnlyTransmits (start i s) r.2) :
    OnlyTransmits s (endWrite r) := by
  have hs := (start_onlyTransmits i s).trans h
  rcases endWrite_cases r with ⟨-, e⟩ | ⟨k, -, e⟩ <;> rw [e]
  · exact hs.trans (.of_eq rfl rfl rfl)
  · exact hs.trans (.of_eq rfl rfl rfl)

theorem writeBytesLoop_onlyTransmits {pwr : Bool} {k : Nat} {s t : State} (h : writeBytesLoop pwr k s = .next t) :
    OnlyTransmits s t := by
  induction k generalizing s with
  | zero => cases h; exact .of_eq rfl rfl rfl
  | succ k ih =>
    have hw := writeP_onlyTransmits (s.mem.read (operandA s + s.seq.index)) 8 pwr s
    simp only [writeBytesLoop] at h
    split at h
    · split at h <;> rename_i e <;> rw [e] at hw
      · exact (hw.trans (nextIndex_onlyTransmits _)).trans (ih h)
      · cases h; exact hw.trans (.of_eq rfl rfl rfl)
    · cases h

theorem execSelect_onlyTransmits {s t : State} (h : execSelect s = .next t) : OnlyTransmits s t := by
  simp only [execSelect] at h
  split at h
  · cases h; exact endWrite_onlyTransmits (writeList_onlyTransmits _ _)
  · cases h

/-- Settles O51, operation by operation: one group, a list of groups, the loop of `WRITE_BYTES`, or no call at all. -/
theorem writesNeverReceive : Obligations.WritesNeverReceive := by
  intro s t i hi h
  suffices ht : OnlyTransmits s t from ⟨ht.idleThreshold, ht.rxAnswers, ht.history⟩
  rcases hi with ⟨v, rfl⟩ | ⟨d, n, pwr, rfl⟩ | ⟨d, rfl⟩ | ⟨pwr, rfl⟩ | rfl | rfl | rfl | ⟨f, rfl⟩
  · cases h; exact endWrite_onlyTransmits (writeP_onlyTransmits _ _ _ _)
  · cases h; exact endWrite_onlyTransmits (writeP_onlyTransmits _ _ _ _)
  · cases h; exact endWrite_onlyTransmits (writeP_onlyTransmits _ _ _ _)
  · exact (start_onlyTransmits _ s).trans (writeBytesLoop_onlyTransmits h)
  · exact execSelect_onlyTransmits h
  · cases h; exact endWrite_onlyTransmits (writeP_onlyTransmits _ _ _ _)
  · cases h; exact .of_eq rfl rfl rfl
  · cases h; exact .of_eq rfl rfl rfl

end Sys2Proof.Machine
end

section
/-! PROOFS. The ROM addressing operations (spec 42_rom_commands.md R260, R265). -/

namespace Sys2Proof.Machine

/-! ### `SELECT` -/

/-- With all eight ROM bytes admitted, `SELECT` sends MATCH ROM and the ROM code at the buffer address, one byte list
(R260). -/
theorem exec_select_admitted {s : State} (h : bufferA s + 8 ≤ 2 ^ s.params.addrW) :
    exec .select s
      = .next (endWrite (writeList (cmdMatchRom :: romAt s.mem (bufferA s)) (start .select s))) :=
  if_pos ((rangeAdmitted_iff (start .select s) (bufferA s) romBytes).2 h)

/-- MATCH ROM and a ROM code are nine bytes. -/
theorem matchRom_romAt_length (m : Memory) (a : Nat) : (cmdMatchRom :: romAt m a).length = 9 := by
  simp [romAt, romBytes]

/-- Settles O34: the nine bytes are all sent (`writeList_ok`). -/
theorem selectSendsRom : Obligations.SelectSendsRom := by
  intro s rest hd ha hx
  obtain ⟨u, hsent, htx, -, hev⟩ := writeList_ok (cmdMatchRom :: romAt s.mem (bufferA s)) (start .select s) rest
    (by rw [matchRom_romAt_length, start_txAnswers, hx])
  rw [exec_select_admitted ha, hsent, endWrite_ok]
  exact ⟨_, rfl, complete_ended true u, htx, hev hd⟩

/-- Settles O35: the list of nine bytes stops at the byte whose transmit fails (`writeList_err`). -/
theorem selectStopsAtFailure : Obligations.SelectStopsAtFailure := by
  intro s k us rest ha hk hx
  obtain ⟨u, hfails, htx, hlen⟩ := writeList_err (cmdMatchRom :: romAt s.mem (bufferA s)) k us (start .select s) rest
    (by rwa [matchRom_romAt_length]) hx
  rw [exec_select_admitted ha, hfails, endWrite_fail]
  exact ⟨_, rfl, raise_ended .channelError u, htx, hlen⟩

/-! ### `SKIP` -/

theorem exec_skip (s : State) : exec .skip s = .next (endWrite (writeP cmdSkipRom 8 false (start .skip s))) := rfl

/-- SKIP ROM, 0xCC, on the wire: its bits from the lowest are 0, 0, 1, 1, 0, 0, 1, 1 (R116, R120). -/
theorem bitsTrain_skipRom (p : Params) : bitsTrain p cmdSkipRom 8
    = slot p false ++ slot p false ++ slot p true ++ slot p true
      ++ slot p false ++ slot p false ++ slot p true ++ slot p true ++ [.endMark] := rfl

/-- Settles O36: `SKIP` writes one group (`writeGroup_sends`), and an operation of one group keeps `RDATA` and the
SearchState (`execSkip_quiet`). -/
theorem skipSendsOneByte : Obligations.SkipSendsOneByte := by
  intro s hd hx
  obtain ⟨t, ht, hended, hev⟩ := writeGroup_sends .skip cmdSkipRom (n := 8) (by decide) false hd hx
  have hq : Quiet false s t := execSkip_quiet ht
  rw [bitsTrain_skipRom] at hev
  exact ⟨t, (exec_skip s).trans ht, hended, hq.rdata, hq.search, hev⟩

end Sys2Proof.Machine
end

section
/-! PROOFS. The SearchState operations, the direction rule, and what the search operations leave unchanged (spec
43_search.md R280 to R290, R295, R296, R302 to R304). -/

namespace Sys2Proof.Machine

/-! ### The direction (R294, R295) -/

/-- Where the devices still answering agree on the bit, the direction is that bit (R294). -/
theorem chooseDirection_agreement {x : SearchState} {l : SearchLocals} (h : l.idBit ≠ l.cmpIdBit) :
    chooseDirection x l = l.idBit := by simp [chooseDirection, h]

/-- A discrepancy takes the branch of R295. -/
theorem chooseDirection_discrepancy {x : SearchState} {l : SearchLocals} (h : l.idBit = l.cmpIdBit) :
    chooseDirection x l = branchDirection x l := by simp [chooseDirection, h]

theorem branchDirection_below {x : SearchState} {l : SearchLocals} (h : l.idBitNumber < x.ld.toNat) :
    branchDirection x l = maskedBit x.romNo l.romByteNumber l.romByteMask := if_pos h

theorem branchDirection_at {x : SearchState} {l : SearchLocals} (h : l.idBitNumber = x.ld.toNat) :
    branchDirection x l = true := by simp [branchDirection, h]

theorem branchDirection_above {x : SearchState} {l : SearchLocals} (h : x.ld.toNat < l.idBitNumber) :
    branchDirection x l = false := by
  have hne : l.idBitNumber ≠ x.ld.toNat := by omega
  simp [branchDirection, h.le, hne]

/-- Settles O47, by where the position lies from `LD`. -/
theorem directionRule : Obligations.DirectionRule := fun _ _ =>
  ⟨chooseDirection_agreement,
    fun h hp => (chooseDirection_discrepancy h).trans (branchDirection_below hp),
    fun h hp => (chooseDirection_discrepancy h).trans (branchDirection_at hp),
    fun h hp => (chooseDirection_discrepancy h).trans (branchDirection_above hp)⟩

/-! ### The record of a zero branch (R296) -/

theorem recordsZero_iff (l : SearchLocals) :
    recordsZero l = true ↔ l.idBit = l.cmpIdBit ∧ l.direction = false := by simp [recordsZero]

theorem recordLocals_lastZero {l : SearchLocals} (h : recordsZero l = true) :
    (recordLocals l).lastZero = l.idBitNumber := by simp [recordLocals, h]

theorem recordLocals_same {l : SearchLocals} (h : ¬ recordsZero l = true) : recordLocals l = l := if_neg h

theorem recordFamily_lfd {l : SearchLocals} (x : SearchState) (h : recordsZero l = true) (hp : l.idBitNumber < 9) :
    (recordFamily l x).lfd.toNat = l.idBitNumber := by
  have h16 : l.idBitNumber < 16 := by omega
  simpa [recordFamily, h, hp] using h16

theorem recordFamily_same {l : SearchLocals} (x : SearchState) (h : ¬ (recordsZero l = true ∧ l.idBitNumber < 9)) :
    recordFamily l x = x := by
  rw [recordFamily, if_neg (by rwa [Bool.and_eq_true, decide_eq_true_eq])]

/-- Settles O48: both records are made exactly when `recordsZero` holds, that of `LFD` inside the family byte only. -/
theorem zeroBranchRecorded : Obligations.ZeroBranchRecorded := by
  refine fun x l => ⟨fun heq hdir => ?_, fun h => ?_⟩
  · have hrec := (recordsZero_iff l).2 ⟨heq, hdir⟩
    exact ⟨recordLocals_lastZero hrec, recordFamily_lfd x hrec, fun h9 => recordFamily_same x fun h => by omega⟩
  · have hrec : ¬ recordsZero l = true := by
      rw [recordsZero_iff]
      rintro ⟨heq, hdir⟩
      rcases h with hne | htrue
      · exact hne heq
      · rw [hdir] at htrue; cases htrue
    exact ⟨recordLocals_same hrec, recordFamily_same x fun h => hrec h.1⟩

/-! ### `RESET_SEARCH` and `TARGET_SEARCH` -/

theorem exec_resetSearch (s : State) :
    exec .resetSearch s = .next (complete true (setSearch SearchState.zero (start .resetSearch s))) := rfl

theorem exec_targetSearch (f : Byte) (s : State) :
    exec (.targetSearch f) s = .next (complete true (setSearch (targetSeed f) (start (.targetSearch f) s))) := rfl

theorem encode_targetSearch (f : Byte) : encode (.targetSearch f) = 0x0000000D#32 ||| (f.setWidth 32 <<< 16) :=
  BitVec.or_comm _ _

/-- Settles O38: `SearchState.zero` replaces the SearchState, and no call is made. -/
theorem resetSearchZeroes : Obligations.ResetSearchZeroes := by
  refine ⟨rfl, fun s => ?_⟩
  rw [exec_resetSearch]
  exact ⟨_, rfl, rfl, fun _ hk => romByte_zero hk, rfl, rfl, rfl, complete_ended true _, rfl, ⟨rfl, rfl, rfl, rfl⟩, rfl⟩

/-- The seed holds the family in byte 0, and nothing else (R285). -/
theorem romByte_targetSeed (f : Byte) {k : Nat} (h1 : 1 ≤ k) (h8 : k < 8) :
    romByte (targetSeed f).romNo k = 0x00#8 := by
  interval_cases k <;> rfl

/-- Settles O39: the seed's `LD` is 64, so a discrepancy at 1 to 63 lies below it and one at 64 is at it (R295). -/
theorem targetSearchSeeds : Obligations.TargetSearchSeeds := by
  refine fun s f => ⟨encode_targetSearch f, ?_⟩
  rw [exec_targetSearch]
  refine ⟨_, rfl, rfl, fun _ h1 h8 => romByte_targetSeed f h1 h8, rfl, rfl, rfl, complete_ended true _, rfl,
    ⟨rfl, rfl, rfl, rfl⟩, rfl, fun l heq => ⟨fun hlt => ?_, fun h64 => ?_⟩⟩
  · exact (chooseDirection_discrepancy heq).trans (branchDirection_below (x := targetSeed f) hlt)
  · exact (chooseDirection_discrepancy heq).trans (branchDirection_at (x := targetSeed f) h64)

/-! ### `SEARCH` after the last device, and the frame of the search operations -/

/-- Settles O40, by `execSearch_lastDevice`. -/
theorem searchAfterLastDevice : Obligations.SearchAfterLastDevice := fun _ hl =>
  ⟨_, execSearch_lastDevice hl, complete_ended false _, ⟨rfl, rfl, rfl, rfl⟩, rfl, rfl, rfl⟩

@[simp] theorem memWriteList_events (a : Nat) (bs : List Byte) (s : State) :
    (memWriteList a bs s).events = s.events := by rw [memWriteList_eq]

@[simp] theorem memWriteList_rdata (a : Nat) (bs : List Byte) (s : State) :
    (memWriteList a bs s).rdata = s.rdata := by rw [memWriteList_eq]

theorem endSearch_rdata (r : SearchEnd × State) : (endSearch r).rdata = r.2.rdata := by
  obtain ⟨_ | _ | k, u⟩ := r
  · exact memWriteList_rdata _ _ u
  · rfl
  · rfl

/-- A search makes no call after its walk. -/
theorem endSearch_events (r : SearchEnd × State) : (endSearch r).events = r.2.events := by
  obtain ⟨_ | _ | k, u⟩ := r
  · exact memWriteList_events _ _ u
  · rfl
  · rfl

theorem WalkRun.operandA {s t : State} (h : WalkRun s t) : operandA t = operandA s := by
  rw [Machine.operandA, h.snap]; rfl

/-- A found ROM goes to the eight bytes from the buffer address (R303). -/
theorem endSearch_outside (r : SearchEnd × State) : SameBytesOutside (operandA r.2) 8 r.2 (endSearch r) := by
  obtain ⟨_ | _ | k, u⟩ := r
  · exact fun a ha => memWriteList_other u.search.romNo.toList (operandA u) u (by rwa [Vector.length_toList])
  · exact fun _ _ => rfl
  · exact fun _ _ => rfl

/-- What a search leaves of `RDATA` and of the memory. -/
theorem execSearch_frame {s t : State} (h : execSearch s = .next t) :
    t.rdata = s.rdata ∧ SameBytesOutside (bufferA s) 8 s t ∧ (t.result = false → SameBytes s t) := by
  rcases execSearch_cases h with ⟨-, rfl⟩ | ⟨-, rfl, -⟩
  · exact ⟨rfl, fun _ _ => rfl, fun _ _ => rfl⟩
  · have hw := searchBus_walk (start .search s)
    generalize searchBus (start .search s) = r at hw ⊢
    refine ⟨(endSearch_rdata r).trans hw.rdata, fun a ha => ?_, fun hr => ?_⟩
    · rw [endSearch_outside r a (by rwa [hw.operandA]), hw.mem, start_mem]
    · have hf : r.1 ≠ .found := fun hf => by rw [endSearch_result.2 hf] at hr; cases hr
      exact .of_mem ((endSearch_mem hf).trans hw.mem)

/-- Settles O54: the Host's side as for every operation (`exec_ran`), and the memory by operation. -/
theorem searchFrame : Obligations.SearchFrame := by
  intro s t i hi h
  refine ⟨(exec_ran h).host, ?_⟩
  rcases hi with rfl | rfl | ⟨f, rfl⟩
  · obtain ⟨hrd, hout, hsame⟩ := execSearch_frame h
    exact ⟨hrd, hout, fun hn => hsame (by simpa using hn)⟩
  · cases h; exact ⟨rfl, fun _ _ => rfl, fun _ _ => rfl⟩
  · cases h; exact ⟨rfl, fun _ _ => rfl, fun _ _ => rfl⟩

end Sys2Proof.Machine
end

section
/-! PROOFS. How a search ends, and its bus traffic (spec 43_search.md R291, R300 to R305, R313). -/

namespace Sys2Proof.Machine

/-! ### The ends of a search -/

/-- A search whose buffer is admitted uses the bus and ends as its walk did (R304). -/
theorem exec_search_admitted {s : State} (hl : s.search.ldf = false) (ha : bufferA s + 8 ≤ 2 ^ s.params.addrW) :
    exec .search s = .next (endSearch (searchBus (start .search s))) := by
  have hr : rangeAdmitted (start .search s) (bufferA s) romBytes = true := (rangeAdmitted_iff _ _ _).2 ha
  simp [exec, execSearch, hl, hr]

/-- The code a search's end leaves in `ERR` (R302, R303). -/
def endCode : SearchEnd → BitVec 3
  | .found => 0#3
  | .notFound => 0#3
  | .failed k => errCode k

theorem endSearch_ended (r : SearchEnd × State) :
    Ended (decide (r.1 = .found)) (endCode r.1) (endSearch r) := by
  obtain ⟨_ | _ | k, u⟩ := r
  · exact complete_ended true _
  · exact complete_ended false _
  · exact raise_ended k _

/-- A found device's SearchState is the one its walk left (R303). -/
theorem endSearch_search_found (u : State) : (endSearch (.found, u)).search = u.search :=
  memWriteList_search _ _ u

/-- A found ROM is read back from the buffer (R303). -/
theorem endSearch_stores {u : State} (hm : u.mem.wf = true) {k : Nat} (hk : k < 8) :
    (endSearch (.found, u)).mem.read (operandA u + k) = romByte u.search.romNo k := by
  have hread := memWriteList_read u.search.romNo.toList (operandA u) u hm k (by rwa [Vector.length_toList])
  rw [romByte_getElem _ hk, ← Vector.getElem_toList]
  exact hread

/-- The calls of a search that a call ended give its code, and it found nothing. -/
theorem CallsEnd.stops {p : Params} {n : Nat} {es : List Event} {r : SearchEnd} (h : CallsEnd p n es r) :
    r ≠ .found ∧ CallsStop p n es (endCode r) := by
  cases r with
  | found => exact h.elim
  | notFound => exact ⟨by simp, h⟩
  | failed k => exact ⟨by simp, h⟩

/-- A reset without presence ends the search before SEARCH ROM (R291). -/
theorem searchBus_noPresence {s u : State} (h : resetP s = (.ok false, u)) : searchBus s = (.notFound, u) := by
  simp [searchBus, h]

/-- Settles O42: the reset procedure answers no presence (`resetP_capture`), and the search ends there. -/
theorem searchWithoutPresence : Obligations.SearchWithoutPresence := by
  intro s c hd hl ha hx hr hnone
  have hev := receive_events s.params.tIdleRst s.params.tToReset (resetTrain s.params) (s := start .search s) hd hx hr
  have hp := resetP_capture (s := start .search s) hx hr
  have hw := (resetP_busRun (start .search s)).mem
  rw [start_params, hnone] at hp
  rw [hp] at hw
  rw [exec_search_admitted hl ha, searchBus_noPresence hp]
  exact ⟨_, rfl, endSearch_ended (.notFound, _), rfl, rfl, rfl, hw, hev⟩

/-- What a search that used the bus leaves: a found device's ROM and flags (R300, R301, R303), or those of the failure
path (R302). -/
def SearchLeaves (s t : State) : Prop :=
  (Ended true 0#3 t ∧ (t.search.ldf = true ↔ t.search.ld = 0#7) ∧ romByte t.search.romNo 0 ≠ 0x00#8
      ∧ (∀ k < 8, t.mem.read (bufferA s + k) = romByte t.search.romNo k))
    ∨ ((Ended false 0#3 t ∨ Ended false 1#3 t ∨ Ended false 2#3 t)
      ∧ t.search.ld = 0#7 ∧ t.search.lfd = 0#4 ∧ t.search.ldf = false ∧ t.mem = s.mem)

theorem endSearch_leaves {s u : State} {r : SearchEnd} (e : searchBus (start .search s) = (r, u))
    (hm : s.mem.wf = true) (hf : s.search.ldf = false) : SearchLeaves s (endSearch (r, u)) := by
  have hw := searchBus_walk (start .search s)
  rw [e] at hw
  have hend := endSearch_ended (r, u)
  have hmem : u.mem = s.mem := hw.mem
  cases r with
  | found =>
    obtain ⟨-, -, hldf, hfam, -⟩ := searchBus_found e hf
    rw [← endSearch_search_found u] at hldf hfam
    refine .inl ⟨hend, hldf, hfam, fun k hk => ?_⟩
    rw [show bufferA s = operandA u from hw.operandA.symm, endSearch_search_found]
    exact endSearch_stores (by rw [hmem]; exact hm) hk
  | notFound => exact .inr ⟨.inl hend, rfl, rfl, rfl, hmem⟩
  | failed k =>
    refine .inr ⟨.inr ?_, rfl, rfl, rfl, hmem⟩
    rcases searchBus_failed (congrArg Prod.fst e) with rfl | rfl
    · exact .inl hend
    · exact .inr hend

/-- Settles O41: `endSearch_leaves`, and the calls by `searchBus_cases`. -/
theorem searchOutcomes : Obligations.SearchOutcomes := by
  intro s hm hf ha
  rcases e : searchBus (start .search s) with ⟨r, u⟩
  obtain ⟨es, he, hc⟩ := searchBus_cases e
  have hend := endSearch_ended (r, u)
  rw [exec_search_admitted hf ha, e]
  refine ⟨_, rfl, endSearch_leaves e hm hf, es, (endSearch_events _).trans he, ?_⟩
  rcases hc with hstop | ⟨hgo, hlen, hr, -, -, -, presence, caps, -, hev⟩
  · obtain ⟨hne, hstop⟩ := hstop.stops
    exact .inl ⟨endCode r, hstop, by rwa [decide_eq_false hne] at hend⟩
  · refine .inr ⟨hgo, hlen, u.search.romNo, ?_, fun hres => ?_, presence, caps, hev⟩
    · by_cases h0 : romByte u.search.romNo 0 = 0x00#8
      · rw [if_pos h0] at hr; subst hr
        simpa [h0, endCode] using hend
      · rw [if_neg h0] at hr; subst hr
        simpa [h0, endCode] using hend
    · obtain rfl : r = .found := endSearch_result.1 hres
      rw [endSearch_search_found]

/-! ### The traffic of a search that finds a device -/

/-- The calls of a whole walk, counted: the preamble's five and those of 64 positions alike. -/
theorem walkEvents_countP {f : Event → Bool} {p : Params} {k : Nat}
    (hk : ∀ c d, (positionEvents p c d).countP f = k) (presence : Capture) (caps : Nat → Capture)
    (rom : Vector Byte 8) :
    (walkEvents p presence caps rom).countP f
      = (receiveEvents p.tIdleRst p.tToReset (resetTrain p) presence
          ++ [Event.transmit (bitsTrain p cmdSearchRom 8) false .ok]).countP f + 64 * k := by
  have hconst : (List.countP f ∘ fun i => positionEvents p (caps i) (romBit rom (i + 1))) = fun _ => k :=
    funext fun i => hk (caps i) _
  rw [walkEvents, List.countP_append, List.countP_flatMap, hconst, List.map_const', List.sum_replicate,
    List.length_range]
  rfl

theorem lineHistory_receiveEvents (idle timeout : Nat) (t : Train) (c : Capture) :
    lineHistory (receiveEvents idle timeout t c) = trainSegments t := by
  simp [lineHistory, receiveEvents, carried]

theorem lineHistory_transmit (t : Train) (drive : Bool) : lineHistory [.transmit t drive .ok] = trainSegments t := by
  simp [lineHistory, carried]

theorem bitsTrain_lasts {p : Params} (hp : p.Valid) (d : Byte) (n : Nat) :
    lasts (trainSegments (bitsTrain p d n)) = n * p.timing.tSlot := by
  rw [bitsTrain, slotTrain_lasts hp, groupBits_length]

theorem readTrain_lasts {p : Params} (hp : p.Valid) (n : Nat) :
    lasts (trainSegments (readTrain p n)) = n * p.timing.tSlot := by
  rw [readTrain_eq, slotTrain_lasts hp, List.length_replicate]

/-- A position takes three slots: two read and one written. -/
theorem positionEvents_lasts {p : Params} (hp : p.Valid) (c : Capture) (d : Bool) :
    lasts (lineHistory (positionEvents p c d)) = 3 * p.timing.tSlot := by
  rw [positionEvents, lineHistory_append, lasts_append, lineHistory_receiveEvents, lineHistory_transmit,
    readTrain_lasts hp, bitsTrain_lasts hp]
  ring

/-- Runs of calls of one length of line time follow each other. -/
theorem lasts_lineHistory_flatMap {α : Type} {f : α → List Event} {k : Nat}
    (h : ∀ x, lasts (lineHistory (f x)) = k) (l : List α) :
    lasts (lineHistory (l.flatMap f)) = l.length * k := by
  induction l with
  | nil => simp [lasts, lineHistory]
  | cons x l ih => rw [List.flatMap_cons, lineHistory_append, lasts_append, h, ih, List.length_cons]; ring

/-- The reset low, the eight slots of SEARCH ROM, and 64 positions of three slots. -/
theorem walkEvents_lasts {p : Params} (hp : p.Valid) (presence : Capture) (caps : Nat → Capture)
    (rom : Vector Byte 8) :
    lasts (lineHistory (walkEvents p presence caps rom)) = p.timing.tRstl + 200 * p.timing.tSlot := by
  have hreset : lasts (trainSegments (resetTrain p)) = p.timing.tRstl := by
    simp [resetTrain, trainSegments, pulse, lasts]
  rw [walkEvents, lineHistory_append, lineHistory_append, lasts_append, lasts_append, lineHistory_receiveEvents,
    lineHistory_transmit, hreset, bitsTrain_lasts hp,
    lasts_lineHistory_flatMap fun i => positionEvents_lasts hp (caps i) (romBit rom (i + 1)), List.length_range, romBits]
  ring

/-- Settles O43: the calls are those of `searchBus_found`, counted and timed part by part. -/
theorem searchTraffic : Obligations.SearchTraffic := by
  intro s t hd h hres
  rcases execSearch_cases h with ⟨-, rfl⟩ | ⟨hf, rfl, -⟩
  · cases hres
  · rcases e : searchBus (start .search s) with ⟨r, u⟩
    rw [e] at hres
    obtain rfl : r = .found := endSearch_result.1 hres
    obtain ⟨-, -, -, -, presence, caps, hpres, hev⟩ := searchBus_found e hf
    rw [endSearch_search_found]
    exact ⟨presence, caps, (endSearch_events _).trans (hev hd), hpres,
      walkEvents_countP (k := 2) (fun _ _ => rfl) .., walkEvents_countP (k := 1) (fun _ _ => rfl) ..,
      walkEvents_countP (k := 1) (fun _ _ => rfl) .., walkEvents_countP (k := 1) (fun _ _ => rfl) ..,
      fun hp => walkEvents_lasts hp presence caps u.search.romNo⟩

end Sys2Proof.Machine
end

section
/-! PROOFS. Searches of a set of devices: the path through the tree of their codes, repeated searches, and targeted ones
(spec 43_search.md R292 to R303, R310 to R312). -/

namespace Sys2Proof.Machine

/-- `rom` is the code the direction rule leads to from the SearchState `x` among the codes `ds` (R295): at every fork on
its path its bit is the replayed one below `LD`, 1 at `LD`, and 0 above. -/
def LeadsTo (ds : List (Vector Byte 8)) (x : SearchState) (rom : Vector Byte 8) : Prop :=
  ∀ q, 1 ≤ q → q ≤ 64 → forksAt ds rom q = true →
    romBit rom q = if q < x.ld.toNat then romBit x.romNo q else decide (q = x.ld.toNat)

/-- Settles O44: `execSearch_follows`, the pair read at a position being the one its answers choose. -/
theorem searchFollowsTheTree : Obligations.SearchFollowsTheTree := by
  intro s ds rom presence pair txs rxs hm hf ha hr hfam hpres hpair hdir hx hrx
  exact execSearch_follows s ds rom presence (fun p => pair (idAnswer ds rom p) (complementAnswer ds rom p)) txs rxs
    hm hf ha hr (hfam rom hr) hpres (fun _ _ _ => hpair _ _) hdir hx hrx

/-! ### Repeated searches (R310) -/

/-- The SearchState before search `k` of the codes `roms`, in tree order: the rule leads to the `k`-th of them, and
`LDF` = 1 once they have all been found. -/
structure BeforeSearch (roms : List (Vector Byte 8)) (k : Nat) (x : SearchState) : Prop where
  ldf : x.ldf = true ↔ roms ≠ [] ∧ roms.length ≤ k
  leads : ∀ h : k < roms.length, LeadsTo roms x roms[k]

/-- From zero the rule takes 0 at every fork, which leads to the first code. -/
theorem beforeSearch_zero {roms : List (Vector Byte 8)} (hs : roms.Pairwise fun x y => romKey x < romKey y) :
    BeforeSearch roms 0 SearchState.zero where
  ldf := by simp [SearchState.zero]
  leads h q h1 h64 hf := by
    have hq : q ≠ 0 := by omega
    rw [first_rule hs h q h1 h64 hf]
    simp [SearchState.zero, hq]

/-- From a code found and its last zero fork the rule leads to the next code (`successor_rule`); the last code has no
zero fork, and sets `LDF`. -/
theorem beforeSearch_succ {roms : List (Vector Byte 8)} (hs : roms.Pairwise fun x y => romKey x < romKey y) {k : Nat}
    (hk : k < roms.length) {x : SearchState} (hrom : x.romNo = roms[k])
    (hld : x.ld.toNat = lastZeroFork roms roms[k] 64) (hldf : x.ldf = true ↔ lastZeroFork roms roms[k] 64 = 0) :
    (x.ldf = true ↔ k + 1 = roms.length) ∧ BeforeSearch roms (k + 1) x := by
  have hlast : x.ldf = true ↔ k + 1 = roms.length := by
    rw [hldf]
    refine ⟨fun h0 => ?_, last_none hs hk⟩
    by_contra hne
    obtain ⟨p, hp, h1, -⟩ := successor hs (k := k) (by omega)
    omega
  refine ⟨hlast, ⟨?_, fun hk' q h1 h64 hf => ?_⟩⟩
  · rw [hlast]
    have hne : roms ≠ [] := List.ne_nil_of_length_pos (by omega)
    simp only [ne_eq, hne, not_false_eq_true, true_and]
    omega
  · rw [hld, hrom]
    exact successor_rule hs hk' q h1 h64 hf

/-- What search `k` of the codes `roms` gives (R310). -/
def SearchGives (roms : List (Vector Byte 8)) (k : Nat) (s t : State) : Prop :=
  (∀ h : k < roms.length,
      t.result = true ∧ t.search.romNo = roms[k] ∧ (t.search.ldf = true ↔ k + 1 = roms.length)
        ∧ ∀ i < 8, t.mem.read (bufferA s + i) = romByte roms[k] i)
    ∧ (roms.length ≤ k →
      t.result = false ∧ t.err = 0#3 ∧ (t.search.ldf = true ↔ roms ≠ []) ∧ (roms ≠ [] → NoChannelCall s t))

section
variable {p : Params} {tm : BusTiming} {s t : State} {b b' : RefBus}

/-- A search on the bus finds the code the rule leads to, for the devices' codes listed in any order. -/
theorem exec_search_leadsTo (hp : p.Valid) (ht : tm.Valid p) (hd0 : tm.tD0 < p.timing.tSlot) (hsp : s.params = p)
    (h : exec .search s = .next t) (hf : s.search.ldf = false) (hr : busRun p tm b (newEvents s t) = some b')
    {roms : List (Vector Byte 8)} (hmem : ∀ d, d ∈ romsOf b ↔ d ∈ roms) {rom : Vector Byte 8} (hrom : rom ∈ roms)
    (hfam : romByte rom 0 ≠ 0x00#8) (hl : LeadsTo roms s.search rom) :
    t.result = true ∧ t.search.romNo = rom ∧ t.search.ld.toNat = lastZeroFork roms rom 64
      ∧ (t.search.ldf = true ↔ lastZeroFork roms rom 64 = 0)
      ∧ (s.mem.wf = true → ∀ i < 8, t.mem.read (bufferA s + i) = romByte rom i) := by
  have hfound := (execSearch_onBus hp ht hd0 hsp h hf hr).2 rom ((hmem rom).2 hrom) hfam
    fun q h1 h64 hq => hl q h1 h64 (by rwa [← forksAt_congr hmem])
  rwa [lastZeroFork_congr hmem] at hfound

/-- One search of the repetition: it gives what R310 says, and leaves the SearchState before the next. -/
theorem exec_search_enumerates (hp : p.Valid) (ht : tm.Valid p) (hd0 : tm.tD0 < p.timing.tSlot) (hsp : s.params = p)
    (hm : s.mem.wf = true) (h : exec .search s = .next t) (hr : busRun p tm b (newEvents s t) = some b')
    {roms : List (Vector Byte 8)} (hs : roms.Pairwise fun x y => romKey x < romKey y)
    (hfam : ∀ x ∈ roms, romByte x 0 ≠ 0x00#8) (hperm : (romsOf b).Perm roms) {k : Nat}
    (hk : BeforeSearch roms k s.search) :
    SearchGives roms k s t ∧ BeforeSearch roms (k + 1) t.search := by
  by_cases hlt : k < roms.length
  · have hf : s.search.ldf = false := by
      rw [← Bool.not_eq_true, hk.ldf]
      omega
    obtain ⟨hres, hrom, hld, hldf, hstored⟩ := exec_search_leadsTo hp ht hd0 hsp h hf hr (fun _ => hperm.mem_iff)
      (List.getElem_mem hlt) (hfam _ (List.getElem_mem hlt)) (hk.leads hlt)
    obtain ⟨hlast, hnext⟩ := beforeSearch_succ hs hlt hrom hld hldf
    exact ⟨⟨fun _ => ⟨hres, hrom, hlast, hstored hm⟩, fun hle => by omega⟩, hnext⟩
  · by_cases hne : roms = []
    · subst hne
      have hf : s.search.ldf = false := by simp [← Bool.not_eq_true, hk.ldf]
      obtain ⟨hres, herr, hldf⟩ := (execSearch_onBus hp ht hd0 hsp h hf hr).1 hperm.eq_nil
      exact ⟨⟨fun h => absurd h hlt, fun _ => ⟨hres, herr, by simp [hldf], fun h => absurd rfl h⟩⟩,
        ⟨by simp [hldf], fun h => absurd h (by simp)⟩⟩
    · have hl : s.search.ldf = true := hk.ldf.2 ⟨hne, by omega⟩
      obtain ⟨t', ht', hended, hcalls, -, hx, -⟩ := searchAfterLastDevice s hl
      obtain rfl : t' = t := Host.Outcome.next.inj (ht'.symm.trans h)
      rw [← hx] at hl
      exact ⟨⟨fun h => absurd h hlt, fun _ => ⟨hended.result, hended.err, iff_of_true hl hne, fun _ => hcalls⟩⟩,
        ⟨iff_of_true hl ⟨hne, by omega⟩, fun h => by omega⟩⟩

end

/-- Settles O45: the SearchState before each search is kept by the search before it (`exec_search_enumerates`). -/
theorem repeatedSearchEnumerates : Obligations.RepeatedSearchEnumerates := by
  intro p tm roms N s t b b' hp ht hd0 hs hfam hzero hlink hrun
  have step (k : Nat) (hk : k < N) (hx : BeforeSearch roms k (s k).search) :
      SearchGives roms k (s k) (t k) ∧ BeforeSearch roms (k + 1) (t k).search := by
    obtain ⟨hsp, hm, hperm, hexec, hbus⟩ := hrun k hk
    exact exec_search_enumerates hp ht hd0 hsp hm hexec hbus hs hfam hperm hx
  have before (k : Nat) (hk : k < N) : BeforeSearch roms k (s k).search := by
    induction k with
    | zero => rw [hzero]; exact beforeSearch_zero hs
    | succ k ih =>
      rw [hlink k hk]
      exact (step k (by omega) (ih (by omega))).2
  exact fun k hk => (step k hk (before k hk)).1

/-! ### Targeted searches (R311) -/

/-- Two codes of the same family agree on positions 1 to 8. -/
theorem romBit_of_family {r d : Vector Byte 8} (h : romByte r 0 = romByte d 0) {q : Nat} (h8 : q ≤ 8) (h1 : 1 ≤ q) :
    romBit r q = romBit d q := by
  rw [romBit, romBit, show (q - 1) / 8 = 0 by omega, h]

/-- Codes that agree on positions 1 to 8 are of the same family. -/
theorem family_of_romBit {r d : Vector Byte 8} (h : ∀ q, 1 ≤ q → q ≤ 8 → romBit r q = romBit d q) :
    romByte r 0 = romByte d 0 := by
  apply BitVec.eq_of_getLsbD_eq
  intro j hj
  have hq := h (j + 1) (by omega) (by omega)
  rwa [romBit, romBit, show (j + 1 - 1) / 8 = 0 by omega, show (j + 1 - 1) % 8 = j by omega] at hq

/-- Beyond the family byte the seed replays 0 (R285). -/
theorem romBit_targetSeed (f : Byte) {q : Nat} (h9 : 9 ≤ q) (h64 : q ≤ 64) :
    romBit (targetSeed f).romNo q = false := by
  rw [romBit, romByte_targetSeed f (by omega) (by omega)]
  exact BitVec.getLsbD_zero

/-- Where two codes of `ds` first differ, the path along either has a fork. -/
theorem forksAt_of_difference {ds : List (Vector Byte 8)} {r d : Vector Byte 8} (hr : r ∈ ds) (hd : d ∈ ds) {q : Nat}
    (ha : agreesBefore r d q = true) (hne : romBit r q ≠ romBit d q) : forksAt ds r q = true := by
  refine (forksAt_iff _ _ _).2 fun v => ?_
  by_cases hv : romBit r q = v
  · exact ⟨r, hr, (agrees_iff _ _ _).2 fun _ _ _ => rfl, hv⟩
  · refine ⟨d, hd, ha, ?_⟩
    by_contra hv'
    exact hne ((Bool.eq_not.2 hv).trans (Bool.eq_not.2 hv').symm)

section
variable {ds : List (Vector Byte 8)} {f : Byte} {rom d : Vector Byte 8}

/-- Below position 64 the code a targeted search leads to takes the seed's bit where it first differs from another. -/
theorem romBit_of_target (hl : LeadsTo ds (targetSeed f) rom) (hr : rom ∈ ds) (hd : d ∈ ds) {q : Nat} (h1 : 1 ≤ q)
    (h64 : q < 64) (ha : agreesBefore rom d q = true) (hne : romBit rom q ≠ romBit d q) :
    romBit rom q = romBit (targetSeed f).romNo q := by
  have hbit := hl q h1 h64.le (forksAt_of_difference hr hd ha hne)
  rwa [if_pos (show q < (targetSeed f).ld.toNat from h64)] at hbit

/-- A targeted search leads to a device of the family when there is one (R311). -/
theorem family_of_target (hl : LeadsTo ds (targetSeed f) rom) (hr : rom ∈ ds) (hd : d ∈ ds)
    (hf : romByte d 0 = f) : romByte rom 0 = f := by
  rw [← hf]
  refine family_of_romBit fun q => ?_
  induction q using Nat.strong_induction_on with
  | _ q ih =>
    intro h1 h8
    by_contra hne
    have ha : agreesBefore rom d q = true :=
      (agrees_iff _ _ _).2 fun i hi1 hiq => (ih i hiq hi1 (by omega)).symm
    have hseed := romBit_of_target hl hr hd h1 (by omega) ha hne
    exact hne (hseed.trans (romBit_of_family (r := (targetSeed f).romNo) hf.symm h8 h1))

/-- Of that family it leads to the first in tree order, but for codes that differ from it at position 64 only: beyond
the family byte the rule takes 0 at every fork before the last. -/
theorem first_of_target (hl : LeadsTo ds (targetSeed f) rom) (hr : rom ∈ ds) (hd : d ∈ ds) (hf : romByte d 0 = f) :
    romKey rom ≤ romKey d ∨ agreesBefore rom d 64 = true := by
  by_cases he : rom = d
  · exact .inl (by rw [he])
  obtain ⟨q, h1, h64, ha, hne⟩ := first_difference he
  obtain rfl | hlt : q = 64 ∨ q < 64 := by omega
  · exact .inr ha
  · have h9 : ¬ q ≤ 8 := fun h8 =>
      hne (romBit_of_family ((family_of_target hl hr hd hf).trans hf.symm) h8 h1)
    have h0 := romBit_of_target hl hr hd h1 hlt ha hne
    rw [romBit_targetSeed f (by omega) h64] at h0
    refine .inl (romKey_lt h1 h64 ha h0 ?_).le
    simpa [h0] using hne

end

/-- Settles O46: from the seed the rule leads to some code (`target_exists`), and the search finds it. -/
theorem targetedSearchFindsFamily : Obligations.TargetedSearchFindsFamily := by
  intro p tm f s₀ s₁ s t b b' hp ht hd0 hseed hs hsp hne hfam h hr
  have hx : s.search = targetSeed f := by
    rw [hs]
    cases hseed
    rfl
  obtain ⟨rom, hrom, hl⟩ := target_exists (ds := romsOf b) (by simpa [romsOf] using hne) s.search
  have hfam0 : romByte rom 0 ≠ 0x00#8 := by
    obtain ⟨d, hd, rfl⟩ := List.mem_map.1 hrom
    exact hfam d hd
  obtain ⟨hres, hno, -⟩ := exec_search_leadsTo hp ht hd0 hsp h (by rw [hx]; rfl) hr (fun _ => Iff.rfl) hrom hfam0 hl
  have hlead : LeadsTo (romsOf b) (targetSeed f) rom := hx ▸ hl
  rw [hno]
  refine ⟨hres, hrom, fun ⟨d, hd, hdf⟩ => ⟨?_, fun e he hef => ?_⟩⟩
  · exact family_of_target hlead hrom (List.mem_map_of_mem hd) hdf
  · exact first_of_target hlead hrom (List.mem_map_of_mem he) hef

end Sys2Proof.Machine
end

section
/-! PROOFS. The error kinds each operation can end with (spec 60_exceptions.md R332, R333). -/

namespace Sys2Proof.Machine

/-! ### The table of R333 -/

/-- The kinds an operation can raise: a row of the table of R333, by its columns. -/
def Raisable (i : Instr) : ErrKind → Prop
  | .channelError => i ≠ .resetSearch ∧ ∀ f, i ≠ .targetSearch f
  | .timeout => i = .reset ∨ i = .readBit ∨ (∃ n, i = .readBits n) ∨ i = .readByte ∨ i = .readBytes ∨ i = .search
  | .protocolViolation =>
    (∃ d n pwr, i = .writeBits d n pwr ∧ (n = 0 ∨ 8 < n)) ∨ ∃ n, i = .readBits n ∧ (n = 0 ∨ 8 < n)
  | .illegalCommand => False

/-- The ends R332 and R333 allow an operation: completed, completed with `RESULT` = 0 when it is `RESET` or `SEARCH`, or a
kind of its row raised. -/
def EndsByTable (i : Instr) (t : State) : Prop :=
  Ended true 0#3 t ∨ ((i = .reset ∨ i = .search) ∧ Ended false 0#3 t) ∨ ∃ k, Raisable i k ∧ Ended false (errCode k) t

theorem complete_true_byTable (i : Instr) (m : State) : EndsByTable i (complete true m) := .inl (complete_ended true m)

theorem complete_byTable {i : Instr} (hi : i = .reset ∨ i = .search) (r : Bool) (m : State) :
    EndsByTable i (complete r m) := by
  cases r with
  | true => exact complete_true_byTable i m
  | false => exact .inr (.inl ⟨hi, complete_ended false m⟩)

theorem raise_byTable {i : Instr} {k : ErrKind} (hk : Raisable i k) (m : State) : EndsByTable i (raise k m) :=
  .inr (.inr ⟨k, hk, raise_ended k m⟩)

/-! ### The kinds a procedure fails with -/

/-- A write procedure fails with a kind of the operation's row when that row has `ChannelError`, and `ProtocolViolation`
if the bit count is outside 1 to 8. -/
theorem writeP_raisable {i : Instr} {d : Byte} {n : Nat} {pwr : Bool} {s : State} {k : ErrKind}
    (hc : Raisable i .channelError) (hp : n = 0 ∨ 8 < n → Raisable i .protocolViolation)
    (h : (writeP d n pwr s).1 = .fail k) : Raisable i k := by
  rcases writeP_fail h with ⟨rfl, -⟩ | ⟨rfl, hn⟩
  · exact hc
  · exact hp ((groupOk_false_iff n).1 hn)

/-- A read procedure, likewise, when the row has `Timeout` too. -/
theorem readP_raisable {i : Instr} {n : Nat} {s : State} {k : ErrKind} (hc : Raisable i .channelError)
    (ht : Raisable i .timeout) (hp : n = 0 ∨ 8 < n → Raisable i .protocolViolation)
    (h : (readP n s).1 = .fail k) : Raisable i k := by
  rcases readP_fail h with ⟨rfl | rfl, -⟩ | ⟨rfl, hn⟩
  · exact hc
  · exact ht
  · exact hp ((groupOk_false_iff n).1 hn)

/-! ### The ends of the operations -/

theorem endWrite_byTable {i : Instr} {r : Res Unit × State} (h : ∀ k, r.1 = .fail k → Raisable i k) :
    EndsByTable i (endWrite r) := by
  rcases endWrite_cases r with ⟨-, e⟩ | ⟨k, hk, e⟩ <;> rw [e]
  · exact complete_true_byTable i _
  · exact raise_byTable (h k hk) _

theorem endRead_byTable {i : Instr} {r : Res Byte × State} (h : ∀ k, r.1 = .fail k → Raisable i k) :
    EndsByTable i (endRead r) := by
  rcases endRead_cases r with ⟨v, -, e⟩ | ⟨k, hk, e⟩ <;> rw [e]
  · exact complete_true_byTable i _
  · exact raise_byTable (h k hk) _

/-- A write of one group of 1 to 8 bits ends with `ChannelError` at worst (R203). -/
theorem writeGroup_byTable {i : Instr} (hc : Raisable i .channelError) (d : Byte) {n : Nat} (hn : ¬ (n = 0 ∨ 8 < n))
    (pwr : Bool) (s : State) : EndsByTable i (endWrite (writeP d n pwr s)) :=
  endWrite_byTable fun _ => writeP_raisable hc (absurd · hn)

/-- A read of one group of 1 to 8 bits ends with `ChannelError` or `Timeout` at worst (R204). -/
theorem readGroup_byTable {i : Instr} (hc : Raisable i .channelError) (ht : Raisable i .timeout) {n : Nat}
    (hn : ¬ (n = 0 ∨ 8 < n)) (s : State) : EndsByTable i (endRead (readP n s)) :=
  endRead_byTable fun _ => readP_raisable hc ht (absurd · hn)

theorem execReset_byTable {s t : State} (h : execReset s = .next t) : EndsByTable .reset t := by
  cases h
  rcases endPresence_cases (resetP (start .reset s)) with ⟨b, -, e⟩ | ⟨k, hk, e⟩ <;> rw [e]
  · exact complete_byTable (.inl rfl) b _
  · refine raise_byTable ?_ _
    rcases resetP_fail hk with rfl | rfl <;> simp [Raisable]

theorem writeBytesLoop_byTable {i : Instr} (hc : Raisable i .channelError) {pwr : Bool} {k : Nat} {s t : State}
    (h : writeBytesLoop pwr k s = .next t) : EndsByTable i t := by
  induction k generalizing s with
  | zero => cases h; exact complete_true_byTable i _
  | succ k ih =>
    simp only [writeBytesLoop] at h
    split at h
    · split at h <;> rename_i e
      · exact ih h
      · cases h; exact raise_byTable (writeP_raisable hc (absurd · (by decide)) (congrArg Prod.fst e)) _
    · cases h

theorem readBytesLoop_byTable {i : Instr} (hc : Raisable i .channelError) (ht : Raisable i .timeout) {k : Nat}
    {s t : State} (h : readBytesLoop k s = .next t) : EndsByTable i t := by
  induction k generalizing s with
  | zero => cases h; exact complete_true_byTable i _
  | succ k ih =>
    simp only [readBytesLoop] at h
    split at h <;> rename_i e <;> split at h
    · exact ih h
    · cases h
    · cases h; exact raise_byTable (readP_raisable hc ht (absurd · (by decide)) (congrArg Prod.fst e)) _
    · cases h

theorem execSelect_byTable {s t : State} (h : execSelect s = .next t) : EndsByTable .select t := by
  simp only [execSelect] at h
  split at h
  · cases h
    refine endWrite_byTable fun k hk => ?_
    rw [writeList_fail hk]
    simp [Raisable]
  · cases h

theorem execSearch_byTable {s t : State} (h : execSearch s = .next t) : EndsByTable .search t := by
  rcases execSearch_cases h with ⟨-, rfl⟩ | ⟨-, rfl, -⟩
  · exact complete_byTable (.inr rfl) false _
  · rcases e : searchBus (start .search s) with ⟨r, u⟩
    cases r with
    | found => exact complete_true_byTable _ _
    | notFound => exact complete_byTable (.inr rfl) false _
    | failed k =>
      refine raise_byTable ?_ _
      rcases searchBus_failed (congrArg Prod.fst e) with rfl | rfl <;> simp [Raisable]

/-- Every operation that answers a next state ends as its row of the table of R333 says. -/
theorem exec_byTable {i : Instr} {s t : State} (h : exec i s = .next t) : EndsByTable i t := by
  cases i with
  | reset => exact execReset_byTable h
  | writeBit v => cases h; exact writeGroup_byTable (by simp [Raisable]) _ (by decide) _ _
  | writeBits d n pwr =>
    cases h
    exact endWrite_byTable fun _ => writeP_raisable (by simp [Raisable]) fun hn => .inl ⟨d, n, pwr, rfl, hn⟩
  | writeByte d => cases h; exact writeGroup_byTable (by simp [Raisable]) _ (by decide) _ _
  | writeBytes pwr => exact writeBytesLoop_byTable (by simp [Raisable]) h
  | readBit => cases h; exact readGroup_byTable (by simp [Raisable]) (by simp [Raisable]) (by decide) _
  | readBits n =>
    cases h
    exact endRead_byTable fun _ =>
      readP_raisable (by simp [Raisable]) (by simp [Raisable]) fun hn => .inr ⟨n, rfl, hn⟩
  | readByte => cases h; exact readGroup_byTable (by simp [Raisable]) (by simp [Raisable]) (by decide) _
  | readBytes => exact readBytesLoop_byTable (by simp [Raisable]) (by simp [Raisable]) h
  | select => exact execSelect_byTable h
  | skip => cases h; exact writeGroup_byTable (by simp [Raisable]) _ (by decide) _ _
  | resetSearch => cases h; exact complete_true_byTable _ _
  | targetSearch f => cases h; exact complete_true_byTable _ _
  | search => exact execSearch_byTable h

/-! ### What `STATUS` says of the end -/

theorem errCode_injective : Function.Injective errCode := by
  intro k l h
  cases k <;> cases l <;> revert h <;> decide

theorem errCode_ne_none (k : ErrKind) : errCode k ≠ 0#3 := by cases k <;> decide

/-- A code other than 0 in `ERR` is that of a kind in the operation's row. -/
theorem EndsByTable.raised {i : Instr} {t : State} (h : EndsByTable i t) (he : t.err ≠ 0#3) :
    ∃ k, Raisable i k ∧ t.err = errCode k := by
  rcases h with h | ⟨-, h⟩ | ⟨k, hk, h⟩
  · exact absurd h.err he
  · exact absurd h.err he
  · exact ⟨k, hk, h.err⟩

/-- The kind whose code is in `ERR` is in the operation's row. -/
theorem EndsByTable.raisable {i : Instr} {t : State} (h : EndsByTable i t) {k : ErrKind} (he : t.err = errCode k) :
    Raisable i k := by
  obtain ⟨l, hl, hle⟩ := h.raised (he ▸ errCode_ne_none k)
  exact errCode_injective (hle.symm.trans he) ▸ hl

/-- No row has `IllegalCommand`: the code in `ERR` is at most 3. -/
theorem EndsByTable.err_cases {i : Instr} {t : State} (h : EndsByTable i t) :
    t.err = 0#3 ∨ t.err = 1#3 ∨ t.err = 2#3 ∨ t.err = 3#3 := by
  by_cases h0 : t.err = 0#3
  · exact .inl h0
  · obtain ⟨k, hk, he⟩ := h.raised h0
    cases k with
    | channelError => exact .inr (.inl he)
    | timeout => exact .inr (.inr (.inl he))
    | protocolViolation => exact .inr (.inr (.inr he))
    | illegalCommand => exact hk.elim

/-- `RESULT` = 0 without an error is an answer of `RESET` and `SEARCH` only (R332). -/
theorem EndsByTable.answered_false {i : Instr} {t : State} (h : EndsByTable i t) (he : t.err = 0#3)
    (hr : t.result = false) : i = .reset ∨ i = .search := by
  rcases h with h | ⟨hi, -⟩ | ⟨k, -, h⟩
  · exact absurd (hr.symm.trans h.result) (by decide)
  · exact hi
  · exact absurd (h.err.symm.trans he) (errCode_ne_none k)

/-- Settles O60: the columns of the table of R333 (`exec_byTable`), read off the code in `ERR`. -/
theorem errorKindsPerOperation : Obligations.ErrorKindsPerOperation := by
  intro s t i h
  have hend := exec_endState h
  have hrow := exec_byTable h
  exact ⟨hend.ended, hrow.err_cases, fun hne => Bool.eq_false_iff.2 fun hr => hne (hend.err_of_result hr),
    hrow.answered_false, hrow.raisable (k := .timeout), hrow.raisable (k := .protocolViolation),
    hrow.raisable (k := .channelError)⟩

end Sys2Proof.Machine
end

section
/-! PROOFS. Block reset (spec 70_reset_and_hazards.md R370, R371). -/

namespace Sys2Proof.Machine

/-- Block reset, as a step: the Host's access is used, and the block is reset. -/
theorem step_blockReset {s : State} {rest : List HostAccess} (h : s.host = .blockReset :: rest) :
    step s = .next (blockReset { s with host := rest }) := by
  rw [step_access h, hostAccess]

/-- After block reset no operation is left, and `STATUS` and `DRIVE` are 0 (R370). -/
theorem blockReset_ended (s : State) : Ended false 0#3 (blockReset s) where
  busy := blockReset_busy s
  result := blockReset_result s
  err := blockReset_err s
  drive := blockReset_drive s
  seq := blockReset_seq s

/-- Settles O16: the step is `blockReset`, whose field lemmas give the reset values (R58) and what is kept. -/
theorem blockResetState : Obligations.BlockResetState := by
  intro s rest h
  exact ⟨blockReset { s with host := rest }, step_blockReset h, by simp [blockReset_ended]⟩

end Sys2Proof.Machine
end
